-- ==== Sys2Proof/Word.lean ====
section
/-! DEFINITION. The word types of ENVLERP (00_scope.md R6, R8; 30_encoding.md R92, R99). -/

namespace Sys2Proof

/-- One 8-bit field of a command word or one byte of a MIDI message. -/
abbrev Byte := BitVec 8

/-- One 32-bit field of a command word, or a response (R92, R105). -/
abbrev Word := BitVec 32

/-- A `Real` in the default binding of `NUM`, an IEEE 754 binary32 image; `NUM.enc` and `NUM.dec` are the
identity on it (R7). -/
abbrev F32 := BitVec 32

/-- A sample count or frame index, `CW` = 32 bits unsigned (R6, R8; decision D7). -/
abbrev Count := BitVec 32

/-- A note number, 7 bits unsigned (R8). -/
abbrev Note := BitVec 7

/-- A nonnegative MIDI velocity, 7 bits unsigned (R96). -/
abbrev Velocity := BitVec 7

/-- A legal parameter address, 0 to 6 (R8, R97). -/
abbrev Param := Fin 7

/-- A command word, format CMD96 (R92). -/
abbrev Command := BitVec 96

/-- A MIDI message word `{byte0, byte1, byte2}`, format MIDI3 (R99). -/
abbrev Message := BitVec 24

/-- A note number indexes the 128 voice contexts (R21). -/
theorem Note.toNat_lt (n : Note) : n.toNat < 128 := n.isLt

end Sys2Proof
end

