-- ==== Sys2Proof/Config.lean ====
section
/-! DEFINITION. What the spec leaves open: constants with no body. Nothing can evaluate them, so every claim about
the model holds whatever their values are. -/

namespace Sys2Proof.Config

/-- The OPEN parameter `DEFAULT[0..6]` before it is brought into `RANGE[i]` (R6, decision D17; log 6). -/
opaque rawDefault : Nat → BitVec 32

/-- Which operation of `NUM` a NaN result comes from. -/
inductive NanSource where
  | add | sub | mul | div
  deriving DecidableEq, Repr

/-- The sign and fraction of a NaN that an operation of binary32 returns, a function of its operands (R7 fixes the
format and not these bits; log 7). -/
opaque nanBits : NanSource → BitVec 32 → BitVec 32 → BitVec 32

/-- `clamp(v, lo, hi)` of a `v` that is not finite, for which R11 states no result (log 8). -/
opaque clampNonFinite : BitVec 32 → BitVec 32 → BitVec 32 → BitVec 32

/-- The oscillator oracle: one fresh `Real` per draw (R74, U10, U14; log 13, log 15). -/
opaque oracle : Nat → BitVec 32

/-- The environment's evaluation of `440 × 2^((note−69)/12)`, before it is held to the formula "up to rounding" (R206;
log 14). -/
opaque rawBaseFreq : BitVec 7 → BitVec 32

/-- The environment's evaluation of `(velocity/127)²`, before it is held to the formula "up to rounding" (R206;
log 14). -/
opaque rawAmplitude : BitVec 7 → BitVec 32

end Sys2Proof.Config
end

