-- ==== Sys2Proof/Machine/Num.lean ====
section
/-! DEFINITION. The numeric type `NUM` as a configuration record (00_scope.md R7), and the two functions the spec
builds on it, `clamp` (R11) and `toCount` (R10). The block runs under the binary32 binding (Binary32.lean); the exact
rational binding (Exact.lean) is the one R126 (d) and R175 speak of. -/

namespace Sys2Proof.Machine

/-- `NUM` over a type `R` of values (R7). `lit n d` is the literal `n / d`; `nearest` rounds a finite positive value
to the nearest integer, a tie going up (R10); `clampOpen` is what `clamp` gives for a value that is not finite, where
R11 states nothing (log 8). -/
structure Num (R : Type) where
  lit : Int → Nat → R
  add : R → R → R
  sub : R → R → R
  mul : R → R → R
  div : R → R → R
  neg : R → R
  ofNat : Nat → R
  lt : R → R → Bool
  isFinite : R → Bool
  nearest : R → Nat
  clampOpen : R → R → R → R

/-- `lit(0)`. -/
def Num.zero {R : Type} (N : Num R) : R := N.lit 0 1

/-- `lit(1)`. -/
def Num.one {R : Type} (N : Num R) : R := N.lit 1 1

/-- `clamp(v, lo, hi)` (R11). -/
def Num.clamp {R : Type} (N : Num R) (v lo hi : R) : R :=
  if N.isFinite v then
    if N.lt v lo then lo else if N.lt hi v then hi else v
  else N.clampOpen v lo hi

/-- `toCount(x)` (R10): 0 unless `x` is finite and positive, else the nearest integer, saturated at `2^CW - 1`. -/
def Num.toCount {R : Type} (N : Num R) (x : R) : Count :=
  if N.isFinite x && N.lt N.zero x then BitVec.ofNat 32 (min (N.nearest x) (2 ^ 32 - 1)) else 0#32

end Sys2Proof.Machine
end

