-- ==== Sys2Proof/Machine/Binary32.lean ====
section
/-! DEFINITION. The default binding of `NUM`: IEEE 754 binary32, each operation the exact result rounded to nearest,
ties to even, with gradual underflow (R7, G1; log 9). Every finite binary32 value is a whole number of units of
2^-149, so operands become integers, the operation is exact, and the result is rounded once at the end. -/

namespace Sys2Proof.F32

/-! ### Fields: sign 1 bit, exponent 8 bits, fraction 23 bits -/

/-- The sign bit. -/
def sign (x : F32) : Bool := x.msb

/-- Exponent and fraction as one number; it orders the magnitudes. -/
def mag (x : F32) : Nat := x.toNat % 2 ^ 31

/-- The magnitude of infinity: exponent all ones, fraction zero. -/
def infMag : Nat := 0x7F800000

def isFinite (x : F32) : Bool := decide (mag x < infMag)
def isInf (x : F32) : Bool := mag x == infMag
def isNan (x : F32) : Bool := decide (infMag < mag x)

/-- The value of a finite magnitude field `m`, in units of 2^-149: exponent field `m / 2^23`, fraction `m % 2^23`, and
no hidden bit when the exponent field is 0 (gradual underflow). -/
def unitsOfMag (m : Nat) : Nat :=
  if m / 2 ^ 23 = 0 then m else (2 ^ 23 + m % 2 ^ 23) * 2 ^ (m / 2 ^ 23 - 1)

/-- The magnitude of a finite value, in units of 2^-149. -/
def units (x : F32) : Nat := unitsOfMag (mag x)

/-- The exact value of a finite operand, in units of 2^-149. -/
def exact (x : F32) : Int := if sign x then -(units x : Int) else units x

/-- The number a finite binary32 image stands for. -/
def value (x : F32) : Rat := (exact x : Rat) / 2 ^ 149

/-! ### Rounding and packing -/

/-- `p / q` rounded to an integer, ties to even. -/
def roundEven (p q : Nat) : Nat :=
  if 2 * (p % q) < q then p / q
  else if q < 2 * (p % q) then p / q + 1
  else if p / q % 2 = 0 then p / q
  else p / q + 1

/-- How many low bits of a number of units lie below a 24-bit significand. -/
def excess (n : Nat) : Nat := if n < 2 ^ 24 then 0 else n.log2 - 23

/-- `p / q` units rounded to 24 significant bits, but never finer than one unit (gradual underflow). -/
def roundUnits (p q : Nat) : Nat := roundEven p (q * 2 ^ excess (p / q)) * 2 ^ excess (p / q)

/-- The magnitude field of a number of units that a binary32 significand holds; infinity when it is too large. -/
def packMag (u : Nat) : Nat :=
  if 253 < excess u then infMag else excess u * 2 ^ 23 + u / 2 ^ excess u

/-- A binary32 image from its sign and magnitude field. -/
def ofBits (s : Bool) (m : Nat) : F32 := BitVec.ofNat 32 (m + if s then 2 ^ 31 else 0)

/-- The binary32 value nearest to `p / q` units, with the given sign. -/
def round (s : Bool) (p q : Nat) : F32 := ofBits s (packMag (roundUnits p q))

/-- A NaN with free sign and fraction (log 7). -/
def nanOf (free : F32) : F32 :=
  if free.extractLsb' 0 23 = 0#23 then free ||| 0x7F800001#32 else free ||| 0x7F800000#32

/-! ### The operations -/

/-- The sum of two finite values; an exact zero is +0 unless both operands are negative zeros. -/
def addFinite (a b : F32) : F32 :=
  if exact a + exact b = 0 then ofBits (sign a && sign b) 0
  else round (decide (exact a + exact b < 0)) (exact a + exact b).natAbs 1

/-- The sum, with infinities and NaN; `free` supplies a NaN result's free bits. -/
def sum (free a b : F32) : F32 :=
  if isNan a || isNan b then nanOf free
  else if isInf a then (if isInf b && sign a != sign b then nanOf free else a)
  else if isInf b then b
  else addFinite a b

def neg (x : F32) : F32 := x ^^^ 0x80000000#32

def add (a b : F32) : F32 := sum (Config.nanBits .add a b) a b

def sub (a b : F32) : F32 := sum (Config.nanBits .sub a b) a (neg b)

def mul (a b : F32) : F32 :=
  if isNan a || isNan b || (isInf a && units b == 0) || (units a == 0 && isInf b) then nanOf (Config.nanBits .mul a b)
  else if isInf a || isInf b then ofBits (sign a != sign b) infMag
  else round (sign a != sign b) (units a * units b) (2 ^ 149)

def div (a b : F32) : F32 :=
  if isNan a || isNan b || (isInf a && isInf b) || (units a == 0 && units b == 0) then nanOf (Config.nanBits .div a b)
  else if isInf a || units b == 0 then ofBits (sign a != sign b) infMag
  else if isInf b then ofBits (sign a != sign b) 0
  else round (sign a != sign b) (units a * 2 ^ 149) (units b)

def ofNat (n : Nat) : F32 := round false (n * 2 ^ 149) 1

/-- The binary32 value nearest to the literal `n / d`. -/
def lit (n : Int) (d : Nat) : F32 := round (decide (n < 0)) (n.natAbs * 2 ^ 149) d

/-- A number that orders the values that are not NaN; both zeros have the same one. -/
def key (x : F32) : Int := if sign x then -(mag x : Int) else mag x

def lt (a b : F32) : Bool := !isNan a && !isNan b && decide (key a < key b)

/-- A finite positive value rounded to the nearest integer, a tie going up (R10). -/
def nearest (x : F32) : Nat := (2 * units x + 2 ^ 149) / 2 ^ 150

end Sys2Proof.F32

namespace Sys2Proof.Machine

/-- The binding of `NUM` the block runs under (R6, decision D6). -/
abbrev binary32 : Num F32 where
  lit := F32.lit
  add := F32.add
  sub := F32.sub
  mul := F32.mul
  div := F32.div
  neg := F32.neg
  ofNat := F32.ofNat
  lt := F32.lt
  isFinite := F32.isFinite
  nearest := F32.nearest
  clampOpen := Config.clampNonFinite

end Sys2Proof.Machine
end

