-- ==== Sys2Proof/Machine/Params.lean ====
section
/-! DEFINITION. The implementation parameters of 00_scope.md R6 and the parameter ranges of 40_smoother.md R133. -/

namespace Sys2Proof.Machine

/-- The two decided switches of R6. -/
structure Switches where
  /-- `CLAMP_ENV` (R167). -/
  clampEnv : Bool
  /-- `OFF_CLEARS_LEVEL` (R174). -/
  offClearsLevel : Bool
  deriving DecidableEq, Repr

/-- The spec's settings: `CLAMP_ENV` = false (D13), `OFF_CLEARS_LEVEL` = true (D11); log 10. -/
def switches : Switches where
  clampEnv := false
  offClearsLevel := true

/-- `lo_i` of parameter i (R133), under any binding of `NUM`. -/
def rangeLo {R : Type} (N : Num R) (i : Param) : R :=
  match i.val with
  | 5 => N.lit (-1000) 1
  | 6 => N.lit 9 10
  | _ => N.lit 0 1

/-- `hi_i` of parameter i (R133), under any binding of `NUM`. -/
def rangeHi {R : Type} (N : Num R) (i : Param) : R :=
  match i.val with
  | 3 => N.lit 10 1
  | 4 => N.lit 100 1
  | 6 => N.lit 111 100
  | _ => N.lit 1000 1

/-- `clamp(v, lo_i, hi_i)`, the clamp of the parameter surface (R134, R135, R137). -/
def clampParam {R : Type} (N : Num R) (i : Param) (v : R) : R := N.clamp v (rangeLo N i) (rangeHi N i)

/-- `DEFAULT[i]` (R6): open, but finite and inside `RANGE[i]` (log 6). -/
def paramDefault (i : Param) : F32 :=
  if F32.isFinite (Config.rawDefault i.val) then clampParam binary32 i (Config.rawDefault i.val)
  else rangeLo binary32 i

/-- The environment's `MASTER_GAIN`, 0.5 (R6, R77). -/
def masterGain : F32 := binary32.lit 1 2

/-- The environment's `FREQ_MAX`, 22050 Hz (R6, R78). -/
def freqMax : F32 := binary32.lit 22050 1

end Sys2Proof.Machine
end

