-- ==== Sys2Proof/Machine/State.lean ====
section
/-! DEFINITION. The state: all ENVLERP has (10_state.md R20), its ports (30_encoding.md R90), and the environment
that consumes its events (20_memory.md section 4; outside the block, log 13). Plain data. -/

namespace Sys2Proof.Machine

/-! ### The register files -/

/-- The envelope stage (R22). -/
inductive Stage where
  | off | attack | sustain | release
  deriving DecidableEq, Repr

/-- A voice envelope context `env[n]` (R21 to R25), over a binding of `NUM` with values `R`. -/
structure Voice (R : Type) where
  stage : Stage
  level : R
  slope : R
  ramp : Count
  deriving DecidableEq, Repr

/-- A smoother context `sm[i]` (R29). -/
structure Smoother (R : Type) where
  cur : R
  tgt : R
  ui : R
  rem : Count
  step : R
  deriving DecidableEq, Repr

/-! ### Events (R91) -/

/-- The parameter snapshot `p = (gp[0], gp[1], gp[2], gp[5], gp[6])`. -/
structure Snapshot where
  carrier : F32
  modulator : F32
  index : F32
  detuneOffset : F32
  detuneMult : F32
  deriving DecidableEq, Repr

inductive Event where
  | blockBegin (frameCount bufferOffset : Count)
  | blockEnd
  | gain (note : Note) (k : Nat) (g : F32)
  | oscInit (note : Note)
  | oscNote (note : Note) (velocity : Velocity)
  | oscDestroy (note : Note)
  | oscParams (note : Note) (p : Snapshot)
  deriving DecidableEq, Repr

/-! ### What the host presents (R90, R250) -/

/-- An input of the host. `rstDuring w k` is a pulse of `rst` that abandons command `w` in flight after its first
`k` events have left the event port (log 4). -/
inductive HostInput where
  | cmd (w : Command)
  | rst
  | rstDuring (w : Command) (k : Nat)
  deriving DecidableEq, Repr

/-! ### The environment (R61, R74 to R78, R206; log 13) -/

/-- One channel of the output buffer: samples by frame index, frames strictly rising, no sample listed that equals
`unlisted` (log 16). -/
abbrev Samples := List (Nat × F32)

/-- The output buffer's two channels (R61). -/
structure Buffer where
  left : Samples
  right : Samples
  deriving DecidableEq, Repr

/-- What the environment knows of a note's oscillator: whether it exists, and what `OscNote` set (R74, R206). -/
structure Osc where
  live : Bool
  baseFreq : F32
  amplitude : F32
  deriving DecidableEq, Repr

/-- The parameters one oscillator runs with for the duration of its voice's run (R78; log 17). -/
structure Running where
  note : Note
  carrier : F32
  modulator : F32
  index : F32
  freq : F32
  deriving DecidableEq, Repr

structure World where
  osc : Vector Osc 128
  running : Option Running
  frames : Count
  offset : Count
  buf : Buffer
  /-- The model's own counter of oracle draws: each draw is a fresh free value (log 13). -/
  draws : Nat
  deriving DecidableEq, Repr

/-! ### The state -/

structure State where
  /-- The voice envelope contexts (R21). -/
  env : Vector (Voice F32) 128
  /-- The smoother contexts (R28). -/
  sm : Vector (Smoother F32) 7
  /-- The latched global parameters (R36). -/
  gp : Vector F32 7
  /-- The active list `AL`, head first (R37). -/
  al : List Note
  /-- `bank.activeCount` (R38). -/
  activeCount : BitVec 8
  /-- `bank.inited` (R32). -/
  inited : Bool
  /-- `bank.sampleRate` (R33). -/
  sampleRate : F32
  /-- `bank.chanCount` (R34). -/
  chanCount : Byte
  /-- `bank.attackSamples` (R35). -/
  attackSamples : Count
  /-- `bank.releaseSamples` (R35). -/
  releaseSamples : Count
  /-- `bank.freshReset` (R39). -/
  freshReset : Bool
  /-- `bank.flags`: bit 0 `F_RANGE`, 1 `F_NOINIT`, 2 `F_INVARIANT`, 3 `F_RSVD` (R40). -/
  flags : BitVec 4
  /-- The command port: what the host will present, oldest first (R90; log 1). -/
  host : List HostInput
  /-- The response port: the response of the last command (R105; log 3). -/
  rsp : Option Word
  /-- The event port: the event trace of the last command (R9, R91; log 3). -/
  events : List Event
  /-- The environment (log 13). -/
  world : World
  deriving DecidableEq, Repr

/-! ### Reasons to stop: no step of this block has one (R220, R232) -/

/-- A state that a claim must treat as faulted. No meaning and no step answers a fault: R220 says the block never
stops, and R173 gives the command that sets the flag an effect, which is modelled. `Safety` names the faulted states.
Going on is safe for claims that exclude faulted states, as R224 asks of them. -/
inductive Fault where
  /-- `F_INVARIANT` is set: a voice with stage Off was found on the active list (R173, R224, R227). -/
  | invariantViolation
  deriving DecidableEq, Repr

/-- An instruction without a meaning; every constructor of `Instr` has one, so none is refused. Raising it is safe. -/
inductive Refusal where
  /-- Raised only by an arm of `exec` whose instruction is not modelled yet. -/
  | notModelled (mnemonic : String)
  deriving DecidableEq, Repr

/-! ### Hardware reset -/

/-- An Off voice with zero fields (R50, R160, R192). -/
def Voice.cleared : Voice F32 := ⟨.off, 0#32, 0#32, 0#32⟩

/-- A smoother at its default (R50). -/
def Smoother.atDefault (i : Param) : Smoother F32 := ⟨paramDefault i, paramDefault i, paramDefault i, 0#32, 0#32⟩

/-- The environment before anything reached it (log 11, log 16). -/
def World.initial : World where
  osc := Vector.replicate 128 ⟨false, 0#32, 0#32⟩
  running := none
  frames := 0#32
  offset := 0#32
  buf := ⟨[], []⟩
  draws := 0

/-- The state after hardware reset, the table of R50; the host has presented nothing yet (log 1). -/
def State.reset : State where
  env := Vector.replicate 128 Voice.cleared
  sm := #v[Smoother.atDefault 0, Smoother.atDefault 1, Smoother.atDefault 2, Smoother.atDefault 3,
    Smoother.atDefault 4, Smoother.atDefault 5, Smoother.atDefault 6]
  gp := #v[paramDefault 0, paramDefault 1, paramDefault 2, paramDefault 3, paramDefault 4, paramDefault 5,
    paramDefault 6]
  al := []
  activeCount := 0#8
  inited := false
  sampleRate := 0#32
  chanCount := 0#8
  attackSamples := 0#32
  releaseSamples := 0#32
  freshReset := true
  flags := 0#4
  host := []
  rsp := none
  events := []
  world := World.initial

end Sys2Proof.Machine
end

