-- ==== Sys2Proof/Machine/Lerp.lean ====
section
/-! DEFINITION. One parameter smoother, the LERP engine (40_smoother.md section 1), over any binding of `NUM`. -/

namespace Sys2Proof.Machine

/-- `SmSetImm(i, v)` (R121). -/
def Smoother.setImm {R : Type} (N : Num R) (v : R) : Smoother R := ⟨v, v, v, 0#32, N.zero⟩

/-- `SmRamp(i, t, d)` (R123). -/
def Smoother.startRamp {R : Type} (N : Num R) (t : R) (d : Count) (m : Smoother R) : Smoother R :=
  if d = 0#32 then Smoother.setImm N t
  else { m with step := N.div (N.sub t m.cur) (N.ofNat d.toNat), tgt := t, ui := t, rem := d }

/-- `SmStep(i)`, the update (R125); the value it returns is `m.cur`. -/
def Smoother.advance {R : Type} (N : Num R) (m : Smoother R) : Smoother R :=
  if m.rem = 0#32 then m
  else if m.rem = 1#32 then { m with cur := m.tgt, rem := 0#32, step := N.zero }
  else { m with cur := N.add m.cur m.step, rem := m.rem - 1#32 }

/-- The UI write of `SM_SETUI` and `P_SET`: no other field changes (R128, R135). -/
def Smoother.setUi {R : Type} (v : R) (m : Smoother R) : Smoother R := { m with ui := v }

end Sys2Proof.Machine
end

