-- ==== Sys2Proof/Machine/Flags.lean ====
section
/-! DEFINITION. The sticky flags (10_state.md R40, 60_exceptions.md R221 to R226). The block has no condition codes
(R45); these four bits are all its flags, and no command clears one. -/

namespace Sys2Proof.Machine

/-- The four sticky flags (R40). -/
inductive Flag where
  | range | noInit | invariant | rsvd
  deriving DecidableEq, Repr

/-- The flag's bit in `bank.flags` (R40). -/
def Flag.bit : Flag → Nat
  | .range => 0
  | .noInit => 1
  | .invariant => 2
  | .rsvd => 3

/-- `bank.flags` with one flag set and the others as they were (R226). -/
def Flag.set (f : Flag) (flags : BitVec 4) : BitVec 4 := flags ||| BitVec.twoPow 4 f.bit

/-- The flag is set. -/
def State.flagged (s : State) (f : Flag) : Bool := s.flags.getLsbD f.bit

/-- `raise F` (R9): set the sticky flag, write nothing else. A command in error is this and nothing more (R220, R232). -/
def State.raise (f : Flag) (s : State) : State := { s with flags := f.set s.flags }

end Sys2Proof.Machine
end

