-- ==== Sys2Proof/Machine/Operands.lean ====
section
/-! DEFINITION. Operand decoding (30_encoding.md section 3): each operand form answers the legal value, or `none` for
an operand that makes the command ignored with `F_RANGE`. Never reduced into range (R227). A count operand is `cnt` as
it stands, every value legal (R101). -/

namespace Sys2Proof.Machine

/-- A note operand, legal up to 127 (R95). -/
def noteOperand (a : Byte) : Option Note := if a.toNat ≤ 127 then some (a.setWidth 7) else none

/-- A velocity operand, legal up to 127 (R96). -/
def velOperand (b : Byte) : Option Velocity := if b.toNat ≤ 127 then some (b.setWidth 7) else none

/-- A parameter address operand, legal up to 6 (R97). -/
def addrOperand (a : Byte) : Option Param := if h : a.toNat < 7 then some ⟨a.toNat, h⟩ else none

/-- A `Real` operand, legal when finite (R98). -/
def realOperand (val : Word) : Option F32 := if binary32.isFinite val then some val else none

/-- A sample rate operand of `INIT`, legal when finite and greater than 0 (R191). -/
def rateOperand (val : Word) : Option F32 :=
  if binary32.isFinite val && binary32.lt binary32.zero val then some val else none

/-- `PROCESS` is legal when no frame index wraps: `offset + frames <= 2^CW` (R63, R194). -/
def blockFits (frames offset : Count) : Bool := decide (offset.toNat + frames.toNat ≤ 2 ^ 32)

end Sys2Proof.Machine
end

