-- ==== Sys2Proof/Machine/Ops.lean ====
section
/-! DEFINITION. Shared operations on the state. ENVLERP has no exception entry and no return from one (60_exceptions.md
R232, R233): what a command in error does is `State.raise` (Flags.lean) and, for a read, respond 0. -/

namespace Sys2Proof.Machine

/-- `env[n]` (R9). -/
def State.voice (s : State) (n : Note) : Voice F32 := s.env[n.toNat]'n.toNat_lt

/-- `env[n] <- v` (R9). -/
def State.setVoice (n : Note) (v : Voice F32) (s : State) : State :=
  { s with env := s.env.set n.toNat v n.toNat_lt }

/-- `sm[i]` (R9). -/
def State.smoother (s : State) (i : Param) : Smoother F32 := s.sm[i.val]

/-- `sm[i] <- x` (R9). -/
def State.setSmoother (i : Param) (x : Smoother F32) (s : State) : State := { s with sm := s.sm.set i.val x }

/-- `gp[i]` (R9). -/
def State.param (s : State) (i : Param) : F32 := s.gp[i.val]

/-- `gp[i] <- x` (R9). -/
def State.setParam (i : Param) (x : F32) (s : State) : State := { s with gp := s.gp.set i.val x }

/-- `emit E` (R9). -/
def State.emit (e : Event) (s : State) : State := { s with events := s.events ++ [e] }

/-- `respond v` (R9, R105). -/
def State.respond (v : F32) (s : State) : State := { s with rsp := some v }

/-- The first check of every command but `INIT` (R102, R190): `body` is what the command does once initialised. -/
def State.whenInited (s body : State) : State := if s.inited then body else s.raise .noInit

/-- The same for a command with a response, which is 0 when the command is ignored (R105, R190). -/
def State.whenInitedRead (s body : State) : State :=
  if s.inited then body else (s.raise .noInit).respond binary32.zero

/-- A read ignored for an illegal address: `F_RANGE` and a response of 0 (R97, R105). -/
def State.badRead (s : State) : State := (s.raise .range).respond binary32.zero

/-- The snapshot `(gp[0], gp[1], gp[2], gp[5], gp[6])` of an `OscParams` event (R91). -/
def State.snapshot (s : State) : Snapshot where
  carrier := s.param 0
  modulator := s.param 1
  index := s.param 2
  detuneOffset := s.param 5
  detuneMult := s.param 6

/-! ### The status read-out (R93) -/

/-- The read-out for the voice selected by `st_sel`. -/
structure Status where
  inited : Bool
  fresh : Bool
  flags : BitVec 4
  active : BitVec 8
  attack : Word
  release : Word
  stage : BitVec 2
  level : Word
  slope : Word
  ramp : Word
  deriving DecidableEq, Repr

/-- The 2-bit encoding of a stage (R22). -/
def Stage.code : Stage → BitVec 2
  | .off => 0
  | .attack => 1
  | .sustain => 2
  | .release => 3

/-- What the status read-out shows (R93); reading it changes nothing. -/
def State.status (s : State) (sel : Note) : Status where
  inited := s.inited
  fresh := s.freshReset
  flags := s.flags
  active := s.activeCount
  attack := s.attackSamples
  release := s.releaseSamples
  stage := (s.voice sel).stage.code
  level := (s.voice sel).level
  slope := (s.voice sel).slope
  ramp := (s.voice sel).ramp

/-- The outcome of a meaning: every command completes (R220). -/
abbrev Result := Host.Outcome State Fault Refusal

end Sys2Proof.Machine
end

