-- ==== Sys2Proof/Machine/Voice.lean ====
section
/-! DEFINITION. One voice's envelope machine (41_envelope.md), over any binding of `NUM` and either setting of the
switches of R6. What a voice does to the active list and to the event port is in Notes.lean and Block.lean. -/

namespace Sys2Proof.Machine

/-! ### The note transitions -/

/-- The write of `Trigger` to the voice (R151, R153): the level stays. -/
def Voice.startAttack {R : Type} (N : Num R) (samples : Count) (v : Voice R) : Voice R :=
  { v with
    stage := .attack
    ramp := samples
    slope := if samples = 0#32 then N.zero else N.div (N.sub N.one v.level) (N.ofNat samples.toNat) }

/-- `Release(n)` on the voice (R157, R158, R159): the level stays; no effect when Off or in Release. -/
def Voice.startRelease {R : Type} (N : Num R) (samples : Count) (v : Voice R) : Voice R :=
  if v.stage = .attack ∨ v.stage = .sustain then
    { v with
      stage := .release
      ramp := samples
      slope := if samples = 0#32 then N.zero else N.div (N.neg v.level) (N.ofNat samples.toNat) }
  else v

/-- The voice's part of `GoOff` (R174). -/
def Voice.goOff {R : Type} (N : Num R) (sw : Switches) (v : Voice R) : Voice R :=
  ⟨.off, if sw.offClearsLevel then N.zero else v.level, N.zero, 0#32⟩

/-! ### Samples (R166, R167) -/

/-- The level after one sample. -/
def nextLevel {R : Type} (N : Num R) (sw : Switches) (slope level : R) : R :=
  if sw.clampEnv then N.clamp (N.add level slope) N.zero N.one else N.add level slope

/-- The level after `m` samples. -/
def levelAfter {R : Type} (N : Num R) (sw : Switches) (slope : R) : Nat → R → R
  | 0, level => level
  | m + 1, level => levelAfter N sw slope m (nextLevel N sw slope level)

/-- The gains of `m` samples: each is the level before its step. -/
def gainsOf {R : Type} (N : Num R) (sw : Switches) (slope : R) : Nat → R → List R
  | 0, _ => []
  | m + 1, level => level :: gainsOf N sw slope m (nextLevel N sw slope level)

/-- `m` samples of a ramping voice: the level advances and the countdown falls by `m` (R168, R170). -/
def Voice.consume {R : Type} (N : Num R) (sw : Switches) (m : Nat) (v : Voice R) : Voice R :=
  { v with level := levelAfter N sw v.slope m v.level, ramp := BitVec.ofNat 32 (v.ramp.toNat - m) }

/-! ### VoiceRun (R164) -/

/-- What one `VoiceRun` does: the gains it emits, the voice it leaves, whether `GoOff` was performed, and whether the
voice was found Off (R173). -/
structure VoiceRun (R : Type) where
  gains : List R
  voice : Voice R
  ended : Bool
  defect : Bool
  deriving DecidableEq, Repr

/-- The loop of R164 with at most `passes` passes; `rem` frames remain and `gains` were emitted so far. -/
def Voice.loop {R : Type} (N : Num R) (sw : Switches) : Nat → Nat → List R → Voice R → VoiceRun R
  | 0, _, gains, v => ⟨gains, v, false, false⟩
  | passes + 1, rem, gains, v =>
    if rem = 0 then ⟨gains, v, false, false⟩
    else
      match v.stage with
      | .off => ⟨gains, v, false, true⟩
      | .attack =>
        if v.ramp = 0#32 then
          Voice.loop N sw passes rem gains { v with level := N.one, slope := N.zero, stage := .sustain }
        else
          let m := min rem v.ramp.toNat
          let w := v.consume N sw m
          Voice.loop N sw passes (rem - m) (gains ++ gainsOf N sw v.slope m v.level)
            (if w.ramp = 0#32 then { w with stage := .sustain, slope := N.zero } else w)
      | .sustain =>
        ⟨gains ++ gainsOf N sw v.slope rem v.level, { v with level := levelAfter N sw v.slope rem v.level },
          false, false⟩
      | .release =>
        if v.ramp = 0#32 then ⟨gains, v.goOff N sw, true, false⟩
        else
          let m := min rem v.ramp.toNat
          let w := v.consume N sw m
          if w.ramp = 0#32 then ⟨gains ++ gainsOf N sw v.slope m v.level, w.goOff N sw, true, false⟩
          else Voice.loop N sw passes (rem - m) (gains ++ gainsOf N sw v.slope m v.level) w

/-- `VoiceRun(n, cnt)` on the voice: two passes of the loop are all it ever takes (R171; log 20). -/
def Voice.run {R : Type} (N : Num R) (sw : Switches) (cnt : Nat) (v : Voice R) : VoiceRun R :=
  Voice.loop N sw 2 cnt [] v

end Sys2Proof.Machine
end

