-- ==== Sys2Proof/Machine/Block.lean ====
section
/-! DEFINITION. Block processing (42_block_and_system.md section 3). -/

namespace Sys2Proof.Machine

/-! ### Steps 1 and 2 (R195, R196) -/

/-- `gp[i] <- SmStep(i)` (R195): the latch takes the value before the step. -/
def State.latch (s : State) (i : Param) : State :=
  (s.setParam i (s.smoother i).cur).setSmoother i ((s.smoother i).advance binary32)

/-- The parameter addresses in the order they are stepped (R195). -/
def paramOrder : List Param := [0, 1, 2, 3, 4, 5, 6]

/-- Step 1: every smoother is stepped once. -/
def State.latchAll (s : State) : State := paramOrder.foldl State.latch s

/-- The count of samples of a duration at a sample rate (R35). -/
def durationCount (duration rate : F32) : Count := binary32.toCount (binary32.mul duration rate)

/-- Step 2: the derived counts from the values just latched (R196). -/
def State.recount (s : State) : State :=
  { s with
    attackSamples := durationCount (s.param 3) s.sampleRate
    releaseSamples := durationCount (s.param 4) s.sampleRate }

/-! ### Step 4 (R197) -/

/-- The gain events of one voice, frames counted from 0 (R163). -/
def gainEvents (n : Note) (gains : List F32) : List Event := gains.zipIdx.map fun p => .gain n p.2 p.1

/-- The bank's part of `GoOff(n)`: off the active list, count, `OscDestroy` (R174; log 21). -/
def State.retire (n : Note) (s : State) : State :=
  { s with
    al := s.al.filter fun m => decide (m ≠ n)
    activeCount := s.activeCount - 1#8
    events := s.events ++ [.oscDestroy n] }

/-- `VoiceRun(n, cnt)` (R164): a voice found Off raises `F_INVARIANT` and is left as it is (R173). -/
def State.voiceRun (n : Note) (cnt : Nat) (s : State) : State :=
  let r := (s.voice n).run binary32 switches cnt
  if r.defect then s.raise .invariant
  else
    let t := State.setVoice n r.voice { s with events := s.events ++ gainEvents n r.gains }
    if r.ended then t.retire n else t

/-- One entry of the traversal: `OscParams`, then the voice's run (R197). -/
def State.runVoice (cnt : Nat) (s : State) (n : Note) : State :=
  State.voiceRun n cnt (s.emit (.oscParams n s.snapshot))

/-- The block before its voices run: `BlockBegin`, steps 1 and 2, and the mark of R39. -/
def State.openBlock (frames offset : Count) (s : State) : State :=
  { (s.emit (.blockBegin frames offset)).latchAll.recount with freshReset := false }

/-- `PROCESS` of a block that fits (R194): the traversal runs over the active list as it stood (R197). -/
def State.processBlock (frames offset : Count) (s : State) : State :=
  State.emit .blockEnd ((s.openBlock frames offset).al.foldl (State.runVoice frames.toNat) (s.openBlock frames offset))

/-- `PROCESS frames, offset` (R194). -/
def execProcess (frames offset : Word) (s : State) : Result :=
  .next <| s.whenInited <| if blockFits frames offset then s.processBlock frames offset else s.raise .range

end Sys2Proof.Machine
end

