-- ==== Sys2Proof/Syntax.lean ====
section
/-! DEFINITION. The instructions: one constructor per row of spec/opcode_table.json, seventeen CMD96 commands (R94)
and three MIDI3 messages (R100). Operands are the raw fields of the command word: an operand out of range is a legal
command with an effect of its own (R95 to R98), so the syntax does not exclude it. Fields a command does not use are
ignored (R92) and have no place here (log 19). -/

namespace Sys2Proof

/-- One accepted command. -/
inductive Instr where
  /-- `INIT chan, rate`, op 0x01 (R191). -/
  | init (chan : Byte) (rate : Word)
  /-- `RESET`, op 0x02 (R201). -/
  | reset
  /-- `DESTROY`, op 0x03 (R202). -/
  | destroy
  /-- `TRIGGER note, vel`, op 0x10 (R150). -/
  | trigger (note vel : Byte)
  /-- `RELEASE note`, op 0x11 (R156). -/
  | release (note : Byte)
  /-- `ALLOFF`, op 0x12 (R160). -/
  | alloff
  /-- `PROCESS frames, offset`, op 0x18 (R194); `offset` is `val` taken as an unsigned integer (R101). -/
  | process (frames offset : Word)
  /-- `MIDI len, b0, b1, b2`, op 0x1C (R203). -/
  | midi (len b0 b1 b2 : Byte)
  /-- `SM_SETIMM i, v`, op 0x20 (R120). -/
  | smSetimm (addr : Byte) (v : Word)
  /-- `SM_RAMP i, t, d`, op 0x21 (R122). -/
  | smRamp (addr : Byte) (target dur : Word)
  /-- `SM_STEP i`, op 0x22 (R124). -/
  | smStep (addr : Byte)
  /-- `SM_GETUI i`, op 0x23 (R127). -/
  | smGetui (addr : Byte)
  /-- `SM_SETUI i, v`, op 0x24 (R128). -/
  | smSetui (addr : Byte) (v : Word)
  /-- `P_SETIMM i, v`, op 0x30 (R134). -/
  | pSetimm (addr : Byte) (v : Word)
  /-- `P_SET i, v`, op 0x31 (R135). -/
  | pSet (addr : Byte) (v : Word)
  /-- `P_GET i`, op 0x32 (R136). -/
  | pGet (addr : Byte)
  /-- `P_RAMP i, v, d`, op 0x33 (R137). -/
  | pRamp (addr : Byte) (v dur : Word)
  /-- MIDI message `NOTE_OFF`, status nibble 8 (R100): channel nibble and byte2 are ignored by its meaning. -/
  | noteOff (chan : BitVec 4) (note : Note) (byte2 : Byte)
  /-- MIDI message `NOTE_ON`, status nibble 9 (R100): the channel nibble is ignored by its meaning. -/
  | noteOn (chan : BitVec 4) (note : Note) (vel : Velocity)
  /-- MIDI message `CC_ALLOFF`, status nibble 0xB and controller 123 (R100): channel nibble and byte2 are ignored. -/
  | ccAlloff (chan : BitVec 4) (byte2 : Byte)
  deriving DecidableEq, Repr

end Sys2Proof
end

