-- ==== Sys2Proof/Decode.lean ====
section
/-! DEFINITION. The CMD96 and MIDI3 formats (30_encoding.md): fields, decoder, encoder, pseudo-commands. -/

namespace Sys2Proof

/-! ### The fields of a command word (R92) -/

def opField (w : Command) : Byte := w.extractLsb' 88 8
def aField (w : Command) : Byte := w.extractLsb' 80 8
def bField (w : Command) : Byte := w.extractLsb' 72 8
def valField (w : Command) : Word := w.extractLsb' 32 32
def cntField (w : Command) : Word := w.extractLsb' 0 32

/-- The message bytes of a `MIDI` command, `cnt[23:0]`; `cnt[31:24]` is ignored (R99). -/
def messageField (w : Command) : Message := w.extractLsb' 0 24

/-- A command word from its fields, with `rsv` zero (R92). -/
def packCommand (op a b : Byte) (val cnt : Word) : Command := op ++ a ++ b ++ 0#8 ++ val ++ cnt

/-! ### The second level: MIDI3 message words (R99, R100, R104) -/

/-- The three bytes of a message, byte0 most significant (R99). -/
def packMessage (b0 b1 b2 : Byte) : Message := b0 ++ b1 ++ b2

def byte0 (m : Message) : Byte := m.extractLsb' 16 8
def byte1 (m : Message) : Byte := m.extractLsb' 8 8
def byte2 (m : Message) : Byte := m.extractLsb' 0 8

/-- Row `NOTE_OFF` of R100. -/
def isNoteOff (m : Message) : Bool := m &&& 0xF08000#24 == 0x800000#24

/-- Row `NOTE_ON` of R100. -/
def isNoteOn (m : Message) : Bool := m &&& 0xF08080#24 == 0x900000#24

/-- Row `CC_ALLOFF` of R100. -/
def isCcAlloff (m : Message) : Bool := m &&& 0xF0FF00#24 == 0xB07B00#24

/-- The message a word stands for; `none` for a word no row of R100 matches, which R104 ignores. -/
def decodeMessage (m : Message) : Option Instr :=
  if isNoteOff m then some (.noteOff (m.extractLsb' 16 4) (m.extractLsb' 8 7) (m.extractLsb' 0 8))
  else if isNoteOn m then some (.noteOn (m.extractLsb' 16 4) (m.extractLsb' 8 7) (m.extractLsb' 0 7))
  else if isCcAlloff m then some (.ccAlloff (m.extractLsb' 16 4) (m.extractLsb' 0 8))
  else none

/-! ### The first level: command words (R94, R103, R106) -/

/-- What the decoder finds: an instruction, or a reserved `op`, named (R103). -/
inductive Decoded where
  | instr (i : Instr)
  | reserved (op : Byte)
  deriving DecidableEq, Repr

/-- The instruction of a `MIDI` command: the message where its length is 3 and a row of R100 matches, else the `MIDI`
command itself, which carries a message to be ignored (R99, R104, R106; log 5). -/
def decodeMidi (len : Byte) (m : Message) : Instr :=
  match (if len = 3#8 then decodeMessage m else none) with
  | some i => i
  | none => .midi len (byte0 m) (byte1 m) (byte2 m)

/-- The decoder, total on command words: `op` alone selects the row (R94), and an `op` not in the table is reserved
(R103). -/
def decode (w : Command) : Decoded :=
  match (opField w).toNat with
  | 0x01 => .instr (.init (aField w) (valField w))
  | 0x02 => .instr .reset
  | 0x03 => .instr .destroy
  | 0x10 => .instr (.trigger (aField w) (bField w))
  | 0x11 => .instr (.release (aField w))
  | 0x12 => .instr .alloff
  | 0x18 => .instr (.process (cntField w) (valField w))
  | 0x1C => .instr (decodeMidi (aField w) (messageField w))
  | 0x20 => .instr (.smSetimm (aField w) (valField w))
  | 0x21 => .instr (.smRamp (aField w) (valField w) (cntField w))
  | 0x22 => .instr (.smStep (aField w))
  | 0x23 => .instr (.smGetui (aField w))
  | 0x24 => .instr (.smSetui (aField w) (valField w))
  | 0x30 => .instr (.pSetimm (aField w) (valField w))
  | 0x31 => .instr (.pSet (aField w) (valField w))
  | 0x32 => .instr (.pGet (aField w))
  | 0x33 => .instr (.pRamp (aField w) (valField w) (cntField w))
  | _ => .reserved (opField w)

/-- The seventeen assigned values of `op` (R94). -/
def assignedOps : List Byte :=
  [0x01, 0x02, 0x03, 0x10, 0x11, 0x12, 0x18, 0x1C, 0x20, 0x21, 0x22, 0x23, 0x24, 0x30, 0x31, 0x32, 0x33]

/-! ### The encoder -/

/-- The `MIDI` command word of a message of three bytes (R99). -/
def packMidi (len : Byte) (m : Message) : Command := packCommand 0x1C len 0 0 (m.setWidth 32)

/-- The command word of an instruction, unused fields zero (R92, R94, R99, R100). -/
def encode : Instr → Command
  | .init chan rate => packCommand 0x01 chan 0 rate 0
  | .reset => packCommand 0x02 0 0 0 0
  | .destroy => packCommand 0x03 0 0 0 0
  | .trigger note vel => packCommand 0x10 note vel 0 0
  | .release note => packCommand 0x11 note 0 0 0
  | .alloff => packCommand 0x12 0 0 0 0
  | .process frames offset => packCommand 0x18 0 0 offset frames
  | .midi len b0 b1 b2 => packMidi len (packMessage b0 b1 b2)
  | .smSetimm addr v => packCommand 0x20 addr 0 v 0
  | .smRamp addr target dur => packCommand 0x21 addr 0 target dur
  | .smStep addr => packCommand 0x22 addr 0 0 0
  | .smGetui addr => packCommand 0x23 addr 0 0 0
  | .smSetui addr v => packCommand 0x24 addr 0 v 0
  | .pSetimm addr v => packCommand 0x30 addr 0 v 0
  | .pSet addr v => packCommand 0x31 addr 0 v 0
  | .pGet addr => packCommand 0x32 addr 0 0 0
  | .pRamp addr v dur => packCommand 0x33 addr 0 v dur
  | .noteOff chan note b2 => packMidi 3 (0x8#4 ++ chan ++ 0#1 ++ note ++ b2)
  | .noteOn chan note vel => packMidi 3 (0x9#4 ++ chan ++ 0#1 ++ note ++ 0#1 ++ vel)
  | .ccAlloff chan b2 => packMidi 3 (0xB#4 ++ chan ++ 0x7B#8 ++ b2)

/-! ### Words as spec/opcode_table.json numbers them -/

/-- The command word of a table row's word: a CMD96 word as it stands; a MIDI3 word inside the `MIDI` command of
length 3 that carries it (R99; log 22). -/
def tableCommand (nbits w : Nat) : Command :=
  if nbits ≤ 24 then packMidi 3 (BitVec.ofNat 24 w) else BitVec.ofNat 96 w

/-- The instruction the decoder reads from a table row's word. -/
def decodeTableWord (nbits w : Nat) : Option Instr :=
  match decode (tableCommand nbits w) with
  | .instr i => some i
  | .reserved _ => none

/-! ### Pseudo-commands (R108): each a spelling of one command -/

inductive Pseudo where
  | startNote (note vel : Byte)
  | stopNote (note : Byte)
  | noteOn (ch : BitVec 4) (note vel : Byte)
  | noteOff (ch : BitVec 4) (note vel : Byte)
  | panic (ch : BitVec 4)
  | setCarrier (v : Word)
  | setModulating (v : Word)
  | setIndex (v : Word)
  | setAttack (v : Word)
  | setRelease (v : Word)
  | setDetuneOffset (v : Word)
  | setDetuneMult (v : Word)
  deriving DecidableEq, Repr

/-- The command a pseudo-command spells (R108). -/
def Pseudo.expand : Pseudo → Instr
  | .startNote note vel => .trigger note vel
  | .stopNote note => .release note
  | .noteOn ch note vel => .midi 3 (0x9#4 ++ ch) note vel
  | .noteOff ch note vel => .midi 3 (0x8#4 ++ ch) note vel
  | .panic ch => .midi 3 (0xB#4 ++ ch) 123 0
  | .setCarrier v => .pSetimm 0 v
  | .setModulating v => .pSetimm 1 v
  | .setIndex v => .pSetimm 2 v
  | .setAttack v => .pSetimm 3 v
  | .setRelease v => .pSetimm 4 v
  | .setDetuneOffset v => .pSetimm 5 v
  | .setDetuneMult v => .pSetimm 6 v

end Sys2Proof
end

