-- ==== Sys2Proof/Machine/Notes.lean ====
section
/-! DEFINITION. The three note commands (41_envelope.md sections 1 to 3). They touch no smoother and no `gp`. -/

namespace Sys2Proof.Machine

/-- `Release(n)` (R157): the voice alone, from the release count of the last computation (R35). -/
def State.releaseNote (n : Note) (s : State) : State :=
  s.setVoice n ((s.voice n).startRelease binary32 s.releaseSamples)

/-- The activation of an Off voice: head of the active list, count, `OscInit` (R151, R152). -/
def State.activate (n : Note) (s : State) : State :=
  { s with
    al := n :: s.al
    activeCount := s.activeCount + 1#8
    events := s.events ++ [.oscInit n] }

/-- `Trigger(n, vel)` (R151). -/
def State.triggerNote (n : Note) (vel : Velocity) (s : State) : State :=
  if vel = 0#7 then s.releaseNote n
  else
    State.setVoice n ((s.voice n).startAttack binary32 s.attackSamples)
      (State.emit (.oscNote n vel) (if (s.voice n).stage = .off then s.activate n else s))

/-- The body of `ALLOFF` (R160): no event. -/
def State.allNotesOff (s : State) : State :=
  { s with
    env := Vector.replicate 128 Voice.cleared
    al := []
    activeCount := 0#8 }

/-- `TRIGGER note, vel` (R150). -/
def execTrigger (note vel : Byte) (s : State) : Result :=
  .next <| s.whenInited <|
    match noteOperand note, velOperand vel with
    | some n, some v => s.triggerNote n v
    | _, _ => s.raise .range

/-- `RELEASE note` (R156). -/
def execRelease (note : Byte) (s : State) : Result :=
  .next <| s.whenInited <|
    match noteOperand note with
    | some n => s.releaseNote n
    | none => s.raise .range

/-- `ALLOFF` (R160). -/
def execAlloff (s : State) : Result := .next <| s.whenInited s.allNotesOff

end Sys2Proof.Machine
end

