-- ==== Sys2Proof/Machine/Midi.lean ====
section
/-! DEFINITION. The `MIDI` command and its three messages (42_block_and_system.md section 5). -/

namespace Sys2Proof.Machine

/-- What a message word of three bytes does (R203); a word no line matches is ignored without a flag (R104). -/
def State.midiMessage (m : Message) (s : State) : State :=
  if m.extractLsb' 20 4 = 0x8#4 ∧ m.getLsbD 15 = false then s.releaseNote (m.extractLsb' 8 7)
  else if m.extractLsb' 20 4 = 0x9#4 ∧ m.getLsbD 15 = false ∧ m.getLsbD 7 = false then
    s.triggerNote (m.extractLsb' 8 7) (m.extractLsb' 0 7)
  else if m.extractLsb' 20 4 = 0xB#4 ∧ m.extractLsb' 8 8 = 123#8 then s.allNotesOff
  else s

/-- `MIDI len, b0, b1, b2` (R203): any length but 3 is ignored without a flag (R99). -/
def execMidi (len b0 b1 b2 : Byte) (s : State) : Result :=
  .next <| s.whenInited <| if len = 3#8 then s.midiMessage (packMessage b0 b1 b2) else s

/-- `NOTE_OFF` (R100, R203): the channel nibble and byte2 are ignored. -/
def execNoteOff (note : Note) (s : State) : Result := .next <| s.whenInited (s.releaseNote note)

/-- `NOTE_ON` (R100, R203): a velocity byte of 0 releases (R155). -/
def execNoteOn (note : Note) (vel : Velocity) (s : State) : Result :=
  .next <| s.whenInited (s.triggerNote note vel)

/-- `CC_ALLOFF` (R100, R203). -/
def execCcAlloff (s : State) : Result := .next <| s.whenInited s.allNotesOff

end Sys2Proof.Machine
end

