-- ==== Sys2Proof/Machine/Parameter.lean ====
section
/-! DEFINITION. The four commands of the parameter surface (40_smoother.md section 2): the smoother operations with
the value clamped into the parameter's range. A value outside the range is no error (R134). -/

namespace Sys2Proof.Machine

/-- `P_SETIMM i, v` (R134). -/
def execPSetimm (addr : Byte) (v : Word) (s : State) : Result :=
  .next <| s.whenInited <|
    match addrOperand addr, realOperand v with
    | some i, some x => s.setSmoother i (Smoother.setImm binary32 (clampParam binary32 i x))
    | _, _ => s.raise .range

/-- `P_SET i, v` (R135). -/
def execPSet (addr : Byte) (v : Word) (s : State) : Result :=
  .next <| s.whenInited <|
    match addrOperand addr, realOperand v with
    | some i, some x => s.setSmoother i ((s.smoother i).setUi (clampParam binary32 i x))
    | _, _ => s.raise .range

/-- `P_GET i` (R136). -/
def execPGet (addr : Byte) (s : State) : Result :=
  .next <| s.whenInitedRead <|
    match addrOperand addr with
    | some i => s.respond (s.smoother i).ui
    | none => s.badRead

/-- `P_RAMP i, v, d` (R137). -/
def execPRamp (addr : Byte) (v dur : Word) (s : State) : Result :=
  .next <| s.whenInited <|
    match addrOperand addr, realOperand v with
    | some i, some x => s.setSmoother i ((s.smoother i).startRamp binary32 (clampParam binary32 i x) dur)
    | _, _ => s.raise .range

end Sys2Proof.Machine
end

