-- ==== Sys2Proof/Machine/Smoother.lean ====
section
/-! DEFINITION. The five primitive commands of one smoother (40_smoother.md section 1). They touch no voice, no bank
register and no event. -/

namespace Sys2Proof.Machine

/-- `SM_SETIMM i, v` (R120): no clamp. -/
def execSmSetimm (addr : Byte) (v : Word) (s : State) : Result :=
  .next <| s.whenInited <|
    match addrOperand addr, realOperand v with
    | some i, some x => s.setSmoother i (Smoother.setImm binary32 x)
    | _, _ => s.raise .range

/-- `SM_RAMP i, t, d` (R122): no clamp. -/
def execSmRamp (addr : Byte) (target dur : Word) (s : State) : Result :=
  .next <| s.whenInited <|
    match addrOperand addr, realOperand target with
    | some i, some t => s.setSmoother i ((s.smoother i).startRamp binary32 t dur)
    | _, _ => s.raise .range

/-- `SM_STEP i` (R124): responds with the value before the step. -/
def execSmStep (addr : Byte) (s : State) : Result :=
  .next <| s.whenInitedRead <|
    match addrOperand addr with
    | some i => (s.setSmoother i ((s.smoother i).advance binary32)).respond (s.smoother i).cur
    | none => s.badRead

/-- `SM_GETUI i` (R127). -/
def execSmGetui (addr : Byte) (s : State) : Result :=
  .next <| s.whenInitedRead <|
    match addrOperand addr with
    | some i => s.respond (s.smoother i).ui
    | none => s.badRead

/-- `SM_SETUI i, v` (R128): no clamp. -/
def execSmSetui (addr : Byte) (v : Word) (s : State) : Result :=
  .next <| s.whenInited <|
    match addrOperand addr, realOperand v with
    | some i, some x => s.setSmoother i ((s.smoother i).setUi x)
    | _, _ => s.raise .range

end Sys2Proof.Machine
end

