-- ==== Sys2Proof/Machine/System.lean ====
section
/-! DEFINITION. `INIT`, `RESET`, `DESTROY` (42_block_and_system.md sections 2 and 4). The parameter defaults are an
argument of the shared operations, which the commands supply with `DEFAULT` (R6, R129). -/

namespace Sys2Proof.Machine

/-- `SmSetImm(i, DEFAULT[i])` for every i (R129). -/
def defaultSmoothers (dflt : Param → F32) : Vector (Smoother F32) 7 :=
  #v[Smoother.setImm binary32 (dflt 0), Smoother.setImm binary32 (dflt 1), Smoother.setImm binary32 (dflt 2),
    Smoother.setImm binary32 (dflt 3), Smoother.setImm binary32 (dflt 4), Smoother.setImm binary32 (dflt 5),
    Smoother.setImm binary32 (dflt 6)]

/-- `Construct()` (R192). -/
def State.construct (dflt : Param → F32) (s : State) : State :=
  { s.allNotesOff with
    sm := defaultSmoothers dflt
    gp := #v[dflt 0, dflt 1, dflt 2, dflt 3, dflt 4, dflt 5, dflt 6]
    freshReset := true }

/-- An accepted `INIT` (R191). -/
def State.initialise (dflt : Param → F32) (chan : Byte) (rate : F32) (s : State) : State :=
  { s.construct dflt with
    sampleRate := rate
    chanCount := chan
    attackSamples := durationCount ((s.construct dflt).param 3) rate
    releaseSamples := durationCount ((s.construct dflt).param 4) rate
    inited := true }

/-- The body of `RESET` (R201): voices, list, smoothers and the fresh mark, nothing else. -/
def State.softReset (dflt : Param → F32) (s : State) : State :=
  { s.allNotesOff with
    sm := defaultSmoothers dflt
    freshReset := true }

/-- `INIT chan, rate` (R191): accepted whatever `bank.inited` is; the flags stay. -/
def execInit (chan : Byte) (rate : Word) (s : State) : Result :=
  .next <|
    match rateOperand rate with
    | some r => s.initialise paramDefault chan r
    | none => s.raise .range

/-- `RESET` (R201). -/
def execReset (s : State) : Result := .next <| s.whenInited (s.softReset paramDefault)

/-- `DESTROY` (R202): no event. What becomes of oscillators still sounding is the environment's; that `world` keeps them
as they are is the model's choice (log 24). -/
def execDestroy (s : State) : Result := .next <| s.whenInited { s with inited := false }

end Sys2Proof.Machine
end

