-- ==== Sys2Proof/Machine/Dispatch.lean ====
section
/-! DEFINITION. One arm per instruction. -/

namespace Sys2Proof.Machine

def exec (i : Instr) (s : State) : Host.Outcome State Fault Refusal :=
  match i with
  -- 42_block_and_system.md
  | .init chan rate => Sys2Proof.Machine.execInit chan rate s
  | .reset => Sys2Proof.Machine.execReset s
  | .destroy => Sys2Proof.Machine.execDestroy s
  -- 41_envelope.md
  | .trigger note vel => Sys2Proof.Machine.execTrigger note vel s
  | .release note => Sys2Proof.Machine.execRelease note s
  | .alloff => Sys2Proof.Machine.execAlloff s
  -- 42_block_and_system.md
  | .process frames offset => Sys2Proof.Machine.execProcess frames offset s
  | .midi len b0 b1 b2 => Sys2Proof.Machine.execMidi len b0 b1 b2 s
  -- 40_smoother.md
  | .smSetimm addr v => Sys2Proof.Machine.execSmSetimm addr v s
  | .smRamp addr target dur => Sys2Proof.Machine.execSmRamp addr target dur s
  | .smStep addr => Sys2Proof.Machine.execSmStep addr s
  | .smGetui addr => Sys2Proof.Machine.execSmGetui addr s
  | .smSetui addr v => Sys2Proof.Machine.execSmSetui addr v s
  | .pSetimm addr v => Sys2Proof.Machine.execPSetimm addr v s
  | .pSet addr v => Sys2Proof.Machine.execPSet addr v s
  | .pGet addr => Sys2Proof.Machine.execPGet addr s
  | .pRamp addr v dur => Sys2Proof.Machine.execPRamp addr v dur s
  -- MIDI3 messages, 30_encoding.md R100
  | .noteOff _ note _ => Sys2Proof.Machine.execNoteOff note s
  | .noteOn _ note vel => Sys2Proof.Machine.execNoteOn note vel s
  | .ccAlloff _ _ => Sys2Proof.Machine.execCcAlloff s

end Sys2Proof.Machine
end

