-- ==== Sys2Proof/Machine/Environment.lean ====
section
/-! DEFINITION. The environment's side of the event port (20_memory.md section 4, 42_block_and_system.md R206): the
oscillators and the mixing datapath. It is outside ENVLERP (00_scope.md R4 (1), (7), (9)) and only consumes events
(log 13). Its arithmetic is the binary32 binding. -/

namespace Sys2Proof.Machine

/-! ### One channel of the output buffer (R61) -/

/-- What a sample that nothing has written reads as (log 16). -/
def unlisted : F32 := 0#32

/-- `MemRead((c, j), 1)` on one channel. -/
def readSample : Samples → Nat → F32
  | [], _ => unlisted
  | (k, x) :: rest, j => if k = j then x else readSample rest j

/-- `MemWrite((c, j), 1, v)` on one channel, keeping the canonical form. -/
def writeSample : Samples → Nat → F32 → Samples
  | [], j, v => if v = unlisted then [] else [(j, v)]
  | (k, x) :: rest, j, v =>
    if j < k then (if v = unlisted then (k, x) :: rest else (j, v) :: (k, x) :: rest)
    else if j = k then (if v = unlisted then rest else (j, v) :: rest)
    else (k, x) :: writeSample rest j v

/-- The frame lies in the region of `n` frames from `o`. -/
def inRegion (o n j : Nat) : Bool := decide (o ≤ j) && decide (j < o + n)

/-- Write 0 to every sample of the region (R75). -/
def zeroRegion (o n : Nat) (m : Samples) : Samples := m.filter fun e => !inRegion o n e.1

/-- Multiply every sample of the region by the master gain (R77). -/
def scaleRegion (o n : Nat) (m : Samples) : Samples :=
  m.filterMap fun e =>
    if inRegion o n e.1 then
      (if binary32.mul e.2 masterGain = unlisted then none else some (e.1, binary32.mul e.2 masterGain))
    else some e

/-- The canonical form: frames strictly rising, no sample equal to what an unlisted one reads as. -/
def samplesWf : Samples → Bool
  | [] => true
  | (k, x) :: rest => x != unlisted && rest.all (fun e => decide (k < e.1)) && samplesWf rest

/-- Both channels are in canonical form. -/
def Buffer.wf (b : Buffer) : Bool := samplesWf b.left && samplesWf b.right

/-- Apply the same change to both channels: the mono signal is stereo-doubled (R76). -/
def Buffer.both (f : Samples → Samples) (b : Buffer) : Buffer := ⟨f b.left, f b.right⟩

/-- Add `v` to one sample of a channel (R76). -/
def accumulate (j : Nat) (v : F32) (m : Samples) : Samples := writeSample m j (binary32.add (readSample m j) v)

/-! ### The maps of R206

Each is its formula "up to rounding": a free value that lies within one part in 2^20 of the formula (log 14), and the
formula itself at R206's exact points. -/

/-- The 12th power of `440 × 2^((n−69)/12)` counted in units of 2^-149: a whole number, as 12 · 149 − 69 = 1719. -/
def pitchPower (n : Note) : Nat := 440 ^ 12 * 2 ^ (n.toNat + 1719)

/-- The 12th root of `p`, rounded down: `r` holds the bits found so far, of which `bits` more are to be found. -/
def root12 (p : Nat) : Nat → Nat → Nat
  | 0, r => r
  | bits + 1, r => root12 p bits (if (r + 2 ^ bits) ^ 12 ≤ p then r + 2 ^ bits else r)

/-- The binary32 value nearest to `440 × 2^((n−69)/12)`; the highest note's lies below 2^163 units. -/
def nearestPitch (n : Note) : F32 := F32.round false (root12 (pitchPower n) 163 0) 1

/-- `f` is `440 × 2^((n−69)/12)` up to rounding, by 12th powers: the formula lies within `f / 2^20` of `f`. -/
def isPitch (n : Note) (f : F32) : Bool :=
  F32.isFinite f && !F32.sign f &&
    decide ((F32.units f * (2 ^ 20 - 1)) ^ 12 ≤ pitchPower n * (2 ^ 20) ^ 12) &&
    decide (pitchPower n * (2 ^ 20) ^ 12 ≤ (F32.units f * (2 ^ 20 + 1)) ^ 12)

/-- `baseFreq` of R206: its three exact points, and a free value up to rounding at every other note (log 14). -/
def baseFreq (n : Note) : F32 :=
  if n = 57#7 then binary32.lit 220 1
  else if n = 69#7 then binary32.lit 440 1
  else if n = 81#7 then binary32.lit 880 1
  else if isPitch n (Config.rawBaseFreq n) then Config.rawBaseFreq n
  else nearestPitch n

/-- The binary32 value nearest to `(v/127)²`. -/
def nearestAmplitude (v : Velocity) : F32 := binary32.lit (v.toNat ^ 2 : Nat) (127 ^ 2)

/-- `a` is `(v/127)²` up to rounding: the formula lies within `a / 2^20` of `a`. -/
def isAmplitude (v : Velocity) (a : F32) : Bool :=
  F32.isFinite a && !F32.sign a &&
    decide (F32.units a * (2 ^ 20 - 1) * 127 ^ 2 ≤ v.toNat ^ 2 * 2 ^ 149 * 2 ^ 20) &&
    decide (v.toNat ^ 2 * 2 ^ 149 * 2 ^ 20 ≤ F32.units a * (2 ^ 20 + 1) * 127 ^ 2)

/-- `amplitude` of R206: its exact point, and a free value up to rounding at every other velocity (log 14). -/
def amplitude (v : Velocity) : F32 :=
  if v = 127#7 then binary32.lit 1 1
  else if isAmplitude v (Config.rawAmplitude v) then Config.rawAmplitude v
  else nearestAmplitude v

/-! ### Events (R74 to R78, R206) -/

/-- The oscillator the environment keeps for a note. -/
def World.oscOf (w : World) (n : Note) : Osc := w.osc[n.toNat]'n.toNat_lt

def World.setOsc (n : Note) (o : Osc) (w : World) : World := { w with osc := w.osc.set n.toNat o n.toNat_lt }

/-- The effective frequency of R78. -/
def effectiveFreq (baseFreq : F32) (p : Snapshot) : F32 :=
  binary32.clamp (binary32.add (binary32.mul baseFreq p.detuneMult) p.detuneOffset) binary32.zero freqMax

/-- The frequency a note's oscillator is at: the effective one while its voice's run lasts, else its base frequency
(R78). -/
def World.frequencyOf (w : World) (n : Note) : F32 :=
  match w.running with
  | some r => if r.note = n then r.freq else (w.oscOf n).baseFreq
  | none => (w.oscOf n).baseFreq

/-- The running parameters once the run of `n`'s voice is over: they end if they are `n`'s (R78). -/
def afterRun (n : Note) (running : Option Running) : Option Running := running.filter fun r => decide (r.note ≠ n)

/-- A block abandoned in flight: a run it had begun is over, as no gain event of it follows (R78, R250; log 4, log 17). -/
def World.abandonRun (w : World) : World := { w with running := none }

/-- What the environment does on one event. A voice's run ends with its last gain event of the block (R78): the one of
the block's last frame, or the one before its `OscDestroy` (log 17). That a destroyed oscillator's record keeps its base frequency and amplitude
is the model's choice (log 25). -/
def World.absorb (w : World) : Event → World
  | .blockBegin n o => { w with frames := n, offset := o, buf := w.buf.both (zeroRegion o.toNat n.toNat) }
  | .blockEnd => { w with running := none, buf := w.buf.both (scaleRegion w.offset.toNat w.frames.toNat) }
  | .gain n k g =>
    { w with
      running := if k + 1 = w.frames.toNat then afterRun n w.running else w.running
      draws := w.draws + 1
      buf := w.buf.both (accumulate (w.offset.toNat + k) (binary32.mul (Config.oracle w.draws) g)) }
  | .oscInit n =>
    { w.setOsc n ⟨true, Config.oracle w.draws, Config.oracle (w.draws + 1)⟩ with draws := w.draws + 2 }
  | .oscNote n vel => w.setOsc n ⟨(w.oscOf n).live, baseFreq n, amplitude vel⟩
  | .oscDestroy n => { w.setOsc n { w.oscOf n with live := false } with running := afterRun n w.running }
  | .oscParams n p =>
    { w with running := some ⟨n, p.carrier, p.modulator, p.index, effectiveFreq (w.oscOf n).baseFreq p⟩ }

/-- What the environment does on an event trace, in emission order (R90). -/
def World.absorbAll (w : World) (events : List Event) : World := events.foldl World.absorb w

end Sys2Proof.Machine
end

