-- ==== Sys2Proof/Machine/Port.lean ====
section
/-! DEFINITION. The ports around a command (30_encoding.md R90): acceptance, delivery of the events, hardware reset. -/

namespace Sys2Proof.Machine

/-- A command is accepted: it leaves the host's queue, and the response and event ports are idle until it writes them
(R90; log 3). -/
def State.accept (rest : List HostInput) (s : State) : State := { s with host := rest, rsp := none, events := [] }

/-- A command has completed: the environment has received its events in emission order (R90; log 18). -/
def State.deliver (s : State) : State := { s with world := s.world.absorbAll s.events }

/-- Hardware reset (R250): every piece of the block's state at its value of R50, the ports idle. The host's queue and
the environment are outside the block. -/
def State.hardReset (rest : List HostInput) (w : World) : State := { State.reset with host := rest, world := w }

end Sys2Proof.Machine
end

