-- ==== Sys2Proof/Machine/Step.lean ====
section
/-! DEFINITION. One step: the block takes the host's next input (20_memory.md R67, R68). ENVLERP has no program counter
(R44); the next command is the host's. -/

namespace Sys2Proof.Machine

/-- What a command word does: a reserved `op` raises `F_RSVD` before anything else is looked at (R102, R103). -/
def runWord (w : Command) (s : State) : Host.Outcome State Fault Refusal :=
  match decode w with
  | .instr i => exec i s
  | .reserved _ => .next (s.raise .rsvd)

/-- One step. Without an input the block holds its state and does nothing (R238; log 2). -/
def step (s : State) : Host.Outcome State Fault Refusal :=
  match s.host with
  | [] => .next s
  | .cmd w :: rest =>
    match runWord w (s.accept rest) with
    | .next t => .next t.deliver
    | .fault r => .fault r
    | .refused r => .refused r
  | .rst :: rest => .next (State.hardReset rest s.world)
  | .rstDuring w k :: rest =>
    match runWord w (s.accept rest) with
    | .next t => .next (State.hardReset rest (s.world.absorbAll (t.events.take k)).abandonRun)
    | .fault r => .fault r
    | .refused r => .refused r

/-- The state with a table row's word as the host's next command (log 1, log 22). -/
def State.withFetchWord (s : State) (nbits w : Nat) : State :=
  { s with host := .cmd (tableCommand nbits w) :: s.host }

end Sys2Proof.Machine
end

