-- ==== Sys2Proof/Machine/Exact.lean ====
section
/-! DEFINITION. The second binding of `NUM`: exact rational arithmetic, every value finite (R7). The block does not
run under it; the smoother and voice functions are stated over any binding, and this one is the "exact `NUM`" of
R126 (d), R138 and R175. -/

namespace Sys2Proof.Machine

/-- Exact rational arithmetic (R7). -/
abbrev exactNum : Num Rat where
  lit n d := (n : Rat) / (d : Rat)
  add a b := a + b
  sub a b := a - b
  mul a b := a * b
  div a b := a / b
  neg a := -a
  ofNat n := (n : Rat)
  lt a b := decide (a < b)
  isFinite _ := true
  nearest x := (x + 1 / 2).floor.toNat
  clampOpen v _ _ := v

/-- `r` is the exact result `x` rounded to binary32, to nearest with ties to even (R7, G1); exactly when `x` lies at
least half a unit above the largest finite magnitude, `r` is the infinity of `x`'s sign (log 9). -/
def Rounded (r : F32) (x : Rat) : Prop :=
  (F32.isFinite r = true ↔ |x| < (2 ^ 25 - 1) * 2 ^ 103) ∧
    (F32.isFinite r = true → ∀ z : F32, F32.isFinite z = true →
      |F32.value r - x| ≤ |F32.value z - x| ∧
        (|F32.value r - x| = |F32.value z - x| → F32.value z = F32.value r ∨ F32.mag r % 2 = 0)) ∧
    ((2 ^ 25 - 1) * 2 ^ 103 ≤ |x| → F32.mag r = F32.infMag ∧ (F32.sign r = true ↔ x < 0))

end Sys2Proof.Machine
end

