-- ==== Sys2Proof/Safety.lean ====
section
/-! DEFINITION. What counts as a safe state, in the terms the claims use: the invariants of 10_state.md R27 and R30 and
of R33, R35, and the faulted states of 60_exceptions.md R224. -/

namespace Sys2Proof.Machine

/-- The reason a claim must treat the state as faulted, if there is one (R224, R227; log 12). -/
def State.faultOf (s : State) : Option Fault := if s.flagged .invariant then some .invariantViolation else none

/-- No sticky flag is set: the host kept the contract (R226). -/
def State.contractKept (s : State) : Prop := s.flags = 0#4

/-- The invariants of the architectural state, between commands (I1 to I4, S1, R33, R35), and of the output buffer. -/
structure Inv (s : State) : Prop where
  /-- I1 of R27. -/
  active_iff : ∀ n : Note, n ∈ s.al ↔ (s.voice n).stage ≠ .off
  /-- I2 of R27. -/
  active_nodup : s.al.Nodup
  /-- I2 of R27. -/
  active_count : s.activeCount.toNat = s.al.length
  /-- I2 of R27. -/
  active_bound : s.al.length ≤ 128
  /-- I3 of R27, with `OFF_CLEARS_LEVEL` = true. -/
  off_clear : ∀ n : Note, (s.voice n).stage = .off → s.voice n = Voice.cleared
  /-- I4 of R27. -/
  sustain_still : ∀ n : Note, (s.voice n).stage = .sustain → (s.voice n).ramp = 0#32 ∧ (s.voice n).slope = 0#32
  /-- S1 of R30. -/
  smoother_pinned : ∀ i : Param,
    (s.smoother i).rem = 0#32 → (s.smoother i).cur = (s.smoother i).tgt ∧ (s.smoother i).step = 0#32
  /-- R33. -/
  rate_legal : s.inited = true → F32.isFinite s.sampleRate = true ∧ F32.lt 0#32 s.sampleRate = true
  /-- R35. -/
  counts_derived : s.inited = true →
    s.attackSamples = durationCount (s.param 3) s.sampleRate ∧
      s.releaseSamples = durationCount (s.param 4) s.sampleRate
  /-- The output buffer is in canonical form (R61; log 16). -/
  buffer_canonical : s.world.buf.wf = true
  /-- R224: no command sequence from reset finds a voice Off on the active list. -/
  no_defect : s.faultOf = none

/-! ### What a claim about information flow leaves out of a state -/

/-- The state without the UI values, and without the response that may show one (R260). -/
def State.dropUi (s : State) : State := { s with sm := s.sm.map fun m => { m with ui := 0#32 }, rsp := none }

/-- The state without the registers that no rule reads: `chanCount` (R34), `freshReset` (R39), `flags` (R45). -/
def State.dropUnread (s : State) : State := { s with chanCount := 0#8, freshReset := false, flags := 0#4 }

/-! ### Contract violations and reads -/

/-- The operand is one that `F_RANGE` answers in an initialised block, cause by cause (R221). -/
def outOfRange : Instr → Prop
  | .init _ rate => ¬(F32.isFinite rate = true ∧ F32.lt 0#32 rate = true)
  | .trigger note vel => 127 < note.toNat ∨ 127 < vel.toNat
  | .release note => 127 < note.toNat
  | .process frames offset => 2 ^ 32 < offset.toNat + frames.toNat
  | .smSetimm addr v | .smRamp addr v _ | .smSetui addr v | .pSetimm addr v | .pSet addr v | .pRamp addr v _ =>
    6 < addr.toNat ∨ F32.isFinite v = false
  | .smStep addr | .smGetui addr | .pGet addr => 6 < addr.toNat
  | .reset | .destroy | .alloff | .midi _ _ _ _ | .noteOff _ _ _ | .noteOn _ _ _ | .ccAlloff _ _ => False

/-- The command has a response (R105). -/
def isRead : Instr → Bool
  | .smStep _ | .smGetui _ | .pGet _ => true
  | .init _ _ | .reset | .destroy | .trigger _ _ | .release _ | .alloff | .process _ _ | .midi _ _ _ _
  | .smSetimm _ _ | .smRamp _ _ _ | .smSetui _ _ | .pSetimm _ _ | .pSet _ _ | .pRamp _ _ _
  | .noteOff _ _ _ | .noteOn _ _ _ | .ccAlloff _ _ => false

/-- The address operand of the nine commands of 40_smoother.md. -/
def smootherAddress : Instr → Option Byte
  | .smSetimm addr _ | .smRamp addr _ _ | .smStep addr | .smGetui addr | .smSetui addr _ | .pSetimm addr _
  | .pSet addr _ | .pGet addr | .pRamp addr _ _ => some addr
  | .init _ _ | .reset | .destroy | .trigger _ _ | .release _ | .alloff | .process _ _ | .midi _ _ _ _
  | .noteOff _ _ _ | .noteOn _ _ _ | .ccAlloff _ _ => none

/-- The command is one of the note commands and messages of 41_envelope.md. -/
def isNoteCommand : Instr → Bool
  | .trigger _ _ | .release _ | .alloff | .midi _ _ _ _ | .noteOff _ _ _ | .noteOn _ _ _ | .ccAlloff _ _ => true
  | .init _ _ | .reset | .destroy | .process _ _ | .smSetimm _ _ | .smRamp _ _ _ | .smStep _ | .smGetui _
  | .smSetui _ _ | .pSetimm _ _ | .pSet _ _ | .pGet _ | .pRamp _ _ _ => false

/-! ### The forms of a note command (R150, R155, R156, R160, R204) -/

/-- The instruction is a form of `Trigger(n, vel)` with a velocity other than 0. -/
def isTriggerOf (n : Note) (vel : Velocity) (i : Instr) : Prop :=
  vel ≠ 0#7 ∧ (i = .trigger (n.setWidth 8) (vel.setWidth 8) ∨ (∃ chan, i = .noteOn chan n vel) ∨
    ∃ chan : BitVec 4, i = .midi 3#8 (0x9#4 ++ chan) (n.setWidth 8) (vel.setWidth 8))

/-- The instruction is a form of `Release(n)`, a trigger with velocity 0 among them. -/
def isReleaseOf (n : Note) (i : Instr) : Prop :=
  i = .release (n.setWidth 8) ∨ i = .trigger (n.setWidth 8) 0#8 ∨ (∃ chan byte2, i = .noteOff chan n byte2) ∨
    (∃ chan, i = .noteOn chan n 0#7) ∨
    (∃ (chan : BitVec 4) (byte2 : Byte), i = .midi 3#8 (0x8#4 ++ chan) (n.setWidth 8) byte2) ∨
    ∃ chan : BitVec 4, i = .midi 3#8 (0x9#4 ++ chan) (n.setWidth 8) 0#8

/-- The instruction is one that clears every voice: `ALLOFF` and its message, `RESET`, `INIT`. -/
def isSilencing (i : Instr) : Prop :=
  i = .alloff ∨ (∃ chan byte2, i = .ccAlloff chan byte2) ∨
    (∃ (chan : BitVec 4) (byte2 : Byte), i = .midi 3#8 (0xB#4 ++ chan) 123#8 byte2) ∨ i = .reset ∨
    ∃ chan rate, i = .init chan rate

/-! ### A voice's and a smoother's life, command by command (R138, R175) -/

/-- What a command can do to a voice that is not taken off by `ALLOFF` or a reset. -/
inductive VoiceOp where
  | attack (samples : Count)
  | release (samples : Count)
  | run (frames : Nat)
  deriving DecidableEq, Repr

/-- The voice after the operation. -/
def VoiceOp.apply {R : Type} (N : Num R) (sw : Switches) (v : Voice R) : VoiceOp → Voice R
  | .attack samples => v.startAttack N samples
  | .release samples => v.startRelease N samples
  | .run frames => (v.run N sw frames).voice

/-- What the parameter surface and the blocks can do to one smoother (R138). -/
inductive SurfaceOp (R : Type) where
  | setImm (v : R)
  | setUi (v : R)
  | ramp (v : R) (dur : Count)
  | step
  deriving DecidableEq, Repr

/-- The smoother of parameter `i` after the operation; values arrive clamped (R134, R135, R137). -/
def SurfaceOp.apply {R : Type} (N : Num R) (i : Param) (m : Smoother R) : SurfaceOp R → Smoother R
  | .setImm v => Smoother.setImm N (clampParam N i v)
  | .setUi v => m.setUi (clampParam N i v)
  | .ramp v dur => m.startRamp N (clampParam N i v) dur
  | .step => m.advance N

end Sys2Proof.Machine
end

