-- ==== Sys2Proof/WellFormed.lean ====
section
/-! DEFINITION. Well-formed instructions: those the decoder can answer. Every operand field of every constructor may
hold any value (R92, R101), with one exception: a `MIDI` command of length 3 whose message a row of R100 matches is
decoded to that message's own constructor (R106), so the `midi` term for it is not the decoder's (log 5). Its meaning
is the same either way (R203). -/

namespace Sys2Proof

/-- The instruction is one the decoder answers for some command word. -/
def Instr.wellFormed : Instr → Bool
  | .midi len b0 b1 b2 => !(len == 3#8 && (decodeMessage (packMessage b0 b1 b2)).isSome)
  | .init _ _ | .reset | .destroy | .trigger _ _ | .release _ | .alloff | .process _ _ | .smSetimm _ _
  | .smRamp _ _ _ | .smStep _ | .smGetui _ | .smSetui _ _ | .pSetimm _ _ | .pSet _ _ | .pGet _ | .pRamp _ _ _
  | .noteOff _ _ _ | .noteOn _ _ _ | .ccAlloff _ _ => true

end Sys2Proof
end

