-- ==== Sys2Proof/Certificates/Slice0/Obligations.lean ====
section
/-! DEFINITION. The statements for the provers. Each says what the rule of spec/ named in its docstring says; values are
written out here, not through the meanings they are claims about. Flag masks: `F_RANGE` 0b0001, `F_NOINIT` 0b0010,
`F_INVARIANT` 0b0100, `F_RSVD` 0b1000 (R40). -/

section
open Sys2Proof Sys2Proof.Machine

/-! ### Encoding -/

/-- R109, which the spec derives: the worked encodings, both ways (the `MIDI` word decodes to its message: log 5). -/
def Obligations.WorkedEncodings : Prop :=
  (encode (.trigger 60#8 100#8) = 0x103C64000000000000000000#96 ∧
    decode 0x103C64000000000000000000#96 = .instr (.trigger 60#8 100#8)) ∧
  (encode (.release 60#8) = 0x113C00000000000000000000#96 ∧
    decode 0x113C00000000000000000000#96 = .instr (.release 60#8)) ∧
  (encode (.process 4#32 0#32) = 0x180000000000000000000004#96 ∧
    decode 0x180000000000000000000004#96 = .instr (.process 4#32 0#32)) ∧
  (encode (.smRamp 0#8 0x3F800000#32 100#32) = 0x210000003F80000000000064#96 ∧
    decode 0x210000003F80000000000064#96 = .instr (.smRamp 0#8 0x3F800000#32 100#32)) ∧
  (encode (.init 2#8 0x44800000#32) = 0x010200004480000000000000#96 ∧
    decode 0x010200004480000000000000#96 = .instr (.init 2#8 0x44800000#32)) ∧
  (encode (.midi 3#8 0x90#8 60#8 100#8) = 0x1C0300000000000000903C64#96 ∧
    encode (.noteOn 0#4 60#7 100#7) = 0x1C0300000000000000903C64#96 ∧
    decode 0x1C0300000000000000903C64#96 = .instr (.noteOn 0#4 60#7 100#7))

/-- R92: the fields of the one format, and that a field a command does not use is ignored. -/
def Obligations.CommandWordFormat : Prop :=
  ∀ (op a b rsv : Byte) (val cnt : Word),
    let w : Command := op ++ a ++ b ++ rsv ++ val ++ cnt
    (op = 0x01#8 → decode w = .instr (.init a val)) ∧
    (op = 0x02#8 → decode w = .instr .reset) ∧
    (op = 0x03#8 → decode w = .instr .destroy) ∧
    (op = 0x10#8 → decode w = .instr (.trigger a b)) ∧
    (op = 0x11#8 → decode w = .instr (.release a)) ∧
    (op = 0x12#8 → decode w = .instr .alloff) ∧
    (op = 0x18#8 → decode w = .instr (.process cnt val)) ∧
    (op = 0x1C#8 → ∀ (b' rsv' top : Byte) (val' : Word),
      let cnt' : Word := top ++ cnt.extractLsb' 0 24
      let w' : Command := op ++ a ++ b' ++ rsv' ++ val' ++ cnt'
      decode w' = decode w) ∧
    (op = 0x20#8 → decode w = .instr (.smSetimm a val)) ∧
    (op = 0x21#8 → decode w = .instr (.smRamp a val cnt)) ∧
    (op = 0x22#8 → decode w = .instr (.smStep a)) ∧
    (op = 0x23#8 → decode w = .instr (.smGetui a)) ∧
    (op = 0x24#8 → decode w = .instr (.smSetui a val)) ∧
    (op = 0x30#8 → decode w = .instr (.pSetimm a val)) ∧
    (op = 0x31#8 → decode w = .instr (.pSet a val)) ∧
    (op = 0x32#8 → decode w = .instr (.pGet a)) ∧
    (op = 0x33#8 → decode w = .instr (.pRamp a val cnt))

/-- R103, R223: every `op` outside the table of R94 is reserved, 239 of them; such a command sets `F_RSVD` and does
nothing else, initialised or not. An assigned `op` is never reserved. -/
def Obligations.ReservedOpcodes : Prop :=
  let assigned : List Byte := [0x01#8, 0x02#8, 0x03#8, 0x10#8, 0x11#8, 0x12#8, 0x18#8, 0x1C#8, 0x20#8, 0x21#8, 0x22#8,
    0x23#8, 0x24#8, 0x30#8, 0x31#8, 0x32#8, 0x33#8]
  ((List.range 256).filter fun n => decide (BitVec.ofNat 8 n ∉ assigned)).length = 239 ∧
  (∀ w : Command, w.extractLsb' 88 8 ∉ assigned → decode w = .reserved (w.extractLsb' 88 8)) ∧
  (∀ w : Command, w.extractLsb' 88 8 ∈ assigned → ∃ i, decode w = .instr i) ∧
  (∀ (w : Command) (s : State), w.extractLsb' 88 8 ∉ assigned →
    runWord w s = .next { s with flags := s.flags ||| 0b1000#4 })

/-- R99, R100, R104, decoding alone: the three rows by bits and by match and mask, their disjointness, and what no row
matches. That both levels are decoded at once is the model's choice (log 5). -/
def Obligations.MidiMessageDecoding : Prop :=
  ∀ (len b rsv top : Byte) (val : Word) (m : Message),
    let cnt : Word := top ++ m
    let w : Command := 0x1C#8 ++ len ++ b ++ rsv ++ val ++ cnt
    let off := m.extractLsb' 20 4 = 0x8#4 ∧ m.getLsbD 15 = false
    let on := m.extractLsb' 20 4 = 0x9#4 ∧ m.getLsbD 15 = false ∧ m.getLsbD 7 = false
    let cc := m.extractLsb' 20 4 = 0xB#4 ∧ m.extractLsb' 8 8 = 123#8
    (off ↔ m &&& 0xF08000#24 = 0x800000#24) ∧
    (on ↔ m &&& 0xF08080#24 = 0x900000#24) ∧
    (cc ↔ m &&& 0xF0FF00#24 = 0xB07B00#24) ∧
    ¬(off ∧ on) ∧ ¬(off ∧ cc) ∧ ¬(on ∧ cc) ∧
    (len = 3#8 → off →
      decode w = .instr (.noteOff (m.extractLsb' 16 4) (m.extractLsb' 8 7) (m.extractLsb' 0 8))) ∧
    (len = 3#8 → on →
      decode w = .instr (.noteOn (m.extractLsb' 16 4) (m.extractLsb' 8 7) (m.extractLsb' 0 7))) ∧
    (len = 3#8 → cc → decode w = .instr (.ccAlloff (m.extractLsb' 16 4) (m.extractLsb' 0 8))) ∧
    (len ≠ 3#8 ∨ (¬off ∧ ¬on ∧ ¬cc) →
      decode w = .instr (.midi len (m.extractLsb' 16 8) (m.extractLsb' 8 8) (m.extractLsb' 0 8)))

/-- Decode and encode agree: every well-formed instruction is what its own command word decodes to, with every operand
at every value. -/
def Obligations.DecodeOfEncode : Prop := ∀ i : Instr, i.wellFormed = true → decode (encode i) = .instr i

/-- The other direction: what a command word decodes to is well-formed, and its own word decodes to it again. -/
def Obligations.DecodedIsWellFormed : Prop :=
  ∀ (w : Command) (i : Instr), decode w = .instr i → i.wellFormed = true ∧ decode (encode i) = .instr i

/-! ### Steps, acceptance, reset -/

/-- A step runs the decoded instruction: the command leaves the queue, the ports are idle until it writes them, and the
environment receives its events (R67, R90; the queue, the cleared ports and the delivery are the model's choice, log 1,
log 3, log 18). On a word with a reserved `op` a step sets `F_RSVD`, takes the word off the queue, and does nothing else
(R103). With nothing presented, nothing changes (log 2). The environment receives events one by one, first to last. -/
def Obligations.StepRunsDecodedCommand : Prop :=
  (∀ (s t : State) (w : Command) (rest : List HostInput) (i : Instr),
    s.host = .cmd w :: rest → decode w = .instr i →
    exec i { s with host := rest, rsp := none, events := [] } = .next t →
    step s = .next { t with world := t.world.absorbAll t.events }) ∧
  (∀ (s : State) (w : Command) (rest : List HostInput) (op : Byte),
    s.host = .cmd w :: rest → decode w = .reserved op →
    step s = .next { s with host := rest, rsp := none, events := [], flags := s.flags ||| 0b1000#4 }) ∧
  (∀ (s t : State) (nbits w : Nat) (i : Instr),
    decodeTableWord nbits w = some i → exec i { s with rsp := none, events := [] } = .next t →
    step (s.withFetchWord nbits w) = .next { t with world := t.world.absorbAll t.events }) ∧
  (∀ s : State, s.host = [] → step s = .next s) ∧
  (∀ w : World, w.absorbAll [] = w) ∧
  (∀ (w : World) (e : Event) (events : List Event), w.absorbAll (e :: events) = (w.absorb e).absorbAll events)

/-- R220, R232: no command and no step ends in anything but a next state. -/
def Obligations.EveryCommandCompletes : Prop :=
  (∀ (i : Instr) (s : State), ∃ t, exec i s = .next t) ∧
  (∀ (w : Command) (s : State), ∃ t, runWord w s = .next t) ∧
  (∀ s : State, ∃ t, step s = .next t)

/-- R50, R250: the state after hardware reset, whether the pulse comes between commands or abandons one in flight. The
model's choice: that the host's queue and the environment outlive it (log 1, log 4), and that a pulse in flight lands
after the first `k` events, which the environment keeps, and that a run begun in it is over (log 4, log 17). -/
def Obligations.HardwareReset : Prop :=
  (∀ n : Note, State.reset.voice n = ⟨.off, 0#32, 0#32, 0#32⟩) ∧
  (∀ i : Param, State.reset.smoother i = ⟨paramDefault i, paramDefault i, paramDefault i, 0#32, 0#32⟩) ∧
  (∀ i : Param, State.reset.param i = paramDefault i) ∧
  State.reset.al = [] ∧ State.reset.activeCount = 0#8 ∧ State.reset.inited = false ∧
  State.reset.sampleRate = 0#32 ∧ State.reset.chanCount = 0#8 ∧ State.reset.attackSamples = 0#32 ∧
  State.reset.releaseSamples = 0#32 ∧ State.reset.freshReset = true ∧ State.reset.flags = 0b0000#4 ∧
  State.reset.rsp = none ∧ State.reset.events = [] ∧
  (∀ (s : State) (rest : List HostInput), s.host = .rst :: rest →
    step s = .next { State.reset with host := rest, world := s.world }) ∧
  (∀ (s : State) (w : Command) (k : Nat) (rest : List HostInput), s.host = .rstDuring w k :: rest →
    ∃ t, runWord w { s with host := rest, rsp := none, events := [] } = .next t ∧
      step s = .next { State.reset with host := rest, world := { s.world.absorbAll (t.events.take k) with running := none } })

/-- The reset state meets the invariant. -/
def Obligations.ResetMeetsInvariant : Prop := Inv State.reset

/-- R27 (I1 to I4), R30 (S1), R33, R35, R224, and the buffer's canonical form (the model's, log 16): every step from
every state that meets them keeps them. -/
def Obligations.StepKeepsInvariant : Prop := ∀ s t : State, Inv s → step s = .next t → Inv t

/-- R93, R22: what the status read-out shows, for every selected voice. -/
def Obligations.StatusReadout : Prop :=
  ∀ (s : State) (sel : Note),
    let v := s.env[sel.toNat]'sel.toNat_lt
    let stage : BitVec 2 := match v.stage with
      | .off => 0#2
      | .attack => 1#2
      | .sustain => 2#2
      | .release => 3#2
    s.status sel = ⟨s.inited, s.freshReset, s.flags, s.activeCount, s.attackSamples, s.releaseSamples, stage, v.level,
      v.slope, v.ramp⟩

/-! ### Flags -/

/-- R40: a command sets at most one flag and clears none; hardware reset alone clears them. -/
def Obligations.FlagsAreSticky : Prop :=
  (∀ (i : Instr) (s t : State), exec i s = .next t →
    ∃ f ∈ [0b0000#4, 0b0001#4, 0b0010#4, 0b0100#4], t.flags = s.flags ||| f) ∧
  (∀ s t : State, step s = .next t → s.flags &&& t.flags ≠ s.flags →
    t.flags = 0#4 ∧ ∃ rest, s.host = .rst :: rest ∨ ∃ w k, s.host = .rstDuring w k :: rest)

/-- R190, R222: before `INIT` every other command sets `F_NOINIT` and does nothing else; a read responds 0. -/
def Obligations.IgnoredBeforeInit : Prop :=
  ∀ (i : Instr) (s : State), s.inited = false → (∀ chan rate, i ≠ .init chan rate) →
    exec i s = .next { s with
      flags := s.flags ||| 0b0010#4
      rsp := if isRead i = true then some 0#32 else s.rsp }

/-- R221: `F_RANGE` is set, and the command ignored, exactly for the causes listed. -/
def Obligations.RangeFlagCauses : Prop :=
  ∀ (i : Instr) (s : State), s.inited = true ∨ (∃ chan rate, i = .init chan rate) →
    (outOfRange i → exec i s = .next { s with
      flags := s.flags ||| 0b0001#4
      rsp := if isRead i = true then some 0#32 else s.rsp }) ∧
    (∀ t, ¬outOfRange i → exec i s = .next t → t.flags &&& 0b0001#4 = s.flags &&& 0b0001#4)

/-! ### INIT, RESET, DESTROY -/

/-- R191, R192, R51: `INIT`, accepted or ignored. That the environment's oscillators stay as they are is the model's choice
(log 24). -/
def Obligations.InitResult : Prop :=
  ∀ (s : State) (chan : Byte) (rate : Word),
    (F32.isFinite rate = true ∧ F32.lt 0#32 rate = true →
      exec (.init chan rate) s = .next { s with
        env := Vector.replicate 128 ⟨.off, 0#32, 0#32, 0#32⟩
        sm := Vector.ofFn fun i => ⟨paramDefault i, paramDefault i, paramDefault i, 0#32, 0#32⟩
        gp := Vector.ofFn paramDefault
        al := []
        activeCount := 0#8
        inited := true
        sampleRate := rate
        chanCount := chan
        attackSamples := binary32.toCount (F32.mul (paramDefault 3) rate)
        releaseSamples := binary32.toCount (F32.mul (paramDefault 4) rate)
        freshReset := true }) ∧
    (¬(F32.isFinite rate = true ∧ F32.lt 0#32 rate = true) →
      exec (.init chan rate) s = .next { s with flags := s.flags ||| 0b0001#4 })

/-- R201: `RESET` of an initialised block, and everything it does not write. That the environment's oscillators stay as
they are is the model's choice (log 24). -/
def Obligations.ResetResult : Prop :=
  ∀ s : State,
    (s.inited = true → exec .reset s = .next { s with
      env := Vector.replicate 128 ⟨.off, 0#32, 0#32, 0#32⟩
      sm := Vector.ofFn fun i => ⟨paramDefault i, paramDefault i, paramDefault i, 0#32, 0#32⟩
      al := []
      activeCount := 0#8
      freshReset := true }) ∧
    (s.inited = false → exec .reset s = .next { s with flags := s.flags ||| 0b0010#4 })

/-- R202: `DESTROY`. That the environment's oscillators stay as they are is the model's choice (log 24): R202 leaves their
fate to the environment. -/
def Obligations.DestroyResult : Prop :=
  ∀ s : State,
    (s.inited = true → exec .destroy s = .next { s with inited := false }) ∧
    (s.inited = false → exec .destroy s = .next { s with flags := s.flags ||| 0b0010#4 })

/-! ### Who writes what -/

/-- 10_state.md section 4 (R32 to R40): the only writers of every bank register, of `gp` and of the active list. That no command's own effect touches the
host's queue (log 1) or the environment, which `step` lets receive the events afterwards (log 18), is the model's
choice. -/
def Obligations.BankRegisterWriters : Prop :=
  ∀ (i : Instr) (s t : State), exec i s = .next t →
    (t.sampleRate ≠ s.sampleRate ∨ t.chanCount ≠ s.chanCount → ∃ chan rate, i = .init chan rate) ∧
    (t.gp ≠ s.gp ∨ t.attackSamples ≠ s.attackSamples ∨ t.releaseSamples ≠ s.releaseSamples →
      (∃ chan rate, i = .init chan rate) ∨ ∃ frames offset, i = .process frames offset) ∧
    (t.inited ≠ s.inited →
      (t.inited = true ∧ ∃ chan rate, i = .init chan rate) ∨ (t.inited = false ∧ i = .destroy)) ∧
    (t.freshReset ≠ s.freshReset →
      (t.freshReset = true ∧ ((∃ chan rate, i = .init chan rate) ∨ i = .reset)) ∨
        (t.freshReset = false ∧ ∃ frames offset, i = .process frames offset)) ∧
    (t.al ≠ s.al ∨ t.activeCount ≠ s.activeCount →
      (∃ n vel, isTriggerOf n vel i ∧ (s.voice n).stage = .off ∧ t.al = n :: s.al ∧
        t.activeCount = s.activeCount + 1#8) ∨
      (∃ frames offset, i = .process frames offset) ∨
      (isSilencing i ∧ t.al = [] ∧ t.activeCount = 0#8)) ∧
    (t.flags ≠ s.flags →
      (t.flags = s.flags ||| 0b0001#4 ∧ outOfRange i) ∨
      (t.flags = s.flags ||| 0b0010#4 ∧ s.inited = false ∧ ∀ chan rate, i ≠ .init chan rate) ∨
      (t.flags = s.flags ||| 0b0100#4 ∧ ∃ frames offset, i = .process frames offset)) ∧
    t.host = s.host ∧ t.world = s.world

/-- R26, R31: the smoother and parameter commands write one smoother, the flags and the response; the note commands
write voices, the active list and count, the flags and events. -/
def Obligations.RegisterFileWriters : Prop :=
  ∀ (i : Instr) (s t : State), exec i s = .next t →
    (∀ addr, smootherAddress i = some addr →
      t = { s with sm := t.sm, flags := t.flags, rsp := t.rsp } ∧
        ∀ j : Param, j.val ≠ addr.toNat → t.smoother j = s.smoother j) ∧
    (isNoteCommand i = true →
      t = { s with env := t.env, al := t.al, activeCount := t.activeCount, flags := t.flags, events := t.events }) ∧
    (∀ note vel, i = .trigger note vel ∨ i = .release note →
      ∀ m : Note, m.toNat ≠ note.toNat → t.voice m = s.voice m)

/-! ### The smoother commands -/

/-- R120, R121: `SM_SETIMM`. -/
def Obligations.SmSetimmResult : Prop :=
  ∀ (s : State) (addr : Byte) (v : Word),
    (∀ i : Param, s.inited = true → addr.toNat = i.val → F32.isFinite v = true →
      exec (.smSetimm addr v) s = .next { s with sm := s.sm.set i.val ⟨v, v, v, 0#32, 0#32⟩ }) ∧
    (s.inited = true → 6 < addr.toNat ∨ F32.isFinite v = false →
      exec (.smSetimm addr v) s = .next { s with flags := s.flags ||| 0b0001#4 }) ∧
    (s.inited = false →
      exec (.smSetimm addr v) s = .next { s with flags := s.flags ||| 0b0010#4 })

/-- R122, R123: `SM_RAMP`; `cur` is not written, and a duration of 0 is an immediate jump. -/
def Obligations.SmRampResult : Prop :=
  ∀ (s : State) (addr : Byte) (target : Word) (dur : Count),
    (∀ i : Param, s.inited = true → addr.toNat = i.val → F32.isFinite target = true → dur ≠ 0#32 →
      exec (.smRamp addr target dur) s = .next { s with
        sm := s.sm.set i.val ⟨s.sm[i.val].cur, target, target, dur,
          F32.div (F32.sub target s.sm[i.val].cur) (F32.ofNat dur.toNat)⟩ }) ∧
    (∀ i : Param, s.inited = true → addr.toNat = i.val → F32.isFinite target = true → dur = 0#32 →
      exec (.smRamp addr target dur) s = .next { s with
        sm := s.sm.set i.val ⟨target, target, target, 0#32, 0#32⟩ }) ∧
    (s.inited = true → 6 < addr.toNat ∨ F32.isFinite target = false →
      exec (.smRamp addr target dur) s = .next { s with flags := s.flags ||| 0b0001#4 }) ∧
    (s.inited = false →
      exec (.smRamp addr target dur) s = .next { s with flags := s.flags ||| 0b0010#4 })

/-- R124, R125: `SM_STEP` responds with the value before the step; the last step of a ramp pins the value at the
target. -/
def Obligations.SmStepResult : Prop :=
  ∀ (s : State) (addr : Byte),
    (∀ i : Param, s.inited = true → addr.toNat = i.val → s.sm[i.val].rem = 0#32 →
      exec (.smStep addr) s = .next { s with rsp := some s.sm[i.val].cur }) ∧
    (∀ i : Param, s.inited = true → addr.toNat = i.val → s.sm[i.val].rem = 1#32 →
      exec (.smStep addr) s = .next { s with
        sm := s.sm.set i.val ⟨s.sm[i.val].tgt, s.sm[i.val].tgt, s.sm[i.val].ui, 0#32, 0#32⟩
        rsp := some s.sm[i.val].cur }) ∧
    (∀ i : Param, s.inited = true → addr.toNat = i.val → 1 < s.sm[i.val].rem.toNat →
      exec (.smStep addr) s = .next { s with
        sm := s.sm.set i.val ⟨F32.add s.sm[i.val].cur s.sm[i.val].step, s.sm[i.val].tgt, s.sm[i.val].ui,
          s.sm[i.val].rem - 1#32, s.sm[i.val].step⟩
        rsp := some s.sm[i.val].cur }) ∧
    (s.inited = true → 6 < addr.toNat →
      exec (.smStep addr) s = .next { s with flags := s.flags ||| 0b0001#4, rsp := some 0#32 }) ∧
    (s.inited = false →
      exec (.smStep addr) s = .next { s with flags := s.flags ||| 0b0010#4, rsp := some 0#32 })

/-- R127: `SM_GETUI`. -/
def Obligations.SmGetuiResult : Prop :=
  ∀ (s : State) (addr : Byte),
    (∀ i : Param, s.inited = true → addr.toNat = i.val →
      exec (.smGetui addr) s = .next { s with rsp := some s.sm[i.val].ui }) ∧
    (s.inited = true → 6 < addr.toNat →
      exec (.smGetui addr) s = .next { s with flags := s.flags ||| 0b0001#4, rsp := some 0#32 }) ∧
    (s.inited = false →
      exec (.smGetui addr) s = .next { s with flags := s.flags ||| 0b0010#4, rsp := some 0#32 })

/-- R128: `SM_SETUI` writes the UI value and no other field. -/
def Obligations.SmSetuiResult : Prop :=
  ∀ (s : State) (addr : Byte) (v : Word),
    (∀ i : Param, s.inited = true → addr.toNat = i.val → F32.isFinite v = true →
      exec (.smSetui addr v) s = .next { s with
        sm := s.sm.set i.val ⟨s.sm[i.val].cur, s.sm[i.val].tgt, v, s.sm[i.val].rem, s.sm[i.val].step⟩ }) ∧
    (s.inited = true → 6 < addr.toNat ∨ F32.isFinite v = false →
      exec (.smSetui addr v) s = .next { s with flags := s.flags ||| 0b0001#4 }) ∧
    (s.inited = false →
      exec (.smSetui addr v) s = .next { s with flags := s.flags ||| 0b0010#4 })

/-! ### The parameter surface -/

/-- R133, R11: the ranges, as exact numbers and as binary32 images, and the clamp into them. -/
def Obligations.ParameterRanges : Prop :=
  (∀ i : Param, (rangeLo exactNum i, rangeHi exactNum i) =
    #v[((0 : Rat), (1000 : Rat)), (0, 1000), (0, 1000), (0, 10), (0, 100), (-1000, 1000), (9 / 10, 111 / 100)][i.val]) ∧
  (∀ i : Param, (rangeLo binary32 i, rangeHi binary32 i) =
    #v[(0x00000000#32, 0x447A0000#32), (0x00000000#32, 0x447A0000#32), (0x00000000#32, 0x447A0000#32),
      (0x00000000#32, 0x41200000#32), (0x00000000#32, 0x42C80000#32), (0xC47A0000#32, 0x447A0000#32),
      (0x3F666666#32, 0x3F8E147B#32)][i.val]) ∧
  (∀ i : Param, Rounded (rangeLo binary32 i) (rangeLo exactNum i) ∧ Rounded (rangeHi binary32 i) (rangeHi exactNum i)) ∧
  (∀ (i : Param) (v : F32), F32.isFinite v = true →
    (F32.value v < F32.value (rangeLo binary32 i) → clampParam binary32 i v = rangeLo binary32 i) ∧
    (F32.value (rangeHi binary32 i) < F32.value v → clampParam binary32 i v = rangeHi binary32 i) ∧
    (F32.value (rangeLo binary32 i) ≤ F32.value v → F32.value v ≤ F32.value (rangeHi binary32 i) →
      clampParam binary32 i v = v))

/-- R6: every default is finite and inside its parameter's range (how the open values are brought there is the model's
choice, log 6). -/
def Obligations.DefaultsInRange : Prop :=
  ∀ i : Param, F32.isFinite (paramDefault i) = true ∧
    F32.value (rangeLo binary32 i) ≤ F32.value (paramDefault i) ∧
    F32.value (paramDefault i) ≤ F32.value (rangeHi binary32 i)

/-- R134: `P_SETIMM` clamps and sets. -/
def Obligations.PSetimmResult : Prop :=
  ∀ (s : State) (addr : Byte) (v : Word),
    (∀ i : Param, s.inited = true → addr.toNat = i.val → F32.isFinite v = true →
      let c := clampParam binary32 i v
      exec (.pSetimm addr v) s = .next { s with sm := s.sm.set i.val ⟨c, c, c, 0#32, 0#32⟩ }) ∧
    (s.inited = true → 6 < addr.toNat ∨ F32.isFinite v = false →
      exec (.pSetimm addr v) s = .next { s with flags := s.flags ||| 0b0001#4 }) ∧
    (s.inited = false →
      exec (.pSetimm addr v) s = .next { s with flags := s.flags ||| 0b0010#4 })

/-- R135: `P_SET` clamps and writes the UI value alone. -/
def Obligations.PSetResult : Prop :=
  ∀ (s : State) (addr : Byte) (v : Word),
    (∀ i : Param, s.inited = true → addr.toNat = i.val → F32.isFinite v = true →
      exec (.pSet addr v) s = .next { s with
        sm := s.sm.set i.val ⟨s.sm[i.val].cur, s.sm[i.val].tgt, clampParam binary32 i v, s.sm[i.val].rem, s.sm[i.val].step⟩ }) ∧
    (s.inited = true → 6 < addr.toNat ∨ F32.isFinite v = false →
      exec (.pSet addr v) s = .next { s with flags := s.flags ||| 0b0001#4 }) ∧
    (s.inited = false →
      exec (.pSet addr v) s = .next { s with flags := s.flags ||| 0b0010#4 })

/-- R136: `P_GET`. -/
def Obligations.PGetResult : Prop :=
  ∀ (s : State) (addr : Byte),
    (∀ i : Param, s.inited = true → addr.toNat = i.val →
      exec (.pGet addr) s = .next { s with rsp := some s.sm[i.val].ui }) ∧
    (s.inited = true → 6 < addr.toNat →
      exec (.pGet addr) s = .next { s with flags := s.flags ||| 0b0001#4, rsp := some 0#32 }) ∧
    (s.inited = false →
      exec (.pGet addr) s = .next { s with flags := s.flags ||| 0b0010#4, rsp := some 0#32 })

/-- R137: `P_RAMP` clamps the target and ramps to it. -/
def Obligations.PRampResult : Prop :=
  ∀ (s : State) (addr : Byte) (v : Word) (dur : Count),
    (∀ i : Param, s.inited = true → addr.toNat = i.val → F32.isFinite v = true → dur ≠ 0#32 →
      let c := clampParam binary32 i v
      exec (.pRamp addr v dur) s = .next { s with
        sm := s.sm.set i.val ⟨s.sm[i.val].cur, c, c, dur, F32.div (F32.sub c s.sm[i.val].cur) (F32.ofNat dur.toNat)⟩ }) ∧
    (∀ i : Param, s.inited = true → addr.toNat = i.val → F32.isFinite v = true → dur = 0#32 →
      let c := clampParam binary32 i v
      exec (.pRamp addr v dur) s = .next { s with sm := s.sm.set i.val ⟨c, c, c, 0#32, 0#32⟩ }) ∧
    (s.inited = true → 6 < addr.toNat ∨ F32.isFinite v = false →
      exec (.pRamp addr v dur) s = .next { s with flags := s.flags ||| 0b0001#4 }) ∧
    (s.inited = false →
      exec (.pRamp addr v dur) s = .next { s with flags := s.flags ||| 0b0010#4 })

/-- R126: the corner cases of `SmStep`, over any binding of `NUM`: no ramp in flight, the last step, the values of the
calls of one ramp, and their exact values. Call `j + 1` is the one after `j` advances. -/
def Obligations.RampCalls : Prop :=
  (∀ (R : Type) (N : Num R) (m : Smoother R), m.rem = 0#32 → m.advance N = m) ∧
  (∀ (R : Type) (N : Num R) (m : Smoother R), m.rem = 1#32 → (m.advance N).cur = m.tgt) ∧
  (∀ (R : Type) (N : Num R) (m : Smoother R) (t : R) (d : Count) (j : Nat), d ≠ 0#32 →
    let step := N.div (N.sub t m.cur) (N.ofNat d.toNat)
    ((Smoother.advance N)^[j] (m.startRamp N t d)).cur =
      if j < d.toNat then (fun x => N.add x step)^[j] m.cur else t) ∧
  (∀ (m : Smoother Rat) (t : Rat) (d : Count) (j : Nat), j < d.toNat →
    ((Smoother.advance exactNum)^[j] (m.startRamp exactNum t d)).cur = m.cur + j * ((t - m.cur) / d.toNat)) ∧
  (∀ (m : Smoother Rat) (t : Rat) (d : Count) (j : Nat), d ≠ 0#32 →
    let call := fun k => ((Smoother.advance exactNum)^[k] (m.startRamp exactNum t d)).cur
    (m.cur ≤ t → call j ≤ call (j + 1) ∧ m.cur ≤ call j ∧ call j ≤ t) ∧
    (t ≤ m.cur → call (j + 1) ≤ call j ∧ call j ≤ m.cur ∧ t ≤ call j))

/-- R30: S1 and S2, after reset, and as every command keeps or makes them true. -/
def Obligations.SmootherInvariants : Prop :=
  (∀ j : Param, (State.reset.smoother j).cur = (State.reset.smoother j).tgt ∧
    (State.reset.smoother j).ui = (State.reset.smoother j).tgt ∧ (State.reset.smoother j).step = 0#32) ∧
  ∀ (i : Instr) (s t : State), exec i s = .next t →
    (∀ j : Param, ((s.smoother j).rem = 0#32 → (s.smoother j).cur = (s.smoother j).tgt ∧ (s.smoother j).step = 0#32) →
      (t.smoother j).rem = 0#32 → (t.smoother j).cur = (t.smoother j).tgt ∧ (t.smoother j).step = 0#32) ∧
    (∀ j : Param, (s.smoother j).ui = (s.smoother j).tgt →
      (∀ addr v, (i = .smSetui addr v ∨ i = .pSet addr v) → addr.toNat ≠ j.val) →
      (t.smoother j).ui = (t.smoother j).tgt) ∧
    (∀ (j : Param) (addr : Byte) (v dur : Word),
      (i = .smSetimm addr v ∨ i = .smRamp addr v dur ∨ i = .pSetimm addr v ∨ i = .pRamp addr v dur) →
      addr.toNat = j.val → F32.isFinite v = true → s.inited = true → (t.smoother j).ui = (t.smoother j).tgt) ∧
    (∀ j : Param, i = .reset → s.inited = true → (t.smoother j).ui = (t.smoother j).tgt) ∧
    (∀ (j : Param) (chan : Byte) (rate : Word), i = .init chan rate → ¬outOfRange i →
      (t.smoother j).ui = (t.smoother j).tgt)

/-- R138: no command but `SM_SETIMM` and `SM_RAMP` to parameter `j` takes its target out of range, and an accepted
`INIT` or `RESET` puts it in range; under exact `NUM` the current value of a smoother that only the surface and the
blocks touch stays in range as well. -/
def Obligations.SurfaceStaysInRange : Prop :=
  let inRange := fun (s : State) (j : Param) => F32.isFinite (s.smoother j).tgt = true ∧
    F32.value (rangeLo binary32 j) ≤ F32.value (s.smoother j).tgt ∧
    F32.value (s.smoother j).tgt ≤ F32.value (rangeHi binary32 j)
  (∀ (i : Instr) (s t : State) (j : Param), exec i s = .next t →
    (∀ addr v, i = .smSetimm addr v → addr.toNat ≠ j.val) →
    (∀ addr v dur, i = .smRamp addr v dur → addr.toNat ≠ j.val) → inRange s j → inRange t j) ∧
  (∀ (i : Instr) (s t : State) (j : Param), exec i s = .next t →
    ((∃ chan rate, i = .init chan rate) ∧ ¬outOfRange i) ∨ (i = .reset ∧ s.inited = true) → inRange t j) ∧
  (∀ (i : Param) (default : Rat) (ops : List (SurfaceOp Rat)),
    rangeLo exactNum i ≤ default → default ≤ rangeHi exactNum i →
    let m := ops.foldl (SurfaceOp.apply exactNum i) (Smoother.setImm exactNum default)
    (rangeLo exactNum i ≤ m.tgt ∧ m.tgt ≤ rangeHi exactNum i) ∧
      rangeLo exactNum i ≤ m.cur ∧ m.cur ≤ rangeHi exactNum i)

/-- R260: UI writes are silent. Two states that differ in their UI values alone differ, after a step on the same input,
in their UI values and the response alone; and a UI write makes no other difference itself. -/
def Obligations.UiWritesAreSilent : Prop :=
  (∀ s s' t t' : State, s.dropUi = s'.dropUi → step s = .next t → step s' = .next t' → t.dropUi = t'.dropUi) ∧
  (∀ (s t : State) (i : Instr) (addr : Byte) (v : Word), i = .smSetui addr v ∨ i = .pSet addr v →
    s.inited = true → ¬outOfRange i → exec i s = .next t → t.dropUi = s.dropUi)

/-- R34, R39, R45: nothing depends on the channel count, the fresh mark or the flags. -/
def Obligations.UnreadRegisters : Prop :=
  ∀ s s' t t' : State, s.dropUnread = s'.dropUnread → step s = .next t → step s' = .next t' →
    t.dropUnread = t'.dropUnread

/-! ### The note commands -/

/-- R150, R151: `TRIGGER` and its message, of an Off voice and of a sounding one; the level is not written, and a
zero-length attack has slope 0. Velocity 0 is a release; an operand out of range, and an uninitialised block. -/
def Obligations.TriggerResult : Prop :=
  (∀ (s : State) (n : Note) (vel : Velocity) (chan : BitVec 4), s.inited = true → vel ≠ 0#7 →
    let v := s.env[n.toNat]'n.toNat_lt
    let slope := if s.attackSamples = 0#32 then 0#32
      else F32.div (F32.sub 0x3F800000#32 v.level) (F32.ofNat s.attackSamples.toNat)
    let env := s.env.set n.toNat ⟨.attack, v.level, slope, s.attackSamples⟩ n.toNat_lt
    ∀ i ∈ [Instr.trigger (n.setWidth 8) (vel.setWidth 8), Instr.noteOn chan n vel,
        Instr.midi 3#8 (0x9#4 ++ chan) (n.setWidth 8) (vel.setWidth 8)],
      (v.stage = .off → exec i s = .next { s with
        env := env
        al := n :: s.al
        activeCount := s.activeCount + 1#8
        events := s.events ++ [.oscInit n, .oscNote n vel] }) ∧
      (v.stage ≠ .off → exec i s = .next { s with
        env := env
        events := s.events ++ [.oscNote n vel] })) ∧
  (∀ (s : State) (n : Note), exec (.trigger (n.setWidth 8) 0#8) s = exec (.release (n.setWidth 8)) s) ∧
  (∀ (s : State) (note vel : Byte), s.inited = true → 127 < note.toNat ∨ 127 < vel.toNat →
    exec (.trigger note vel) s = .next { s with flags := s.flags ||| 0b0001#4 }) ∧
  (∀ (s : State) (note vel : Byte), s.inited = false →
    exec (.trigger note vel) s = .next { s with flags := s.flags ||| 0b0010#4 })

/-- R155, R156, R157, R158: `RELEASE`, velocity 0 and their messages: the level is not written, nothing is emitted, and
a voice that is Off or in Release is left alone. -/
def Obligations.ReleaseResult : Prop :=
  (∀ (s : State) (n : Note) (x : Byte) (chan : BitVec 4), s.inited = true →
    let v := s.env[n.toNat]'n.toNat_lt
    let slope := if s.releaseSamples = 0#32 then 0#32
      else F32.div (F32.neg v.level) (F32.ofNat s.releaseSamples.toNat)
    ∀ i ∈ [Instr.release (n.setWidth 8), Instr.trigger (n.setWidth 8) 0#8, Instr.noteOff chan n x,
        Instr.noteOn chan n 0#7, Instr.midi 3#8 (0x8#4 ++ chan) (n.setWidth 8) x,
        Instr.midi 3#8 (0x9#4 ++ chan) (n.setWidth 8) 0#8],
      (v.stage = .attack ∨ v.stage = .sustain → exec i s = .next { s with
        env := s.env.set n.toNat ⟨.release, v.level, slope, s.releaseSamples⟩ n.toNat_lt }) ∧
      (v.stage = .off ∨ v.stage = .release → exec i s = .next s)) ∧
  (∀ (s : State) (note : Byte), s.inited = true → 127 < note.toNat →
    exec (.release note) s = .next { s with flags := s.flags ||| 0b0001#4 }) ∧
  (∀ (s : State) (note : Byte), s.inited = false →
    exec (.release note) s = .next { s with flags := s.flags ||| 0b0010#4 })

/-- R160: `ALLOFF` and its message. -/
def Obligations.AllOffResult : Prop :=
  ∀ (s : State) (x : Byte) (chan : BitVec 4),
    ∀ i ∈ [Instr.alloff, Instr.ccAlloff chan x, Instr.midi 3#8 (0xB#4 ++ chan) 123#8 x],
      (s.inited = true → exec i s = .next { s with
        env := Vector.replicate 128 ⟨.off, 0#32, 0#32, 0#32⟩
        al := []
        activeCount := 0#8 }) ∧
      (s.inited = false → exec i s = .next { s with flags := s.flags ||| 0b0010#4 })

/-- R104, R203, R204: what a `MIDI` command word does, by the bits of the message: as the direct command does it, in
every state; anything else is dropped without a flag, and an uninitialised block ignores all of them. -/
def Obligations.MidiEffects : Prop :=
  ∀ (s : State) (len b rsv top : Byte) (val : Word) (m : Message),
    let cnt : Word := top ++ m
    let w : Command := 0x1C#8 ++ len ++ b ++ rsv ++ val ++ cnt
    let off := len = 3#8 ∧ m.extractLsb' 20 4 = 0x8#4 ∧ m.getLsbD 15 = false
    let on := len = 3#8 ∧ m.extractLsb' 20 4 = 0x9#4 ∧ m.getLsbD 15 = false ∧ m.getLsbD 7 = false
    let cc := len = 3#8 ∧ m.extractLsb' 20 4 = 0xB#4 ∧ m.extractLsb' 8 8 = 123#8
    (off → runWord w s = exec (.release (m.extractLsb' 8 8)) s) ∧
    (on → runWord w s = exec (.trigger (m.extractLsb' 8 8) (m.extractLsb' 0 8)) s) ∧
    (cc → runWord w s = exec .alloff s) ∧
    (¬off → ¬on → ¬cc → s.inited = true → runWord w s = .next s ∧
      exec (.midi len (m.extractLsb' 16 8) (m.extractLsb' 8 8) (m.extractLsb' 0 8)) s = .next s) ∧
    (s.inited = false → runWord w s = .next { s with flags := s.flags ||| 0b0010#4 })

/-- R162: every change of a voice's stage has one of the causes of the table. -/
def Obligations.StageTransitions : Prop :=
  ∀ (i : Instr) (s t : State) (n : Note), exec i s = .next t →
    let before := (s.voice n).stage
    let after := (t.voice n).stage
    before ≠ after →
      (after = .attack ∧ t.voice n = (s.voice n).startAttack binary32 s.attackSamples ∧
        ∃ vel : Velocity, vel ≠ 0#7 ∧ (i = .trigger (n.setWidth 8) (vel.setWidth 8) ∨
          (∃ chan, i = .noteOn chan n vel) ∨
          ∃ chan : BitVec 4, i = .midi 3#8 (0x9#4 ++ chan) (n.setWidth 8) (vel.setWidth 8))) ∨
      (after = .release ∧ (before = .attack ∨ before = .sustain) ∧
        (i = .release (n.setWidth 8) ∨ i = .trigger (n.setWidth 8) 0#8 ∨
          (∃ chan x, i = .noteOff chan n x) ∨ (∃ chan, i = .noteOn chan n 0#7) ∨
          (∃ (chan : BitVec 4) (x : Byte), i = .midi 3#8 (0x8#4 ++ chan) (n.setWidth 8) x) ∨
          ∃ chan : BitVec 4, i = .midi 3#8 (0x9#4 ++ chan) (n.setWidth 8) 0#8)) ∨
      (before = .attack ∧ after = .sustain ∧ ∃ frames offset, i = .process frames offset) ∨
      (before = .release ∧ after = .off ∧ ∃ frames offset, i = .process frames offset) ∨
      (after = .off ∧ t.al = [] ∧ (i = .alloff ∨ i = .reset ∨ (∃ chan rate, i = .init chan rate) ∨
        (∃ chan x, i = .ccAlloff chan x) ∨
        ∃ (chan : BitVec 4) (x : Byte), i = .midi 3#8 (0xB#4 ++ chan) 123#8 x))

/-! ### VoiceRun -/

/-- R171: two passes of the loop are all it ever takes, it emits at most `cnt` gains, and the countdown never wraps. -/
def Obligations.VoiceRunBounds : Prop :=
  ∀ (R : Type) (N : Num R) (sw : Switches) (v : Voice R) (cnt passes : Nat),
    Voice.loop N sw (passes + 2) cnt [] v = v.run N sw cnt ∧
    (v.run N sw cnt).gains.length ≤ cnt ∧
    (v.run N sw cnt).voice.ramp.toNat ≤ v.ramp.toNat

/-- R164, R166, R168, R170, R172, R173: what `VoiceRun` emits and leaves, stage by stage, in the block's binding. -/
def Obligations.VoiceRunByStage : Prop :=
  ∀ (v : Voice F32) (cnt : Nat),
    let level := fun (slope from_ : F32) (j : Nat) => (fun x => F32.add x slope)^[j] from_
    let gains := fun (slope from_ : F32) (m : Nat) => (List.range m).map (level slope from_)
    let run := v.run binary32 switches cnt
    (cnt = 0 → run = ⟨[], v, false, false⟩) ∧
    (cnt ≠ 0 → v.stage = .off → run = ⟨[], v, false, true⟩) ∧
    (v.stage = .sustain → run =
      ⟨gains v.slope v.level cnt, ⟨.sustain, level v.slope v.level cnt, v.slope, v.ramp⟩, false, false⟩) ∧
    (v.stage = .attack → cnt < v.ramp.toNat → run =
      ⟨gains v.slope v.level cnt,
        ⟨.attack, level v.slope v.level cnt, v.slope, v.ramp - BitVec.ofNat 32 cnt⟩, false, false⟩) ∧
    (v.stage = .attack → v.ramp ≠ 0#32 → v.ramp.toNat ≤ cnt →
      let top := level v.slope v.level v.ramp.toNat
      let rest := cnt - v.ramp.toNat
      run = ⟨gains v.slope v.level v.ramp.toNat ++ gains 0#32 top rest,
        ⟨.sustain, level 0#32 top rest, 0#32, 0#32⟩, false, false⟩) ∧
    (v.stage = .attack → v.ramp = 0#32 → cnt ≠ 0 → run =
      ⟨List.replicate cnt 0x3F800000#32, ⟨.sustain, 0x3F800000#32, 0#32, 0#32⟩, false, false⟩) ∧
    (v.stage = .release → cnt < v.ramp.toNat → run =
      ⟨gains v.slope v.level cnt,
        ⟨.release, level v.slope v.level cnt, v.slope, v.ramp - BitVec.ofNat 32 cnt⟩, false, false⟩) ∧
    (v.stage = .release → v.ramp ≠ 0#32 → v.ramp.toNat ≤ cnt → run =
      ⟨gains v.slope v.level v.ramp.toNat, ⟨.off, 0#32, 0#32, 0#32⟩, true, false⟩) ∧
    (v.stage = .release → v.ramp = 0#32 → cnt ≠ 0 → run = ⟨[], ⟨.off, 0#32, 0#32, 0#32⟩, true, false⟩)

/-- R169: in Sustain the level does not change and every gain equals it (binary32; the level is finite and not the
negative zero, where `x + 0 = x`). -/
def Obligations.SustainIsConstant : Prop :=
  ∀ (v : Voice F32) (cnt : Nat), v.stage = .sustain → v.slope = 0#32 →
    F32.isFinite v.level = true → v.level ≠ 0x80000000#32 →
    v.run binary32 switches cnt = ⟨List.replicate cnt v.level, v, false, false⟩

/-- A block may be split anywhere without changing a voice's gains or its end (R164; what R257 has the host do). -/
def Obligations.SplitBlock : Prop :=
  ∀ (R : Type) (N : Num R) (sw : Switches) (v : Voice R) (a b : Nat), v.stage ≠ .off →
    let whole := v.run N sw (a + b)
    let first := v.run N sw a
    let second := first.voice.run N sw b
    (first.ended = true → whole = first) ∧
    (first.ended = false → whole = ⟨first.gains ++ second.gains, second.voice, second.ended, second.defect⟩)

/-- R175, which the spec derives, under exact `NUM`: a full attack and a full release, sample by sample; and whatever commands a voice receives
from construction on, in either setting of the switches, its level stays in [0, 1], and so does every gain it emits. -/
def Obligations.ExactTrajectories : Prop :=
  (∀ (v : Voice Rat) (a : Count), a ≠ 0#32 →
    (v.startAttack exactNum a).run exactNum switches a.toNat =
      ⟨(List.range a.toNat).map fun j : Nat => v.level + (j : Rat) * ((1 - v.level) / a.toNat),
        ⟨.sustain, 1, 0, 0#32⟩, false, false⟩) ∧
  (∀ (v : Voice Rat) (b : Count), b ≠ 0#32 → v.stage = .attack ∨ v.stage = .sustain →
    (v.startRelease exactNum b).run exactNum switches b.toNat =
      ⟨(List.range b.toNat).map fun j : Nat => v.level - (j : Rat) * (v.level / b.toNat),
        ⟨.off, 0, 0, 0#32⟩, true, false⟩) ∧
  (∀ (sw : Switches) (ops : List VoiceOp) (cnt : Nat),
    let v := ops.foldl (VoiceOp.apply exactNum sw) ⟨.off, 0, 0, 0#32⟩
    (0 ≤ v.level ∧ v.level ≤ 1) ∧ ∀ g ∈ (v.run exactNum sw cnt).gains, 0 ≤ g ∧ g ≤ 1)

/-! ### Blocks -/

/-- R173, R194, R195, R196, R197: `PROCESS` of a block that fits, and one that does not. The active list has no repeated
element (I2 of R27, which `StepKeepsInvariant` states). -/
def Obligations.ProcessResult : Prop :=
  ∀ (s : State) (frames offset : Count),
    (s.inited = false → exec (.process frames offset) s = .next { s with flags := s.flags ||| 0b0010#4 }) ∧
    (s.inited = true → 2 ^ 32 < offset.toNat + frames.toNat →
      exec (.process frames offset) s = .next { s with flags := s.flags ||| 0b0001#4 }) ∧
    (s.inited = true → offset.toNat + frames.toNat ≤ 2 ^ 32 → s.al.Nodup →
      let run := fun n : Note => (s.voice n).run binary32 switches frames.toNat
      let p : Snapshot := ⟨s.sm[0].cur, s.sm[1].cur, s.sm[2].cur, s.sm[5].cur, s.sm[6].cur⟩
      exec (.process frames offset) s = .next { s with
        env := Vector.ofFn fun k : Fin 128 =>
          if BitVec.ofNat 7 k.val ∈ s.al then (run (BitVec.ofNat 7 k.val)).voice else s.env[k.val]
        sm := s.sm.map (Smoother.advance binary32)
        gp := s.sm.map fun m => m.cur
        al := s.al.filter fun n => !(run n).ended
        activeCount := s.activeCount - BitVec.ofNat 8 (s.al.countP fun n => (run n).ended)
        attackSamples := binary32.toCount (F32.mul s.sm[3].cur s.sampleRate)
        releaseSamples := binary32.toCount (F32.mul s.sm[4].cur s.sampleRate)
        freshReset := false
        flags := if s.al.any (fun n => (run n).defect) then s.flags ||| 0b0100#4 else s.flags
        events := s.events ++ [.blockBegin frames offset] ++
          s.al.flatMap (fun n => [.oscParams n p] ++ (run n).gains.mapIdx (fun k g => .gain n k g) ++
            if (run n).ended then [.oscDestroy n] else []) ++ [.blockEnd] })

/-- R198: with an empty active list steps 1 and 2 are performed and the trace is `BlockBegin`, `BlockEnd`. -/
def Obligations.EmptyBlock : Prop :=
  ∀ (s : State) (frames offset : Count), s.inited = true → s.al = [] → offset.toNat + frames.toNat ≤ 2 ^ 32 →
    exec (.process frames offset) s = .next { s with
      sm := s.sm.map (Smoother.advance binary32)
      gp := s.sm.map fun m => m.cur
      attackSamples := binary32.toCount (F32.mul s.sm[3].cur s.sampleRate)
      releaseSamples := binary32.toCount (F32.mul s.sm[4].cur s.sampleRate)
      freshReset := false
      events := s.events ++ [.blockBegin frames offset, .blockEnd] }

/-- R199: with zero frames the smoothers step, `OscParams` is emitted for each active voice, and no envelope moves; from
every state, whatever its active list holds. -/
def Obligations.ZeroFrameBlock : Prop :=
  ∀ (s : State) (offset : Count), s.inited = true →
    let p : Snapshot := ⟨s.sm[0].cur, s.sm[1].cur, s.sm[2].cur, s.sm[5].cur, s.sm[6].cur⟩
    exec (.process 0#32 offset) s = .next { s with
      sm := s.sm.map (Smoother.advance binary32)
      gp := s.sm.map fun m => m.cur
      attackSamples := binary32.toCount (F32.mul s.sm[3].cur s.sampleRate)
      releaseSamples := binary32.toCount (F32.mul s.sm[4].cur s.sampleRate)
      freshReset := false
      events := s.events ++ [.blockBegin 0#32 offset] ++ s.al.map (fun n => .oscParams n p) ++ [.blockEnd] }

/-- R200: one `PROCESS` performs at most `len(AL) * cnt` per-sample steps, from every state. -/
def Obligations.BlockWorkBound : Prop :=
  ∀ (s t : State) (frames offset : Count), s.events = [] → exec (.process frames offset) s = .next t →
    (t.events.filter fun e => match e with
      | .gain _ _ _ => true
      | _ => false).length ≤ s.al.length * frames.toNat

/-- R27 (I5): a voice in Attack, or in Release, with a countdown of 0 was triggered, or released, while the count was 0,
and no block with a frame leaves one so. -/
def Obligations.PendingZeroLengthRamps : Prop :=
  ∀ (i : Instr) (s t : State), Inv s → exec i s = .next t →
    (∀ n : Note, (t.voice n).stage = .attack → (t.voice n).ramp = 0#32 →
      ((s.voice n).stage = .attack ∧ (s.voice n).ramp = 0#32) ∨
        (s.attackSamples = 0#32 ∧ ∃ vel, isTriggerOf n vel i)) ∧
    (∀ n : Note, (t.voice n).stage = .release → (t.voice n).ramp = 0#32 →
      ((s.voice n).stage = .release ∧ (s.voice n).ramp = 0#32) ∨
        (s.releaseSamples = 0#32 ∧ isReleaseOf n i ∧ ((s.voice n).stage = .attack ∨ (s.voice n).stage = .sustain))) ∧
    (∀ frames offset, i = .process frames offset → frames ≠ 0#32 → s.inited = true → ¬outOfRange i →
      ∀ n : Note, (t.voice n).stage = .attack ∨ (t.voice n).stage = .release → (t.voice n).ramp ≠ 0#32)

/-! ### The environment's datapath (20_memory.md section 4) -/

/-- R75, R76, R77: what each event of a block does to every sample of both channels, and that no other event touches the
buffer; the region is the one the last `BlockBegin` named, whatever events follow it. The canonical form is the model's
(log 16), and the oscillator's sample is a free value (log 13). -/
def Obligations.DatapathEvents : Prop :=
  (∀ w : World, w.buf.wf = true → ∀ ch ∈ [Buffer.left, Buffer.right],
    (∀ (n o : Count) (j : Nat), readSample (ch (w.absorb (.blockBegin n o)).buf) j =
      if o.toNat ≤ j ∧ j < o.toNat + n.toNat then 0#32 else readSample (ch w.buf) j) ∧
    (∀ (note : Note) (k : Nat) (g : F32) (j : Nat), readSample (ch (w.absorb (.gain note k g)).buf) j =
      if j = w.offset.toNat + k
        then F32.add (readSample (ch w.buf) j) (F32.mul (Config.oracle w.draws) g) else readSample (ch w.buf) j) ∧
    (∀ j : Nat, readSample (ch (w.absorb .blockEnd).buf) j =
      if w.offset.toNat ≤ j ∧ j < w.offset.toNat + w.frames.toNat
        then F32.mul (readSample (ch w.buf) j) 0x3F000000#32 else readSample (ch w.buf) j) ∧
    (∀ (n : Note) (vel : Velocity) (p : Snapshot), (w.absorb (.oscInit n)).buf = w.buf ∧
      (w.absorb (.oscNote n vel)).buf = w.buf ∧ (w.absorb (.oscDestroy n)).buf = w.buf ∧
      (w.absorb (.oscParams n p)).buf = w.buf)) ∧
  (∀ (w : World) (n o : Count), (w.absorb (.blockBegin n o)).frames = n ∧ (w.absorb (.blockBegin n o)).offset = o) ∧
  (∀ (w : World) (n : Note) (vel : Velocity) (p : Snapshot) (k : Nat) (g : F32),
    ∀ e ∈ [Event.blockEnd, .gain n k g, .oscInit n, .oscNote n vel, .oscDestroy n, .oscParams n p],
      (w.absorb e).frames = w.frames ∧ (w.absorb e).offset = w.offset)

/-- R74, R78, R206: what each event does to the oscillators and to the parameters one runs with, and the maps of R206 at
their exact points. The model's choices: the values before the first `OscNote` are fresh free values (log 13, log 15), a
destroyed oscillator's record keeps its values (log 25), the events by which the environment knows that a run is over (log
17), and off its exact points a map is free within one part in 2^20 of its formula (log 14). -/
def Obligations.OscillatorParameters : Prop :=
  (∀ (w : World) (n : Note) (p : Snapshot),
    let freq := F32.add (F32.mul (w.oscOf n).baseFreq p.detuneMult) p.detuneOffset
    (w.absorb (.oscParams n p)).running =
      some ⟨n, p.carrier, p.modulator, p.index, binary32.clamp freq 0#32 0x46AC4400#32⟩ ∧
    (w.absorb (.oscParams n p)).frequencyOf n = binary32.clamp freq 0#32 0x46AC4400#32 ∧
    (F32.isFinite freq = true → 0 ≤ F32.value (binary32.clamp freq 0#32 0x46AC4400#32) ∧
      F32.value (binary32.clamp freq 0#32 0x46AC4400#32) ≤ 22050)) ∧
  (∀ (w : World) (n : Note) (vel : Velocity),
    (w.absorb (.oscInit n)).oscOf n = ⟨true, Config.oracle w.draws, Config.oracle (w.draws + 1)⟩ ∧
    (w.absorb (.oscInit n)).draws = w.draws + 2 ∧
    (w.absorb (.oscNote n vel)).oscOf n = ⟨(w.oscOf n).live, baseFreq n, amplitude vel⟩ ∧
    (w.absorb (.oscDestroy n)).oscOf n = ⟨false, (w.oscOf n).baseFreq, (w.oscOf n).amplitude⟩ ∧
    (w.absorb (.oscInit n)).running = w.running ∧ (w.absorb (.oscNote n vel)).running = w.running ∧
    ∀ e ∈ [Event.oscInit n, .oscNote n vel, .oscDestroy n], ∀ m : Note, m ≠ n → (w.absorb e).oscOf m = w.oscOf m) ∧
  (∀ (w : World) (n : Note) (vel : Velocity) (p : Snapshot) (frames offset : Count) (k : Nat) (g : F32),
    (w.absorb .blockEnd).running = none ∧
    (w.absorb (.blockBegin frames offset)).running = w.running ∧
    (k + 1 ≠ w.frames.toNat → (w.absorb (.gain n k g)).running = w.running) ∧
    (k + 1 = w.frames.toNat → (w.absorb (.gain n k g)).frequencyOf n = (w.oscOf n).baseFreq) ∧
    (w.absorb (.oscDestroy n)).frequencyOf n = (w.oscOf n).baseFreq ∧
    (w.absorb .blockEnd).frequencyOf n = (w.oscOf n).baseFreq ∧
    (∀ r, w.running = some r → r.note = n → (w.absorb (.oscDestroy n)).running = none ∧
      (k + 1 = w.frames.toNat → (w.absorb (.gain n k g)).running = none)) ∧
    (∀ r, w.running = some r → r.note ≠ n →
      (w.absorb (.gain n k g)).running = some r ∧ (w.absorb (.oscDestroy n)).running = some r) ∧
    (w.absorb (.gain n k g)).draws = w.draws + 1 ∧
    (∀ e ∈ [Event.blockBegin frames offset, .blockEnd, .gain n k g, .oscParams n p], (w.absorb e).osc = w.osc) ∧
    ∀ e ∈ [Event.blockBegin frames offset, .blockEnd, .oscNote n vel, .oscDestroy n, .oscParams n p],
      (w.absorb e).draws = w.draws) ∧
  (∀ s t : State, s.world.running = none → step s = .next t →
    t.world.running = none ∧ ∀ n : Note, t.world.frequencyOf n = (t.world.oscOf n).baseFreq) ∧
  (F32.value (baseFreq 57#7) = 220 ∧ F32.value (baseFreq 69#7) = 440 ∧ F32.value (baseFreq 81#7) = 880 ∧
    F32.value (amplitude 127#7) = 1) ∧
  (∀ n : Note, F32.isFinite (baseFreq n) = true ∧
    |440 * (2 : Real) ^ (((n.toNat : Real) - 69) / 12) - (F32.value (baseFreq n) : Real)| ≤
      (F32.value (baseFreq n) : Real) / 2 ^ 20) ∧
  (∀ v : Velocity, F32.isFinite (amplitude v) = true ∧
    |((v.toNat : Rat) / 127) ^ 2 - F32.value (amplitude v)| ≤ F32.value (amplitude v) / 2 ^ 20)

/-- R61: a step touches no frame outside the block's region, in either channel; and a step on any other command than
`PROCESS` touches none at all. -/
def Obligations.OutputRegion : Prop :=
  ∀ (s t : State) (w : Command) (rest : List HostInput), s.world.buf.wf = true →
    s.host = .cmd w :: rest → step s = .next t →
    ((∀ frames offset, decode w ≠ .instr (.process frames offset)) → t.world.buf = s.world.buf) ∧
    (∀ frames offset, decode w = .instr (.process frames offset) →
      ∀ ch ∈ [Buffer.left, Buffer.right], ∀ j : Nat,
        j < offset.toNat ∨ offset.toNat + frames.toNat ≤ j →
        readSample (ch t.world.buf) j = readSample (ch s.world.buf) j)

/-- R76: after a block that ran, both channels hold the same samples in its region. -/
def Obligations.StereoDoubled : Prop :=
  ∀ (s t : State) (w : Command) (rest : List HostInput) (frames offset : Count), s.world.buf.wf = true →
    s.inited = true → s.host = .cmd w :: rest → decode w = .instr (.process frames offset) →
    offset.toNat + frames.toNat ≤ 2 ^ 32 → step s = .next t →
    ∀ j : Nat, offset.toNat ≤ j → j < offset.toNat + frames.toNat →
      readSample t.world.buf.left j = readSample t.world.buf.right j

/-- R79: with an empty active list a block leaves every touched sample 0. -/
def Obligations.EmptyBlockIsSilent : Prop :=
  ∀ (s : State) (w : Command) (rest : List HostInput) (frames offset : Count), s.world.buf.wf = true →
    s.inited = true → s.al = [] → s.host = .cmd w :: rest → decode w = .instr (.process frames offset) →
    offset.toNat + frames.toNat ≤ 2 ^ 32 →
    ∃ t, step s = .next t ∧ t.events = [.blockBegin frames offset, .blockEnd] ∧
      ∀ j : Nat, offset.toNat ≤ j → j < offset.toNat + frames.toNat →
        readSample t.world.buf.left j = 0#32 ∧ readSample t.world.buf.right j = 0#32

/-! ### NUM -/

/-- R7 (G1): each operation of the block's binding is the exact result rounded to nearest, ties to even. That a result
of magnitude `(2^25 - 1) * 2^103` or more is the infinity of its sign is IEEE 754's, presumed (log 9, U6). -/
def Obligations.OperationsRounded : Prop :=
  (∀ a b : F32, F32.isFinite a = true → F32.isFinite b = true →
    Rounded (F32.add a b) (F32.value a + F32.value b) ∧
    Rounded (F32.sub a b) (F32.value a - F32.value b) ∧
    Rounded (F32.mul a b) (F32.value a * F32.value b) ∧
    (F32.value b ≠ 0 → Rounded (F32.div a b) (F32.value a / F32.value b)) ∧
    F32.isFinite (F32.neg a) = true ∧ F32.value (F32.neg a) = -F32.value a) ∧
  (∀ n : Nat, Rounded (F32.ofNat n) n) ∧
  (∀ (n : Int) (d : Nat), 0 < d → Rounded (F32.lit n d) (n / d))

/-- R7, R11: `lt` is the order of the values on finite operands, both zeros equal; and `clamp`. -/
def Obligations.OrderAndClamp : Prop :=
  (∀ a b : F32, F32.isFinite a = true → F32.isFinite b = true →
    (F32.lt a b = true ↔ F32.value a < F32.value b)) ∧
  (∀ v lo hi : F32, F32.isFinite v = true → F32.isFinite lo = true → F32.isFinite hi = true →
    F32.value lo ≤ F32.value hi →
    (F32.value v < F32.value lo → binary32.clamp v lo hi = lo) ∧
    (F32.value hi < F32.value v → binary32.clamp v lo hi = hi) ∧
    (F32.value lo ≤ F32.value v → F32.value v ≤ F32.value hi → binary32.clamp v lo hi = v))

/-- R10: `toCount`, under both bindings: 0 for what is not finite or not positive, else the nearest integer, a tie going
up, saturated at `2^32 - 1`. -/
def Obligations.ToCountRounds : Prop :=
  (∀ x : F32, F32.isFinite x = false → binary32.toCount x = 0#32) ∧
  (∀ x : F32, F32.isFinite x = true → F32.value x ≤ 0 → binary32.toCount x = 0#32) ∧
  (∀ x : F32, F32.isFinite x = true → 0 < F32.value x →
    ((binary32.toCount x).toNat : Int) = min ⌊F32.value x + 1 / 2⌋ (2 ^ 32 - 1)) ∧
  (∀ x : Rat, x ≤ 0 → exactNum.toCount x = 0#32) ∧
  (∀ x : Rat, 0 < x → ((exactNum.toCount x).toNat : Int) = min ⌊x + 1 / 2⌋ (2 ^ 32 - 1))

/-- R225: the divisor of each of the block's three divisions, `ofNat` of a nonzero count, is a positive finite number. -/
def Obligations.DivisorsArePositive : Prop :=
  ∀ c : Count, c ≠ 0#32 → F32.isFinite (F32.ofNat c.toNat) = true ∧ 0 < F32.value (F32.ofNat c.toNat)

end
end

