-- ==== Sys2Proof/Laws/Rounding.lean ====
section
/-! SUPPORT. Rounding of binary32: magnitudes and units are two faces of one number, and `roundUnits` is the nearest
magnitude, ties to even (R7). -/

namespace Sys2Proof.F32

/-! ### Magnitudes and units -/

theorem unitsOfMag_small {m : Nat} (h : m < 2 ^ 24) : unitsOfMag m = m := by
  unfold unitsOfMag
  split
  · rfl
  · have : m / 2 ^ 23 = 1 := by omega
    rw [this]; omega

/-- A magnitude from its exponent field less one and its significand. -/
theorem unitsOfMag_normal {k n : Nat} (h1 : 2 ^ 23 ≤ n) (h2 : n < 2 ^ 24) :
    unitsOfMag (k * 2 ^ 23 + n) = n * 2 ^ k := by
  have hd : (k * 2 ^ 23 + n) / 2 ^ 23 = k + 1 := by omega
  have hm : (k * 2 ^ 23 + n) % 2 ^ 23 = n - 2 ^ 23 := by omega
  unfold unitsOfMag
  rw [hd, hm, if_neg (by omega), Nat.add_sub_cancel, Nat.add_sub_cancel' h1]

theorem excess_of_lt {n : Nat} (h : n < 2 ^ 24) : excess n = 0 := if_pos h

/-- The excess of a number with a 24-bit significand scaled by `2 ^ k`. -/
theorem excess_normal {k n : Nat} (h1 : 2 ^ 23 ≤ n) (h2 : n < 2 ^ 24) : excess (n * 2 ^ k) = k := by
  unfold excess
  have hp : 0 < 2 ^ k := Nat.two_pow_pos k
  have hlog : (n * 2 ^ k).log2 = 23 + k := by
    rw [Nat.log2_eq_iff (by positivity)]
    constructor
    · rw [Nat.pow_add]; exact Nat.mul_le_mul_right _ h1
    · rw [show 23 + k + 1 = 24 + k by omega, Nat.pow_add]; exact Nat.mul_lt_mul_of_pos_right h2 hp
  split
  · rename_i h
    rcases Nat.eq_zero_or_pos k with hk | hk
    · exact hk.symm
    · have : 2 ≤ 2 ^ k := by
        calc 2 = 2 ^ 1 := rfl
          _ ≤ 2 ^ k := Nat.pow_le_pow_right (by decide) hk
      have : 2 ^ 23 * 2 ≤ n * 2 ^ k := Nat.mul_le_mul h1 this
      omega
  · rw [hlog]; omega

/-- A number of units is below the excess's binade. -/
theorem pow_excess_le {n : Nat} (h : 2 ^ 24 ≤ n) : 2 ^ (23 + excess n) ≤ n ∧ n < 2 ^ (24 + excess n) := by
  have hn : n ≠ 0 := by omega
  have hl := (Nat.log2_eq_iff hn).1 (rfl : n.log2 = n.log2)
  have h24 : 24 ≤ n.log2 := (Nat.le_log2 hn).2 h
  simp only [excess, if_neg (not_lt.2 h)]
  rw [show 23 + (n.log2 - 23) = n.log2 by omega, show 24 + (n.log2 - 23) = n.log2 + 1 by omega]
  exact hl

/-- The numbers of units a 24-bit significand holds. -/
def Holds (u : Nat) : Prop := 2 ^ excess u ∣ u

theorem holds_iff (u : Nat) :
    Holds u ↔ u < 2 ^ 24 ∨ ∃ k n, 2 ^ 23 ≤ n ∧ n < 2 ^ 24 ∧ u = n * 2 ^ k := by
  constructor
  · intro h
    by_cases hu : u < 2 ^ 24
    · exact .inl hu
    · obtain ⟨n, hn⟩ := h
      obtain ⟨h1, h2⟩ := pow_excess_le (not_lt.1 hu)
      refine .inr ⟨excess u, n, ?_, ?_, by rw [Nat.mul_comm]; exact hn⟩
      · have : 2 ^ 23 * 2 ^ excess u ≤ n * 2 ^ excess u := by
          rw [← Nat.pow_add, Nat.mul_comm n, ← hn]; exact h1
        exact Nat.le_of_mul_le_mul_right this (Nat.two_pow_pos _)
      · have : n * 2 ^ excess u < 2 ^ 24 * 2 ^ excess u := by
          rw [← Nat.pow_add, Nat.mul_comm n, ← hn]; exact h2
        exact Nat.lt_of_mul_lt_mul_right this
  · rintro (h | ⟨k, n, h1, h2, rfl⟩)
    · simp [Holds, excess_of_lt h]
    · rw [Holds, excess_normal h1 h2]; exact ⟨n, Nat.mul_comm _ _⟩

/-- Packing a magnitude that a significand holds loses nothing. -/
theorem unitsOfMag_packMag {u : Nat} (h : Holds u) (hk : excess u ≤ 253) : unitsOfMag (packMag u) = u := by
  have hp : packMag u = excess u * 2 ^ 23 + u / 2 ^ excess u := by simp [packMag, not_lt.2 hk]
  rw [hp]
  rcases (holds_iff u).1 h with h | ⟨k, n, h1, h2, rfl⟩
  · rw [excess_of_lt h]; simpa using unitsOfMag_small h
  · rw [excess_normal h1 h2, Nat.mul_div_cancel _ (Nat.two_pow_pos k), unitsOfMag_normal h1 h2]

theorem packMag_lt {u : Nat} (hk : excess u ≤ 253) : packMag u < infMag := by
  have hp : packMag u = excess u * 2 ^ 23 + u / 2 ^ excess u := by simp [packMag, not_lt.2 hk]
  have hq : u / 2 ^ excess u < 2 ^ 24 := by
    rw [Nat.div_lt_iff_lt_mul (Nat.two_pow_pos _), ← Nat.pow_add]
    by_cases hu : u < 2 ^ 24
    · rw [excess_of_lt hu]; exact hu
    · exact (pow_excess_le (not_lt.1 hu)).2
  rw [hp, infMag]; omega

theorem packMag_le (u : Nat) : packMag u ≤ infMag := by
  by_cases h : excess u ≤ 253
  · exact (packMag_lt h).le
  · exact (if_pos (not_le.1 h)).le

/-- A finite magnitude is the packing of its units. -/
theorem packMag_unitsOfMag {m : Nat} (h : m < infMag) : packMag (unitsOfMag m) = m := by
  by_cases hs : m < 2 ^ 24
  · rw [unitsOfMag_small hs, packMag, excess_of_lt hs]; simp
  · obtain ⟨k, n, h1, h2, rfl⟩ : ∃ k n, 2 ^ 23 ≤ n ∧ n < 2 ^ 24 ∧ m = k * 2 ^ 23 + n :=
      ⟨m / 2 ^ 23 - 1, m % 2 ^ 23 + 2 ^ 23, by omega, by omega, by omega⟩
    rw [unitsOfMag_normal h1 h2, packMag, excess_normal h1 h2, Nat.mul_div_cancel _ (Nat.two_pow_pos k)]
    rw [infMag] at h
    rw [if_neg (by omega)]

theorem holds_unitsOfMag (m : Nat) : Holds (unitsOfMag m) := by
  by_cases hs : m < 2 ^ 24
  · rw [unitsOfMag_small hs]; exact (holds_iff _).2 (.inl hs)
  · obtain ⟨k, n, h1, h2, rfl⟩ : ∃ k n, 2 ^ 23 ≤ n ∧ n < 2 ^ 24 ∧ m = k * 2 ^ 23 + n :=
      ⟨m / 2 ^ 23 - 1, m % 2 ^ 23 + 2 ^ 23, by omega, by omega, by omega⟩
    rw [unitsOfMag_normal h1 h2]
    exact (holds_iff _).2 (.inr ⟨k, n, h1, h2, rfl⟩)

/-! ### Rounding to an integer, ties to even -/

theorem roundEven_le (p q : Nat) : p / q ≤ roundEven p q := by
  unfold roundEven; split_ifs <;> omega

theorem roundEven_le_succ (p q : Nat) : roundEven p q ≤ p / q + 1 := by
  unfold roundEven; split_ifs <;> omega

/-- No integer is nearer to `p / q`, and an equally near one leaves an even result. -/
theorem roundEven_nearest {p q : Nat} (hq : 0 < q) (z : Int) :
    |(roundEven p q : Int) * q - p| ≤ |z * q - p| ∧
      (|(roundEven p q : Int) * q - p| = |z * q - p| → z = roundEven p q ∨ roundEven p q % 2 = 0) := by
  have hd : (p : Int) = (p / q : Nat) * q + (p % q : Nat) := by
    have h : ((q * (p / q) + p % q : Nat) : Int) = p := by rw [Nat.div_add_mod]
    rw [← h]; push_cast; ring
  have hr : p % q < q := Nat.mod_lt _ hq
  obtain ⟨e, rfl⟩ : ∃ e : Int, z = (p / q : Nat) + e := ⟨z - (p / q : Nat), by ring⟩
  have he : e * q ≤ -q ∨ (e = 0 ∧ e * q = 0) ∨ (e = 1 ∧ e * q = q) ∨ 2 * (q : Int) ≤ e * q := by
    rcases lt_trichotomy e 0 with h | h | h
    · left; nlinarith
    · right; left; simp [h]
    · rcases eq_or_lt_of_le (show 1 ≤ e by omega) with h1 | h1
      · right; right; left; simp [← h1]
      · right; right; right; nlinarith
  have e1 : ((p / q : Nat) : Int) * q - p = -(p % q : Nat) := by rw [hd]; ring
  have e2 : ((p / q : Nat) + e : Int) * q - p = e * q - (p % q : Nat) := by
    rw [show ((p / q : Nat) + e : Int) * q - p = ((p / q : Nat) * q - p) + e * q by ring, e1]; ring
  have e3 : ((p / q + 1 : Nat) : Int) * q - p = q - (p % q : Nat) := by
    rw [show ((p / q + 1 : Nat) : Int) * q - p = ((p / q : Nat) * q - p) + q by push_cast; ring, e1]; ring
  rw [e2]
  generalize e * (q : Int) = y at *
  unfold roundEven
  split_ifs with h1 h2 h3
  all_goals first | rw [e1] | rw [e3]
  all_goals
    rcases abs_cases (y - ((p % q : Nat) : Int)) with ⟨ha, hb⟩ | ⟨ha, hb⟩ <;> rw [ha]
  all_goals first
    | rw [abs_neg, abs_of_nonneg (by omega)]
    | rw [abs_of_nonneg (by omega)]
  all_goals omega

/-! ### Rounding to a magnitude -/

/-- The significand before rounding: the quotient at the excess's scale. -/
theorem scaled_quotient (p q : Nat) :
    p / (q * 2 ^ excess (p / q)) < 2 ^ 24 ∧
      (2 ^ 24 ≤ p / q → 2 ^ 23 ≤ p / (q * 2 ^ excess (p / q))) := by
  rw [← Nat.div_div_eq_div_mul]
  generalize p / q = n
  constructor
  · rw [Nat.div_lt_iff_lt_mul (Nat.two_pow_pos _), ← Nat.pow_add]
    by_cases h : n < 2 ^ 24
    · rw [excess_of_lt h]; exact h
    · exact (pow_excess_le (not_lt.1 h)).2
  · intro h
    rw [Nat.le_div_iff_mul_le (Nat.two_pow_pos _), ← Nat.pow_add]
    exact (pow_excess_le h).1

/-- The significand after rounding, in the two cases of the scale. -/
theorem rounded_significand (p q : Nat) :
    roundEven p (q * 2 ^ excess (p / q)) ≤ 2 ^ 24 ∧
      (excess (p / q) = 0 ∨ 2 ^ 23 ≤ roundEven p (q * 2 ^ excess (p / q))) := by
  obtain ⟨h1, h2⟩ := scaled_quotient p q
  have h3 := roundEven_le p (q * 2 ^ excess (p / q))
  have h4 := roundEven_le_succ p (q * 2 ^ excess (p / q))
  refine ⟨by omega, ?_⟩
  by_cases h : p / q < 2 ^ 24
  · exact .inl (excess_of_lt h)
  · exact .inr (le_trans (h2 (not_lt.1 h)) h3)

/-- What a rounding of at most 24 bits packs to, and that a significand holds it. -/
theorem holds_rounded {k n : Nat} (h1 : n ≤ 2 ^ 24) (h2 : k = 0 ∨ 2 ^ 23 ≤ n) :
    Holds (n * 2 ^ k) ∧ (n % 2 = 0 → packMag (n * 2 ^ k) % 2 = 0) := by
  rcases eq_or_lt_of_le h1 with rfl | h
  · have e : 2 ^ 24 * 2 ^ k = 2 ^ 23 * 2 ^ (k + 1) := by ring
    rw [e]
    refine ⟨(holds_iff _).2 (.inr ⟨k + 1, 2 ^ 23, by decide, by decide, rfl⟩), fun _ => ?_⟩
    rw [packMag, excess_normal (by decide) (by decide), Nat.mul_div_cancel _ (Nat.two_pow_pos _)]
    split <;> [rfl; omega]
  · by_cases h3 : 2 ^ 23 ≤ n
    · refine ⟨(holds_iff _).2 (.inr ⟨k, n, h3, h, rfl⟩), fun hn => ?_⟩
      rw [packMag, excess_normal h3 h, Nat.mul_div_cancel _ (Nat.two_pow_pos _)]
      split <;> [rfl; omega]
    · obtain rfl : k = 0 := by omega
      refine ⟨(holds_iff _).2 (.inl (by simpa using h)), fun hn => ?_⟩
      rw [Nat.pow_zero, Nat.mul_one, packMag, excess_of_lt h]
      simpa using hn

theorem holds_roundUnits (p q : Nat) : Holds (roundUnits p q) :=
  (holds_rounded (rounded_significand p q).1 (rounded_significand p q).2).1

/-- No magnitude is nearer to `p / q` units than the rounded one, and an equally near one leaves an even field. -/
theorem roundUnits_nearest {p q : Nat} (hq : 0 < q) (m : Nat) :
    |(roundUnits p q : Int) * q - p| ≤ |(unitsOfMag m : Int) * q - p| ∧
      (|(roundUnits p q : Int) * q - p| = |(unitsOfMag m : Int) * q - p| →
        unitsOfMag m = roundUnits p q ∨ packMag (roundUnits p q) % 2 = 0) := by
  have hz := holds_unitsOfMag m
  generalize unitsOfMag m = z at *
  obtain ⟨hn, hk⟩ := rounded_significand p q
  have hpar := (holds_rounded hn hk).2
  have hsc := scaled_quotient p q
  have hQ : 0 < q * 2 ^ excess (p / q) := Nat.mul_pos hq (Nat.two_pow_pos _)
  have near := fun x : Int => roundEven_nearest (p := p) hQ x
  have key : ∀ a : Int, a * (q * 2 ^ excess (p / q) : Nat) - p = (a * 2 ^ excess (p / q)) * q - p := by
    intro a; push_cast; ring
  simp only [key] at near
  have hr : (roundUnits p q : Int) = (roundEven p (q * 2 ^ excess (p / q)) : Int) * 2 ^ excess (p / q) := by
    simp [roundUnits]
  rw [hr]
  by_cases hd : 2 ^ excess (p / q) ∣ z
  · obtain ⟨c, hc⟩ := hd
    have hzc : (z : Int) = (c : Int) * 2 ^ excess (p / q) := by rw [hc]; push_cast; ring
    rw [hzc]
    refine ⟨(near c).1, fun he => ?_⟩
    rcases (near c).2 he with h | h
    · left
      rw [roundUnits, ← Int.natCast_inj.1 h, hc, Nat.mul_comm]
    · exact .inr (hpar h)
  · -- a finer magnitude lies below the binade of `p / q`
    have hbig : 2 ^ 24 ≤ p / q := by
      by_contra h
      exact hd (by rw [excess_of_lt (not_le.1 h)]; simp)
    have hlt : z < 2 ^ (23 + excess (p / q)) := by
      by_contra h
      apply hd
      have hz24 : ¬ z < 2 ^ 24 ∨ excess (p / q) = 0 := by
        by_cases h0 : excess (p / q) = 0
        · exact .inr h0
        · left
          have : 2 ^ 24 ≤ 2 ^ (23 + excess (p / q)) := Nat.pow_le_pow_right (by decide) (by omega)
          omega
      rcases hz24 with hz24 | h0
      · have hle : excess (p / q) ≤ excess z := by
          have h2 := (pow_excess_le (not_lt.1 hz24)).2
          have : 2 ^ (23 + excess (p / q)) < 2 ^ (24 + excess z) := lt_of_le_of_lt (not_lt.1 h) h2
          have := (Nat.pow_lt_pow_iff_right (by decide : 1 < 2)).1 this
          omega
        exact (Nat.pow_dvd_pow 2 hle).trans hz
      · rw [h0]; simp
    have hge : 2 ^ (23 + excess (p / q)) * q ≤ p := by
      have := (pow_excess_le hbig).1
      calc _ ≤ p / q * q := Nat.mul_le_mul_right _ this
        _ ≤ p := Nat.div_mul_le_self p q
    have hstrict : |((2 ^ 23 : Int) * 2 ^ excess (p / q)) * q - p| < |(z : Int) * q - p| := by
      have a1 : ((2 ^ 23 : Int) * 2 ^ excess (p / q)) * q ≤ p := by
        have := (Int.ofNat_le.2 hge); push_cast at this; rw [pow_add] at this; exact this
      have a2 : (z : Int) * q < ((2 ^ 23 : Int) * 2 ^ excess (p / q)) * q := by
        have h1 : (z : Int) < (2 ^ 23 : Int) * 2 ^ excess (p / q) := by
          have := Int.ofNat_lt.2 hlt; push_cast at this; rw [pow_add] at this; exact this
        exact mul_lt_mul_of_pos_right h1 (by exact_mod_cast hq)
      rw [abs_of_nonpos (by omega), abs_of_nonpos (by omega)]
      omega
    have := (near (2 ^ 23)).1
    exact ⟨le_of_lt (lt_of_le_of_lt this hstrict), fun he => absurd he (ne_of_lt (lt_of_le_of_lt this hstrict))⟩

/-- A number of units that a significand holds is not rounded. -/
theorem roundUnits_of_holds {u : Nat} (h : Holds u) : roundUnits u 1 = u := by
  unfold roundUnits
  rw [Nat.div_one, one_mul]
  have hp := Nat.two_pow_pos (excess u)
  have h0 : u % 2 ^ excess u = 0 := Nat.mod_eq_zero_of_dvd h
  rw [roundEven, h0, if_pos (by omega)]
  exact Nat.div_mul_cancel h

end Sys2Proof.F32
end

