-- ==== Sys2Proof/Laws/Binary32.lean ====
section
/-! SUPPORT. Binary32 images: sign, magnitude, value, and what rounding and addition give on finite operands (R7). -/

namespace Sys2Proof.F32

/-! ### Images -/

theorem mag_lt (x : F32) : mag x < 2 ^ 31 := Nat.mod_lt _ (by decide)

theorem sign_eq (x : F32) : sign x = decide (2 ^ 31 ≤ x.toNat) := by
  rw [sign, BitVec.msb_eq_decide]

@[simp] theorem sign_ofBits (s : Bool) {m : Nat} (h : m < 2 ^ 31) : sign (ofBits s m) = s := by
  rw [sign_eq, ofBits, BitVec.toNat_ofNat]
  cases s <;> simp <;> omega

@[simp] theorem mag_ofBits (s : Bool) {m : Nat} (h : m < 2 ^ 31) : mag (ofBits s m) = m := by
  rw [mag, ofBits, BitVec.toNat_ofNat]
  cases s <;> simp <;> omega

/-- An image is its sign and magnitude. -/
theorem ofBits_sign_mag (x : F32) : ofBits (sign x) (mag x) = x := by
  apply BitVec.eq_of_toNat_eq
  have := x.isLt
  rw [sign_eq, mag, ofBits, BitVec.toNat_ofNat]
  by_cases h : 2 ^ 31 ≤ x.toNat
  · rw [decide_eq_true h, if_pos rfl]; omega
  · rw [decide_eq_false h, if_neg (by decide)]; omega

theorem isFinite_iff (x : F32) : isFinite x = true ↔ mag x < infMag := by simp [isFinite]

theorem isNan_of_isFinite {x : F32} (h : isFinite x = true) : isNan x = false := by
  have := (isFinite_iff x).1 h
  simp [isNan]; omega

theorem isInf_of_isFinite {x : F32} (h : isFinite x = true) : isInf x = false := by
  have := (isFinite_iff x).1 h
  simp [isInf]; omega

theorem exact_ofBits (s : Bool) {m : Nat} (h : m < 2 ^ 31) :
    exact (ofBits s m) = if s then -(unitsOfMag m : Int) else unitsOfMag m := by
  rw [exact, units, sign_ofBits s h, mag_ofBits s h]

/-- The value of a rounded result. -/
theorem exact_round {s : Bool} {p q : Nat} (h : isFinite (round s p q) = true) :
    exact (round s p q) = if s then -(roundUnits p q : Int) else roundUnits p q := by
  have hle : packMag (roundUnits p q) < 2 ^ 31 := lt_of_le_of_lt (packMag_le _) (by decide)
  rw [isFinite_iff, round, mag_ofBits s hle] at h
  have hk : excess (roundUnits p q) ≤ 253 := by
    by_contra hk
    rw [packMag, if_pos (not_le.1 hk)] at h
    exact absurd h (lt_irrefl _)
  rw [round, exact_ofBits s hle, unitsOfMag_packMag (holds_roundUnits p q) hk]

theorem mag_round (s : Bool) (p q : Nat) : mag (round s p q) = packMag (roundUnits p q) := by
  rw [round, mag_ofBits s (lt_of_le_of_lt (packMag_le _) (by decide))]

/-- A rounded result that is not finite is the infinity of its sign. -/
theorem mag_round_of_not_finite {s : Bool} {p q : Nat} (h : isFinite (round s p q) = false) :
    mag (round s p q) = infMag := by
  rw [isFinite, decide_eq_false_iff_not, mag_round] at h
  rw [mag_round]
  exact le_antisymm (packMag_le _) (not_lt.1 h)

theorem sign_round (s : Bool) (p q : Nat) : sign (round s p q) = s :=
  sign_ofBits s (lt_of_le_of_lt (packMag_le _) (by decide))

theorem excess_lt_iff {u k : Nat} (hk : 0 < k) : excess u < k ↔ u < 2 ^ (23 + k) := by
  by_cases h : u < 2 ^ 24
  · rw [excess_of_lt h]
    have : 2 ^ 24 ≤ 2 ^ (23 + k) := Nat.pow_le_pow_right (by decide) (by omega)
    omega
  · obtain ⟨h1, h2⟩ := pow_excess_le (not_lt.1 h)
    constructor
    · intro hx
      exact lt_of_lt_of_le h2 (Nat.pow_le_pow_right (by decide) (by omega))
    · intro hx
      have := (Nat.pow_lt_pow_iff_right (by decide : 1 < 2)).1 (lt_of_le_of_lt h1 hx)
      omega

/-- When a rounded number of units stays below a power of two. -/
theorem roundUnits_lt {p q j : Nat} (hq : 0 < q) (hj : 0 < j) :
    roundUnits p q < 2 ^ (24 + j) ↔ 2 * p < (2 ^ 25 - 1) * (q * 2 ^ j) := by
  have hpj : 0 < 2 ^ j := Nat.two_pow_pos j
  obtain ⟨hn, hk⟩ := rounded_significand p q
  have hsc := (scaled_quotient p q).1
  have hlt : excess (p / q) < j ↔ p / q < 2 ^ (23 + j) := excess_lt_iff hj
  rcases lt_trichotomy (excess (p / q)) j with h | h | h
  · refine iff_of_true ?_ ?_
    · calc roundUnits p q ≤ 2 ^ 24 * 2 ^ excess (p / q) := Nat.mul_le_mul_right _ hn
        _ < 2 ^ 24 * 2 ^ j := Nat.mul_lt_mul_of_pos_left (Nat.pow_lt_pow_right (by decide) h) (by decide)
        _ = 2 ^ (24 + j) := (Nat.pow_add 2 24 j).symm
    · have h1 : p < 2 ^ (23 + j) * q := (Nat.div_lt_iff_lt_mul hq).1 (hlt.1 h)
      have h2 : 2 ^ (23 + j) * q = 2 ^ 23 * (q * 2 ^ j) := by rw [Nat.pow_add]; ring
      rw [h2] at h1
      omega
  · have e1 : roundUnits p q < 2 ^ (24 + j) ↔ roundEven p (q * 2 ^ j) < 2 ^ 24 := by
      rw [roundUnits, h, Nat.pow_add]
      exact Nat.mul_lt_mul_right hpj
    rw [h] at hsc
    rw [e1]
    have hQ : 0 < q * 2 ^ j := Nat.mul_pos hq hpj
    have hdm := Nat.div_add_mod p (q * 2 ^ j)
    have hmod := Nat.mod_lt p hQ
    unfold roundEven
    clear e1 hlt hn hk h
    generalize q * 2 ^ j = Q at *
    generalize p % Q = r at *
    have hnl : p / Q ≤ 16777214 ∨ p / Q = 16777215 := by omega
    rcases hnl with hnl | hnl
    · have : Q * (p / Q) ≤ Q * 16777214 := Nat.mul_le_mul_left Q (by omega)
      split_ifs <;> omega
    · rw [hnl] at hdm ⊢
      have hr2 : 2 * r < Q ↔ 2 * p < (2 ^ 25 - 1) * Q := by
        rw [← hdm, show 2 ^ 25 - 1 = 33554431 by norm_num]
        constructor <;> intro h <;> linarith
      rw [← hr2]
      by_cases h1 : 2 * r < Q
      · simp [h1]
      · simp [h1]
  · have h23 : 2 ^ 23 ≤ roundEven p (q * 2 ^ excess (p / q)) := by omega
    refine iff_of_false (not_lt.2 ?_) (not_lt.2 ?_)
    · calc 2 ^ (24 + j) = 2 ^ 23 * 2 ^ (j + 1) := by rw [← Nat.pow_add]; congr 1; omega
        _ ≤ roundUnits p q := Nat.mul_le_mul h23 (Nat.pow_le_pow_right (by decide) h)
    · have h1 : 2 ^ (23 + (j + 1)) ≤ p / q := by
        rw [← not_lt, ← excess_lt_iff (by omega)]; omega
      have h2 : 2 ^ (23 + (j + 1)) * q ≤ p := (Nat.le_div_iff_mul_le hq).1 h1
      have h3 : 2 ^ (23 + (j + 1)) * q = 2 ^ 24 * (q * 2 ^ j) := by
        rw [show 23 + (j + 1) = 24 + j by omega, Nat.pow_add]; ring
      rw [h3] at h2
      omega

/-- When a rounded result is finite: the exact one lies below the middle between the largest finite magnitude and the
next power of two. -/
theorem isFinite_round (s : Bool) {p q : Nat} (hq : 0 < q) :
    isFinite (round s p q) = true ↔ 2 * p < (2 ^ 25 - 1) * (q * 2 ^ 253) := by
  rw [← roundUnits_lt hq (by decide), isFinite_iff, mag_round, show 24 + 253 = 23 + 254 from rfl,
    ← excess_lt_iff (by decide)]
  constructor
  · intro h
    by_contra hk
    rw [packMag, if_pos (by omega)] at h
    exact absurd h (lt_irrefl _)
  · intro h; exact packMag_lt (by omega)

/-! ### Values -/

theorem value_eq (x : F32) : value x = (exact x : Rat) / 2 ^ 149 := rfl

/-- The rounded number of units is nearest to `p / q` among all magnitudes. -/
theorem roundUnits_nearest_rat {p q : Nat} (hq : 0 < q) (m : Nat) :
    |(roundUnits p q : Rat) - p / q| ≤ |(unitsOfMag m : Rat) - p / q| ∧
      (|(roundUnits p q : Rat) - p / q| = |(unitsOfMag m : Rat) - p / q| →
        unitsOfMag m = roundUnits p q ∨ packMag (roundUnits p q) % 2 = 0) := by
  have hqr : (0 : Rat) < q := by exact_mod_cast hq
  have key : ∀ a : Nat, |(a : Rat) - p / q| = ((|(a : Int) * q - p| : Int) : Rat) / q := by
    intro a
    rw [eq_div_iff hqr.ne', ← abs_of_pos hqr, ← abs_mul, abs_of_pos hqr, sub_mul, div_mul_cancel₀ _ hqr.ne']
    push_cast
    rfl
  obtain ⟨h1, h2⟩ := roundUnits_nearest (p := p) hq m
  rw [key, key]
  refine ⟨div_le_div_of_nonneg_right (by exact_mod_cast h1) hqr.le, fun h => h2 ?_⟩
  have := (div_left_inj' hqr.ne').1 h
  exact_mod_cast this

theorem value_of_units (x : F32) : value x = (if sign x then -1 else 1) * ((units x : Rat) / 2 ^ 149) := by
  rw [value, exact]
  cases sign x <;> simp [neg_div]

/-- The exact value of a rounded result, in units, is the nearest. -/
theorem rounded_round (s : Bool) {p q : Nat} (hq : 0 < q) :
    Machine.Rounded (round s p q) ((if s then -1 else 1) * ((p : Rat) / q / 2 ^ 149)) := by
  have hqr : (0 : Rat) < q := by exact_mod_cast hq
  have hfin : isFinite (round s p q) = true ↔
      |(if s then (-1 : Rat) else 1) * ((p : Rat) / q / 2 ^ 149)| < (2 ^ 25 - 1) * 2 ^ 103 := by
    rw [isFinite_round s hq]
    have : |(if s then (-1 : Rat) else 1) * ((p : Rat) / q / 2 ^ 149)| = (p : Rat) / q / 2 ^ 149 := by
      rw [abs_mul]
      have h0 : |(if s then (-1 : Rat) else 1)| = 1 := by cases s <;> simp
      rw [h0, one_mul, abs_of_nonneg (by positivity)]
    rw [this, div_lt_iff₀ (by positivity), div_lt_iff₀ hqr]
    have e : ((2 : Rat) ^ 25 - 1) * (q * 2 ^ 253) = 2 * (((2 : Rat) ^ 25 - 1) * 2 ^ 103 * 2 ^ 149 * q) := by ring
    have h : 2 * p < (2 ^ 25 - 1) * (q * 2 ^ 253) ↔ (2 : Rat) * p < ((2 : Rat) ^ 25 - 1) * (q * 2 ^ 253) := by
      rw [← Nat.cast_lt (α := Rat)]
      simp only [Nat.cast_mul, Nat.cast_pow, Nat.cast_ofNat, show ((2 ^ 25 - 1 : Nat) : Rat) = 2 ^ 25 - 1 by norm_num]
    rw [h, e, mul_lt_mul_iff_right₀ (by norm_num)]
  refine ⟨hfin, ?_, fun hbig => ?_⟩
  · intro hf z hz
    have hv : value (round s p q) = (if s then -1 else 1) * ((roundUnits p q : Rat) / 2 ^ 149) := by
      rw [value, exact_round hf]
      cases s <;> simp [neg_div]
    have hmag := mag_round s p q
    have h149 : (0 : Rat) < 2 ^ 149 := by positivity
    have hdist : |value (round s p q) - (if s then -1 else 1) * ((p : Rat) / q / 2 ^ 149)|
        = |(roundUnits p q : Rat) - p / q| / 2 ^ 149 := by
      rw [hv, ← mul_sub, ← sub_div, abs_mul, abs_div, abs_of_pos h149]
      cases s <;> simp
    rw [hdist, hmag, hv, value_of_units z]
    obtain ⟨n1, n2⟩ := roundUnits_nearest_rat (p := p) hq (mag z)
    obtain ⟨o1, o2⟩ := roundUnits_nearest_rat (p := p) hq 0
    rw [show unitsOfMag 0 = 0 from rfl, Nat.cast_zero, zero_sub, abs_neg,
      abs_of_nonneg (show (0 : Rat) ≤ p / q by positivity)] at o1 o2
    by_cases hs : sign z = s
    · have hz' : |(if sign z then (-1 : Rat) else 1) * ((units z : Rat) / 2 ^ 149)
          - (if s then -1 else 1) * ((p : Rat) / q / 2 ^ 149)| = |(units z : Rat) - p / q| / 2 ^ 149 := by
        rw [hs, ← mul_sub, ← sub_div, abs_mul, abs_div, abs_of_pos h149]
        cases s <;> simp
      rw [hz']
      refine ⟨div_le_div_of_nonneg_right n1 h149.le, fun h => ?_⟩
      rcases n2 ((div_left_inj' h149.ne').1 h) with h | h
      · left; rw [hs, units, h]
      · exact .inr h
    · have hz' : |(if sign z then (-1 : Rat) else 1) * ((units z : Rat) / 2 ^ 149)
          - (if s then -1 else 1) * ((p : Rat) / q / 2 ^ 149)| = ((units z : Rat) + p / q) / 2 ^ 149 := by
        have hpos : (0 : Rat) ≤ (units z : Rat) + p / q := by positivity
        have : (if sign z then (-1 : Rat) else 1) = -(if s then -1 else 1) := by
          cases hsz : sign z <;> cases s <;> simp_all
        rw [this, neg_mul, show ∀ a b c : Rat, -(a * b) - a * c = -(a * (b + c)) by intros; ring, abs_neg,
          ← add_div, abs_mul, abs_div, abs_of_pos h149, abs_of_nonneg hpos]
        cases s <;> simp
      rw [hz']
      have hu : (0 : Rat) ≤ (units z : Rat) := by positivity
      refine ⟨div_le_div_of_nonneg_right (by linarith) h149.le, fun h => ?_⟩
      have h := (div_left_inj' h149.ne').1 h
      have hz0 : (units z : Rat) = 0 := by linarith
      rcases o2 (by linarith) with h | h
      · left; rw [hz0, ← h]; simp
      · exact .inr h
  · have hx : (0 : Rat) < p / q / 2 ^ 149 := by
      refine lt_of_le_of_ne (by positivity) fun h => ?_
      rw [← h, mul_zero, abs_zero] at hbig
      exact absurd hbig (by norm_num)
    refine ⟨mag_round_of_not_finite (Bool.eq_false_iff.2 fun h => absurd (hfin.1 h) (not_lt.2 hbig)), ?_⟩
    rw [sign_round]
    cases s
    · simpa using hx.le
    · simpa using hx

/-! ### The operations on finite operands (R7) -/

@[simp] theorem mag_neg (x : F32) : mag (neg x) = mag x := by
  rw [mag, mag, neg, BitVec.toNat_xor, Nat.xor_mod_two_pow]
  simp

@[simp] theorem sign_neg (x : F32) : sign (neg x) = !sign x := by
  rw [sign, sign, neg, BitVec.msb_xor, show (0x80000000#32).msb = true from rfl, Bool.xor_true]

@[simp] theorem exact_neg (x : F32) : exact (neg x) = -exact x := by
  rw [exact, exact, units, units, mag_neg, sign_neg]
  cases sign x <;> simp

theorem value_neg (x : F32) : value (neg x) = -value x := by
  rw [value, value, exact_neg]; push_cast; ring

@[simp] theorem isFinite_neg (x : F32) : isFinite (neg x) = isFinite x := by simp [isFinite]

theorem value_ofBits_zero (s : Bool) : value (ofBits s 0) = 0 := by
  rw [value, exact_ofBits s (by decide)]
  cases s <;> simp [unitsOfMag]

theorem sum_of_finite {a b : F32} (free : F32) (ha : isFinite a = true) (hb : isFinite b = true) :
    sum free a b = addFinite a b := by
  simp [sum, isNan_of_isFinite ha, isNan_of_isFinite hb, isInf_of_isFinite ha, isInf_of_isFinite hb]

theorem rounded_addFinite (a b : F32) : Machine.Rounded (addFinite a b) (value a + value b) := by
  have hv : value a + value b = ((exact a + exact b : Int) : Rat) / 2 ^ 149 := by
    rw [value, value]; push_cast; ring
  rw [hv, addFinite]
  generalize exact a + exact b = z
  split
  · rename_i h
    have h0 : value (ofBits (sign a && sign b) 0) = 0 := value_ofBits_zero _
    subst h
    refine ⟨?_, fun _ y _ => ?_, fun hbig => ?_⟩
    · rw [isFinite_iff, mag_ofBits _ (by decide)]
      simp only [infMag, Int.cast_zero, zero_div, abs_zero]
      norm_num
    · rw [h0]
      simp only [Int.cast_zero, zero_div, sub_zero, abs_zero]
      exact ⟨abs_nonneg _, fun h => .inl (abs_eq_zero.1 h.symm)⟩
    · rw [Int.cast_zero, zero_div, abs_zero] at hbig
      exact absurd hbig (by norm_num)
  · have h := rounded_round (decide (z < 0)) (p := z.natAbs) (q := 1) (by decide)
    have e : (if decide (z < 0) = true then (-1 : Rat) else 1) * ((z.natAbs : Rat) / (1 : Nat) / 2 ^ 149)
        = (z : Rat) / 2 ^ 149 := by
      rw [Nat.cast_natAbs]
      by_cases hz : z < 0
      · simp [hz, abs_of_neg hz, neg_div]
      · simp [hz, abs_of_nonneg (not_lt.1 hz)]
    rwa [e] at h

/-! ### Order of the magnitudes (R7) -/

theorem unitsOfMag_strictMono : StrictMono unitsOfMag := by
  refine strictMono_nat_of_lt_succ fun m => ?_
  by_cases h0 : m / 2 ^ 23 = 0
  · rw [unitsOfMag_small (by omega), unitsOfMag_small (by omega)]; exact Nat.lt_succ_self m
  · obtain ⟨k, n, h1, h2, rfl⟩ : ∃ k n, 2 ^ 23 ≤ n ∧ n < 2 ^ 24 ∧ m = k * 2 ^ 23 + n :=
      ⟨m / 2 ^ 23 - 1, m % 2 ^ 23 + 2 ^ 23, by omega, by omega, by omega⟩
    rw [unitsOfMag_normal h1 h2]
    rcases eq_or_lt_of_le (Nat.succ_le_of_lt h2) with h | h
    · have e : k * 2 ^ 23 + n + 1 = (k + 1) * 2 ^ 23 + 2 ^ 23 := by omega
      rw [e, unitsOfMag_normal (le_refl _) (by decide), Nat.pow_succ]
      have hp := Nat.two_pow_pos k
      have : n * 2 ^ k < 2 ^ 24 * 2 ^ k := Nat.mul_lt_mul_of_pos_right h2 hp
      omega
    · rw [show k * 2 ^ 23 + n + 1 = k * 2 ^ 23 + (n + 1) by omega, unitsOfMag_normal (by omega) h]
      exact Nat.mul_lt_mul_of_pos_right (Nat.lt_succ_self n) (Nat.two_pow_pos k)

end Sys2Proof.F32
end

