-- ==== Sys2Proof/Laws/Num.lean ====
section
/-! SUPPORT. The two bindings of `NUM` at work: literals and `clamp` (R7, R11, R133). Both are reducible, so that
`binary32.add` is `F32.add` to simp. -/

namespace Sys2Proof.Machine

/-! ### The binary32 binding -/

@[simp] theorem binary32_zero : binary32.zero = 0#32 := rfl
@[simp] theorem binary32_one : binary32.one = 0x3F800000#32 := rfl

/-! ### The exact binding -/

@[simp] theorem exactNum_zero : exactNum.zero = 0 := by simp [Num.zero]
@[simp] theorem exactNum_one : exactNum.one = 1 := by simp [Num.one]
/-- Under the exact binding `clamp` is the nearest point of the interval. -/
theorem exactNum_clamp {v lo hi : Rat} (h : lo ≤ hi) : exactNum.clamp v lo hi = max lo (min v hi) := by
  simp only [Num.clamp, decide_eq_true_eq, if_true]
  split_ifs with h1 h2
  · rw [min_eq_left (by linarith), max_eq_left h1.le]
  · rw [min_eq_right h2.le, max_eq_right h]
  · rw [min_eq_left (not_lt.1 h2), max_eq_right (not_lt.1 h1)]

/-! ### Ranges of the parameter surface -/

/-- The bounds of a range are finite and in order (R133). -/
theorem range_ordered (i : Param) :
    F32.isFinite (rangeLo binary32 i) = true ∧ F32.isFinite (rangeHi binary32 i) = true ∧
      F32.lt (rangeHi binary32 i) (rangeLo binary32 i) = false ∧
      F32.lt (rangeLo binary32 i) (rangeLo binary32 i) = false ∧
      F32.lt (rangeHi binary32 i) (rangeHi binary32 i) = false := by
  fin_cases i <;> decide

/-- A clamped finite value is finite and inside the range. -/
theorem clampParam_inside (i : Param) {v : F32} (hv : F32.isFinite v = true) :
    F32.isFinite (clampParam binary32 i v) = true ∧
      F32.lt (clampParam binary32 i v) (rangeLo binary32 i) = false ∧
      F32.lt (rangeHi binary32 i) (clampParam binary32 i v) = false := by
  obtain ⟨h1, h2, h3, h4, h5⟩ := range_ordered i
  simp only [clampParam, Num.clamp, hv, if_true]
  by_cases h6 : F32.lt v (rangeLo binary32 i) = true
  · rw [if_pos h6]; exact ⟨h1, h4, h3⟩
  · rw [if_neg h6]
    by_cases h7 : F32.lt (rangeHi binary32 i) v = true
    · rw [if_pos h7]; exact ⟨h2, h3, h5⟩
    · rw [if_neg h7]; exact ⟨hv, by simpa using h6, by simpa using h7⟩

end Sys2Proof.Machine
end

