-- ==== Sys2Proof/Laws/Lerp.lean ====
section
/-! SUPPORT. One smoother, over any binding of `NUM` (40_smoother.md section 1). -/

namespace Sys2Proof.Machine.Smoother

variable {R : Type} (N : Num R)

/-! ### Fields -/

@[simp] theorem setImm_cur (v : R) : (setImm N v).cur = v := rfl
@[simp] theorem setImm_tgt (v : R) : (setImm N v).tgt = v := rfl
@[simp] theorem setImm_ui (v : R) : (setImm N v).ui = v := rfl
@[simp] theorem setImm_rem (v : R) : (setImm N v).rem = 0#32 := rfl
@[simp] theorem setImm_step (v : R) : (setImm N v).step = N.zero := rfl
@[simp] theorem setUi_cur (v : R) (m : Smoother R) : (setUi v m).cur = m.cur := rfl
@[simp] theorem setUi_tgt (v : R) (m : Smoother R) : (setUi v m).tgt = m.tgt := rfl
@[simp] theorem setUi_ui (v : R) (m : Smoother R) : (setUi v m).ui = v := rfl
@[simp] theorem setUi_rem (v : R) (m : Smoother R) : (setUi v m).rem = m.rem := rfl
@[simp] theorem setUi_step (v : R) (m : Smoother R) : (setUi v m).step = m.step := rfl

/-- An advance writes neither the target nor the UI value (R125). -/
@[simp] theorem advance_tgt (m : Smoother R) : (m.advance N).tgt = m.tgt := by
  unfold advance; split_ifs <;> rfl

@[simp] theorem advance_ui (m : Smoother R) : (m.advance N).ui = m.ui := by
  unfold advance; split_ifs <;> rfl

/-- A zero duration is an immediate jump (R123). -/
theorem startRamp_zero (t : R) (m : Smoother R) : m.startRamp N t 0#32 = setImm N t := if_pos rfl

theorem startRamp_of_ne {d : Count} (h : d ≠ 0#32) (t : R) (m : Smoother R) :
    m.startRamp N t d = { m with step := N.div (N.sub t m.cur) (N.ofNat d.toNat), tgt := t, ui := t, rem := d } :=
  if_neg h

@[simp] theorem startRamp_tgt (t : R) (d : Count) (m : Smoother R) : (m.startRamp N t d).tgt = t := by
  unfold startRamp; split_ifs <;> rfl

@[simp] theorem startRamp_ui (t : R) (d : Count) (m : Smoother R) : (m.startRamp N t d).ui = t := by
  unfold startRamp; split_ifs <;> rfl

/-! ### The three cases of an advance (R125, R126) -/

theorem advance_idle {m : Smoother R} (h : m.rem = 0#32) : m.advance N = m := if_pos h

theorem advance_last {m : Smoother R} (h : m.rem = 1#32) :
    m.advance N = { m with cur := m.tgt, rem := 0#32, step := N.zero } := by
  rw [advance, if_neg (by rw [h]; decide), if_pos h]

theorem advance_more {m : Smoother R} (h0 : m.rem ≠ 0#32) (h1 : m.rem ≠ 1#32) :
    m.advance N = { m with cur := N.add m.cur m.step, rem := m.rem - 1#32 } := by
  rw [advance, if_neg h0, if_neg h1]

/-- The countdown falls by one and stops at 0. -/
theorem advance_rem (m : Smoother R) : (m.advance N).rem.toNat = m.rem.toNat - 1 := by
  unfold advance
  split_ifs with h0 h1
  · simp [h0]
  · simp [h1]
  · have : m.rem.toNat ≠ 0 := fun h => h0 (BitVec.eq_of_toNat_eq (by simpa using h))
    show (m.rem - 1#32).toNat = _
    bv_omega

/-! ### The state S1 of R30 -/

/-- S1 of R30 for one smoother, over any binding. -/
def Pinned (m : Smoother R) : Prop := m.rem = 0#32 → m.cur = m.tgt ∧ m.step = N.zero

theorem pinned_setImm (v : R) : Pinned N (setImm N v) := fun _ => ⟨rfl, rfl⟩

theorem pinned_startRamp (t : R) (d : Count) (m : Smoother R) : Pinned N (m.startRamp N t d) := by
  by_cases h : d = 0#32
  · rw [h, startRamp_zero]; exact pinned_setImm N t
  · rw [startRamp_of_ne N h]; exact fun h' => absurd h' h

theorem pinned_setUi {m : Smoother R} (h : Pinned N m) (v : R) : Pinned N (m.setUi v) := h

theorem pinned_advance {m : Smoother R} (h : Pinned N m) : Pinned N (m.advance N) := by
  by_cases h0 : m.rem = 0#32
  · rw [advance_idle N h0]; exact h
  by_cases h1 : m.rem = 1#32
  · rw [advance_last N h1]; exact fun _ => ⟨rfl, rfl⟩
  · rw [advance_more N h0 h1]
    intro h'
    exfalso
    apply h1
    have : m.rem - 1#32 = 0#32 := h'
    bv_omega

/-- Fewer steps than the ramp has left add the step that many times. -/
theorem advance_iterate (m : Smoother R) {j : Nat} (hj : j < m.rem.toNat) :
    (Smoother.advance N)^[j] m =
      { m with cur := (fun x => N.add x m.step)^[j] m.cur, rem := m.rem - BitVec.ofNat 32 j } := by
  induction j with
  | zero => simp
  | succ j ih =>
    rw [Function.iterate_succ_apply', ih (by omega), Function.iterate_succ_apply']
    have h := m.rem.isLt
    rw [advance_more]
    · simp only [Smoother.mk.injEq, and_true, true_and]
      bv_omega
    · show m.rem - BitVec.ofNat 32 j ≠ 0#32
      bv_omega
    · show m.rem - BitVec.ofNat 32 j ≠ 1#32
      bv_omega

/-- Once the ramp has had all its steps, the value is the target. -/
theorem advance_iterate_done {m : Smoother R} (h0 : m.rem ≠ 0#32) {j : Nat} (hj : m.rem.toNat ≤ j) :
    (Smoother.advance N)^[j] m = { m with cur := m.tgt, rem := 0#32, step := N.zero } := by
  have hp : 0 < m.rem.toNat := Nat.pos_of_ne_zero fun h => h0 (BitVec.eq_of_toNat_eq h)
  have h := m.rem.isLt
  induction j with
  | zero => omega
  | succ j ih =>
    rw [Function.iterate_succ_apply']
    by_cases hjj : m.rem.toNat ≤ j
    · rw [ih hjj, advance_idle N rfl]
    · rw [advance_iterate N m (by omega), advance_last]
      show m.rem - BitVec.ofNat 32 j = 1#32
      bv_omega

end Sys2Proof.Machine.Smoother
end

