-- ==== Sys2Proof/Laws/State.lean ====
section
/-! SUPPORT. One lemma per field per update, so that no proof unfolds a record update; and reading a register file
after a write. -/

namespace Sys2Proof.Machine.State

/-! ### Fields after an update -/

@[simp] theorem raise_env (f : Flag) (s : State) : (s.raise f).env = s.env := rfl
@[simp] theorem raise_sm (f : Flag) (s : State) : (s.raise f).sm = s.sm := rfl
@[simp] theorem raise_gp (f : Flag) (s : State) : (s.raise f).gp = s.gp := rfl
@[simp] theorem raise_al (f : Flag) (s : State) : (s.raise f).al = s.al := rfl
@[simp] theorem raise_activeCount (f : Flag) (s : State) : (s.raise f).activeCount = s.activeCount := rfl
@[simp] theorem raise_inited (f : Flag) (s : State) : (s.raise f).inited = s.inited := rfl
@[simp] theorem raise_sampleRate (f : Flag) (s : State) : (s.raise f).sampleRate = s.sampleRate := rfl
@[simp] theorem raise_chanCount (f : Flag) (s : State) : (s.raise f).chanCount = s.chanCount := rfl
@[simp] theorem raise_attackSamples (f : Flag) (s : State) : (s.raise f).attackSamples = s.attackSamples := rfl
@[simp] theorem raise_releaseSamples (f : Flag) (s : State) : (s.raise f).releaseSamples = s.releaseSamples := rfl
@[simp] theorem raise_freshReset (f : Flag) (s : State) : (s.raise f).freshReset = s.freshReset := rfl
@[simp] theorem raise_flags (f : Flag) (s : State) : (s.raise f).flags = f.set s.flags := rfl
@[simp] theorem raise_host (f : Flag) (s : State) : (s.raise f).host = s.host := rfl
@[simp] theorem raise_rsp (f : Flag) (s : State) : (s.raise f).rsp = s.rsp := rfl
@[simp] theorem raise_events (f : Flag) (s : State) : (s.raise f).events = s.events := rfl
@[simp] theorem raise_world (f : Flag) (s : State) : (s.raise f).world = s.world := rfl

@[simp] theorem emit_env (e : Event) (s : State) : (s.emit e).env = s.env := rfl
@[simp] theorem emit_sm (e : Event) (s : State) : (s.emit e).sm = s.sm := rfl
@[simp] theorem emit_gp (e : Event) (s : State) : (s.emit e).gp = s.gp := rfl
@[simp] theorem emit_al (e : Event) (s : State) : (s.emit e).al = s.al := rfl
@[simp] theorem emit_activeCount (e : Event) (s : State) : (s.emit e).activeCount = s.activeCount := rfl
@[simp] theorem emit_inited (e : Event) (s : State) : (s.emit e).inited = s.inited := rfl
@[simp] theorem emit_sampleRate (e : Event) (s : State) : (s.emit e).sampleRate = s.sampleRate := rfl
@[simp] theorem emit_chanCount (e : Event) (s : State) : (s.emit e).chanCount = s.chanCount := rfl
@[simp] theorem emit_attackSamples (e : Event) (s : State) : (s.emit e).attackSamples = s.attackSamples := rfl
@[simp] theorem emit_releaseSamples (e : Event) (s : State) : (s.emit e).releaseSamples = s.releaseSamples := rfl
@[simp] theorem emit_freshReset (e : Event) (s : State) : (s.emit e).freshReset = s.freshReset := rfl
@[simp] theorem emit_flags (e : Event) (s : State) : (s.emit e).flags = s.flags := rfl
@[simp] theorem emit_host (e : Event) (s : State) : (s.emit e).host = s.host := rfl
@[simp] theorem emit_rsp (e : Event) (s : State) : (s.emit e).rsp = s.rsp := rfl
@[simp] theorem emit_events (e : Event) (s : State) : (s.emit e).events = s.events ++ [e] := rfl
@[simp] theorem emit_world (e : Event) (s : State) : (s.emit e).world = s.world := rfl

@[simp] theorem respond_env (v : F32) (s : State) : (s.respond v).env = s.env := rfl
@[simp] theorem respond_sm (v : F32) (s : State) : (s.respond v).sm = s.sm := rfl
@[simp] theorem respond_gp (v : F32) (s : State) : (s.respond v).gp = s.gp := rfl
@[simp] theorem respond_al (v : F32) (s : State) : (s.respond v).al = s.al := rfl
@[simp] theorem respond_activeCount (v : F32) (s : State) : (s.respond v).activeCount = s.activeCount := rfl
@[simp] theorem respond_inited (v : F32) (s : State) : (s.respond v).inited = s.inited := rfl
@[simp] theorem respond_sampleRate (v : F32) (s : State) : (s.respond v).sampleRate = s.sampleRate := rfl
@[simp] theorem respond_chanCount (v : F32) (s : State) : (s.respond v).chanCount = s.chanCount := rfl
@[simp] theorem respond_attackSamples (v : F32) (s : State) : (s.respond v).attackSamples = s.attackSamples := rfl
@[simp] theorem respond_releaseSamples (v : F32) (s : State) : (s.respond v).releaseSamples = s.releaseSamples := rfl
@[simp] theorem respond_freshReset (v : F32) (s : State) : (s.respond v).freshReset = s.freshReset := rfl
@[simp] theorem respond_flags (v : F32) (s : State) : (s.respond v).flags = s.flags := rfl
@[simp] theorem respond_host (v : F32) (s : State) : (s.respond v).host = s.host := rfl
@[simp] theorem respond_rsp (v : F32) (s : State) : (s.respond v).rsp = some v := rfl
@[simp] theorem respond_events (v : F32) (s : State) : (s.respond v).events = s.events := rfl
@[simp] theorem respond_world (v : F32) (s : State) : (s.respond v).world = s.world := rfl

@[simp] theorem setVoice_env (n : Note) (v : Voice F32) (s : State) : (s.setVoice n v).env = s.env.set n.toNat v n.toNat_lt := rfl
@[simp] theorem setVoice_sm (n : Note) (v : Voice F32) (s : State) : (s.setVoice n v).sm = s.sm := rfl
@[simp] theorem setVoice_gp (n : Note) (v : Voice F32) (s : State) : (s.setVoice n v).gp = s.gp := rfl
@[simp] theorem setVoice_al (n : Note) (v : Voice F32) (s : State) : (s.setVoice n v).al = s.al := rfl
@[simp] theorem setVoice_activeCount (n : Note) (v : Voice F32) (s : State) : (s.setVoice n v).activeCount = s.activeCount := rfl
@[simp] theorem setVoice_inited (n : Note) (v : Voice F32) (s : State) : (s.setVoice n v).inited = s.inited := rfl
@[simp] theorem setVoice_sampleRate (n : Note) (v : Voice F32) (s : State) : (s.setVoice n v).sampleRate = s.sampleRate := rfl
@[simp] theorem setVoice_chanCount (n : Note) (v : Voice F32) (s : State) : (s.setVoice n v).chanCount = s.chanCount := rfl
@[simp] theorem setVoice_attackSamples (n : Note) (v : Voice F32) (s : State) : (s.setVoice n v).attackSamples = s.attackSamples := rfl
@[simp] theorem setVoice_releaseSamples (n : Note) (v : Voice F32) (s : State) : (s.setVoice n v).releaseSamples = s.releaseSamples := rfl
@[simp] theorem setVoice_freshReset (n : Note) (v : Voice F32) (s : State) : (s.setVoice n v).freshReset = s.freshReset := rfl
@[simp] theorem setVoice_flags (n : Note) (v : Voice F32) (s : State) : (s.setVoice n v).flags = s.flags := rfl
@[simp] theorem setVoice_host (n : Note) (v : Voice F32) (s : State) : (s.setVoice n v).host = s.host := rfl
@[simp] theorem setVoice_rsp (n : Note) (v : Voice F32) (s : State) : (s.setVoice n v).rsp = s.rsp := rfl
@[simp] theorem setVoice_events (n : Note) (v : Voice F32) (s : State) : (s.setVoice n v).events = s.events := rfl
@[simp] theorem setVoice_world (n : Note) (v : Voice F32) (s : State) : (s.setVoice n v).world = s.world := rfl

@[simp] theorem setSmoother_env (i : Param) (x : Smoother F32) (s : State) : (s.setSmoother i x).env = s.env := rfl
@[simp] theorem setSmoother_sm (i : Param) (x : Smoother F32) (s : State) : (s.setSmoother i x).sm = s.sm.set i.val x := rfl
@[simp] theorem setSmoother_gp (i : Param) (x : Smoother F32) (s : State) : (s.setSmoother i x).gp = s.gp := rfl
@[simp] theorem setSmoother_al (i : Param) (x : Smoother F32) (s : State) : (s.setSmoother i x).al = s.al := rfl
@[simp] theorem setSmoother_activeCount (i : Param) (x : Smoother F32) (s : State) : (s.setSmoother i x).activeCount = s.activeCount := rfl
@[simp] theorem setSmoother_inited (i : Param) (x : Smoother F32) (s : State) : (s.setSmoother i x).inited = s.inited := rfl
@[simp] theorem setSmoother_sampleRate (i : Param) (x : Smoother F32) (s : State) : (s.setSmoother i x).sampleRate = s.sampleRate := rfl
@[simp] theorem setSmoother_chanCount (i : Param) (x : Smoother F32) (s : State) : (s.setSmoother i x).chanCount = s.chanCount := rfl
@[simp] theorem setSmoother_attackSamples (i : Param) (x : Smoother F32) (s : State) : (s.setSmoother i x).attackSamples = s.attackSamples := rfl
@[simp] theorem setSmoother_releaseSamples (i : Param) (x : Smoother F32) (s : State) : (s.setSmoother i x).releaseSamples = s.releaseSamples := rfl
@[simp] theorem setSmoother_freshReset (i : Param) (x : Smoother F32) (s : State) : (s.setSmoother i x).freshReset = s.freshReset := rfl
@[simp] theorem setSmoother_flags (i : Param) (x : Smoother F32) (s : State) : (s.setSmoother i x).flags = s.flags := rfl
@[simp] theorem setSmoother_host (i : Param) (x : Smoother F32) (s : State) : (s.setSmoother i x).host = s.host := rfl
@[simp] theorem setSmoother_rsp (i : Param) (x : Smoother F32) (s : State) : (s.setSmoother i x).rsp = s.rsp := rfl
@[simp] theorem setSmoother_events (i : Param) (x : Smoother F32) (s : State) : (s.setSmoother i x).events = s.events := rfl
@[simp] theorem setSmoother_world (i : Param) (x : Smoother F32) (s : State) : (s.setSmoother i x).world = s.world := rfl

@[simp] theorem setParam_env (i : Param) (x : F32) (s : State) : (s.setParam i x).env = s.env := rfl
@[simp] theorem setParam_sm (i : Param) (x : F32) (s : State) : (s.setParam i x).sm = s.sm := rfl
@[simp] theorem setParam_gp (i : Param) (x : F32) (s : State) : (s.setParam i x).gp = s.gp.set i.val x := rfl
@[simp] theorem setParam_al (i : Param) (x : F32) (s : State) : (s.setParam i x).al = s.al := rfl
@[simp] theorem setParam_activeCount (i : Param) (x : F32) (s : State) : (s.setParam i x).activeCount = s.activeCount := rfl
@[simp] theorem setParam_inited (i : Param) (x : F32) (s : State) : (s.setParam i x).inited = s.inited := rfl
@[simp] theorem setParam_sampleRate (i : Param) (x : F32) (s : State) : (s.setParam i x).sampleRate = s.sampleRate := rfl
@[simp] theorem setParam_chanCount (i : Param) (x : F32) (s : State) : (s.setParam i x).chanCount = s.chanCount := rfl
@[simp] theorem setParam_attackSamples (i : Param) (x : F32) (s : State) : (s.setParam i x).attackSamples = s.attackSamples := rfl
@[simp] theorem setParam_releaseSamples (i : Param) (x : F32) (s : State) : (s.setParam i x).releaseSamples = s.releaseSamples := rfl
@[simp] theorem setParam_freshReset (i : Param) (x : F32) (s : State) : (s.setParam i x).freshReset = s.freshReset := rfl
@[simp] theorem setParam_flags (i : Param) (x : F32) (s : State) : (s.setParam i x).flags = s.flags := rfl
@[simp] theorem setParam_host (i : Param) (x : F32) (s : State) : (s.setParam i x).host = s.host := rfl
@[simp] theorem setParam_rsp (i : Param) (x : F32) (s : State) : (s.setParam i x).rsp = s.rsp := rfl
@[simp] theorem setParam_events (i : Param) (x : F32) (s : State) : (s.setParam i x).events = s.events := rfl
@[simp] theorem setParam_world (i : Param) (x : F32) (s : State) : (s.setParam i x).world = s.world := rfl

@[simp] theorem activate_env (n : Note) (s : State) : (s.activate n).env = s.env := rfl
@[simp] theorem activate_sm (n : Note) (s : State) : (s.activate n).sm = s.sm := rfl
@[simp] theorem activate_gp (n : Note) (s : State) : (s.activate n).gp = s.gp := rfl
@[simp] theorem activate_al (n : Note) (s : State) : (s.activate n).al = n :: s.al := rfl
@[simp] theorem activate_activeCount (n : Note) (s : State) : (s.activate n).activeCount = s.activeCount + 1#8 := rfl
@[simp] theorem activate_inited (n : Note) (s : State) : (s.activate n).inited = s.inited := rfl
@[simp] theorem activate_sampleRate (n : Note) (s : State) : (s.activate n).sampleRate = s.sampleRate := rfl
@[simp] theorem activate_chanCount (n : Note) (s : State) : (s.activate n).chanCount = s.chanCount := rfl
@[simp] theorem activate_attackSamples (n : Note) (s : State) : (s.activate n).attackSamples = s.attackSamples := rfl
@[simp] theorem activate_releaseSamples (n : Note) (s : State) : (s.activate n).releaseSamples = s.releaseSamples := rfl
@[simp] theorem activate_freshReset (n : Note) (s : State) : (s.activate n).freshReset = s.freshReset := rfl
@[simp] theorem activate_flags (n : Note) (s : State) : (s.activate n).flags = s.flags := rfl
@[simp] theorem activate_host (n : Note) (s : State) : (s.activate n).host = s.host := rfl
@[simp] theorem activate_rsp (n : Note) (s : State) : (s.activate n).rsp = s.rsp := rfl
@[simp] theorem activate_events (n : Note) (s : State) : (s.activate n).events = s.events ++ [.oscInit n] := rfl
@[simp] theorem activate_world (n : Note) (s : State) : (s.activate n).world = s.world := rfl

@[simp] theorem retire_env (n : Note) (s : State) : (s.retire n).env = s.env := rfl
@[simp] theorem retire_sm (n : Note) (s : State) : (s.retire n).sm = s.sm := rfl
@[simp] theorem retire_gp (n : Note) (s : State) : (s.retire n).gp = s.gp := rfl
@[simp] theorem retire_al (n : Note) (s : State) : (s.retire n).al = s.al.filter fun m => decide (m ≠ n) := rfl
@[simp] theorem retire_activeCount (n : Note) (s : State) : (s.retire n).activeCount = s.activeCount - 1#8 := rfl
@[simp] theorem retire_inited (n : Note) (s : State) : (s.retire n).inited = s.inited := rfl
@[simp] theorem retire_sampleRate (n : Note) (s : State) : (s.retire n).sampleRate = s.sampleRate := rfl
@[simp] theorem retire_chanCount (n : Note) (s : State) : (s.retire n).chanCount = s.chanCount := rfl
@[simp] theorem retire_attackSamples (n : Note) (s : State) : (s.retire n).attackSamples = s.attackSamples := rfl
@[simp] theorem retire_releaseSamples (n : Note) (s : State) : (s.retire n).releaseSamples = s.releaseSamples := rfl
@[simp] theorem retire_freshReset (n : Note) (s : State) : (s.retire n).freshReset = s.freshReset := rfl
@[simp] theorem retire_flags (n : Note) (s : State) : (s.retire n).flags = s.flags := rfl
@[simp] theorem retire_host (n : Note) (s : State) : (s.retire n).host = s.host := rfl
@[simp] theorem retire_rsp (n : Note) (s : State) : (s.retire n).rsp = s.rsp := rfl
@[simp] theorem retire_events (n : Note) (s : State) : (s.retire n).events = s.events ++ [.oscDestroy n] := rfl
@[simp] theorem retire_world (n : Note) (s : State) : (s.retire n).world = s.world := rfl

@[simp] theorem allNotesOff_env (s : State) : s.allNotesOff.env = Vector.replicate 128 Voice.cleared := rfl
@[simp] theorem allNotesOff_sm (s : State) : s.allNotesOff.sm = s.sm := rfl
@[simp] theorem allNotesOff_gp (s : State) : s.allNotesOff.gp = s.gp := rfl
@[simp] theorem allNotesOff_al (s : State) : s.allNotesOff.al = [] := rfl
@[simp] theorem allNotesOff_activeCount (s : State) : s.allNotesOff.activeCount = 0#8 := rfl
@[simp] theorem allNotesOff_inited (s : State) : s.allNotesOff.inited = s.inited := rfl
@[simp] theorem allNotesOff_sampleRate (s : State) : s.allNotesOff.sampleRate = s.sampleRate := rfl
@[simp] theorem allNotesOff_chanCount (s : State) : s.allNotesOff.chanCount = s.chanCount := rfl
@[simp] theorem allNotesOff_attackSamples (s : State) : s.allNotesOff.attackSamples = s.attackSamples := rfl
@[simp] theorem allNotesOff_releaseSamples (s : State) : s.allNotesOff.releaseSamples = s.releaseSamples := rfl
@[simp] theorem allNotesOff_freshReset (s : State) : s.allNotesOff.freshReset = s.freshReset := rfl
@[simp] theorem allNotesOff_flags (s : State) : s.allNotesOff.flags = s.flags := rfl
@[simp] theorem allNotesOff_host (s : State) : s.allNotesOff.host = s.host := rfl
@[simp] theorem allNotesOff_rsp (s : State) : s.allNotesOff.rsp = s.rsp := rfl
@[simp] theorem allNotesOff_events (s : State) : s.allNotesOff.events = s.events := rfl
@[simp] theorem allNotesOff_world (s : State) : s.allNotesOff.world = s.world := rfl

@[simp] theorem recount_env (s : State) : s.recount.env = s.env := rfl
@[simp] theorem recount_sm (s : State) : s.recount.sm = s.sm := rfl
@[simp] theorem recount_gp (s : State) : s.recount.gp = s.gp := rfl
@[simp] theorem recount_al (s : State) : s.recount.al = s.al := rfl
@[simp] theorem recount_activeCount (s : State) : s.recount.activeCount = s.activeCount := rfl
@[simp] theorem recount_inited (s : State) : s.recount.inited = s.inited := rfl
@[simp] theorem recount_sampleRate (s : State) : s.recount.sampleRate = s.sampleRate := rfl
@[simp] theorem recount_chanCount (s : State) : s.recount.chanCount = s.chanCount := rfl
@[simp] theorem recount_attackSamples (s : State) : s.recount.attackSamples = durationCount (s.param 3) s.sampleRate := rfl
@[simp] theorem recount_releaseSamples (s : State) : s.recount.releaseSamples = durationCount (s.param 4) s.sampleRate := rfl
@[simp] theorem recount_freshReset (s : State) : s.recount.freshReset = s.freshReset := rfl
@[simp] theorem recount_flags (s : State) : s.recount.flags = s.flags := rfl
@[simp] theorem recount_host (s : State) : s.recount.host = s.host := rfl
@[simp] theorem recount_rsp (s : State) : s.recount.rsp = s.rsp := rfl
@[simp] theorem recount_events (s : State) : s.recount.events = s.events := rfl
@[simp] theorem recount_world (s : State) : s.recount.world = s.world := rfl

@[simp] theorem accept_env (rest : List HostInput) (s : State) : (s.accept rest).env = s.env := rfl
@[simp] theorem accept_sm (rest : List HostInput) (s : State) : (s.accept rest).sm = s.sm := rfl
@[simp] theorem accept_gp (rest : List HostInput) (s : State) : (s.accept rest).gp = s.gp := rfl
@[simp] theorem accept_al (rest : List HostInput) (s : State) : (s.accept rest).al = s.al := rfl
@[simp] theorem accept_activeCount (rest : List HostInput) (s : State) : (s.accept rest).activeCount = s.activeCount := rfl
@[simp] theorem accept_inited (rest : List HostInput) (s : State) : (s.accept rest).inited = s.inited := rfl
@[simp] theorem accept_sampleRate (rest : List HostInput) (s : State) : (s.accept rest).sampleRate = s.sampleRate := rfl
@[simp] theorem accept_chanCount (rest : List HostInput) (s : State) : (s.accept rest).chanCount = s.chanCount := rfl
@[simp] theorem accept_attackSamples (rest : List HostInput) (s : State) : (s.accept rest).attackSamples = s.attackSamples := rfl
@[simp] theorem accept_releaseSamples (rest : List HostInput) (s : State) : (s.accept rest).releaseSamples = s.releaseSamples := rfl
@[simp] theorem accept_freshReset (rest : List HostInput) (s : State) : (s.accept rest).freshReset = s.freshReset := rfl
@[simp] theorem accept_flags (rest : List HostInput) (s : State) : (s.accept rest).flags = s.flags := rfl
@[simp] theorem accept_host (rest : List HostInput) (s : State) : (s.accept rest).host = rest := rfl
@[simp] theorem accept_rsp (rest : List HostInput) (s : State) : (s.accept rest).rsp = none := rfl
@[simp] theorem accept_events (rest : List HostInput) (s : State) : (s.accept rest).events = [] := rfl
@[simp] theorem accept_world (rest : List HostInput) (s : State) : (s.accept rest).world = s.world := rfl

@[simp] theorem deliver_env (s : State) : s.deliver.env = s.env := rfl
@[simp] theorem deliver_sm (s : State) : s.deliver.sm = s.sm := rfl
@[simp] theorem deliver_gp (s : State) : s.deliver.gp = s.gp := rfl
@[simp] theorem deliver_al (s : State) : s.deliver.al = s.al := rfl
@[simp] theorem deliver_activeCount (s : State) : s.deliver.activeCount = s.activeCount := rfl
@[simp] theorem deliver_inited (s : State) : s.deliver.inited = s.inited := rfl
@[simp] theorem deliver_sampleRate (s : State) : s.deliver.sampleRate = s.sampleRate := rfl
@[simp] theorem deliver_chanCount (s : State) : s.deliver.chanCount = s.chanCount := rfl
@[simp] theorem deliver_attackSamples (s : State) : s.deliver.attackSamples = s.attackSamples := rfl
@[simp] theorem deliver_releaseSamples (s : State) : s.deliver.releaseSamples = s.releaseSamples := rfl
@[simp] theorem deliver_freshReset (s : State) : s.deliver.freshReset = s.freshReset := rfl
@[simp] theorem deliver_flags (s : State) : s.deliver.flags = s.flags := rfl
@[simp] theorem deliver_host (s : State) : s.deliver.host = s.host := rfl
@[simp] theorem deliver_rsp (s : State) : s.deliver.rsp = s.rsp := rfl
@[simp] theorem deliver_events (s : State) : s.deliver.events = s.events := rfl
@[simp] theorem deliver_world (s : State) : s.deliver.world = s.world.absorbAll s.events := rfl

/-! ### Register files after an update that leaves them alone -/

@[simp] theorem raise_voice (f : Flag) (s : State) (m : Note) : (s.raise f).voice m = s.voice m := rfl
@[simp] theorem raise_smoother (f : Flag) (s : State) (j : Param) : (s.raise f).smoother j = s.smoother j := rfl
@[simp] theorem raise_param (f : Flag) (s : State) (j : Param) : (s.raise f).param j = s.param j := rfl
@[simp] theorem emit_voice (e : Event) (s : State) (m : Note) : (s.emit e).voice m = s.voice m := rfl
@[simp] theorem emit_smoother (e : Event) (s : State) (j : Param) : (s.emit e).smoother j = s.smoother j := rfl
@[simp] theorem emit_param (e : Event) (s : State) (j : Param) : (s.emit e).param j = s.param j := rfl
@[simp] theorem respond_voice (v : F32) (s : State) (m : Note) : (s.respond v).voice m = s.voice m := rfl
@[simp] theorem respond_smoother (v : F32) (s : State) (j : Param) : (s.respond v).smoother j = s.smoother j := rfl
@[simp] theorem respond_param (v : F32) (s : State) (j : Param) : (s.respond v).param j = s.param j := rfl
@[simp] theorem setVoice_smoother (n : Note) (v : Voice F32) (s : State) (j : Param) : (s.setVoice n v).smoother j = s.smoother j := rfl
@[simp] theorem setVoice_param (n : Note) (v : Voice F32) (s : State) (j : Param) : (s.setVoice n v).param j = s.param j := rfl
@[simp] theorem setSmoother_voice (i : Param) (x : Smoother F32) (s : State) (m : Note) : (s.setSmoother i x).voice m = s.voice m := rfl
@[simp] theorem setSmoother_param (i : Param) (x : Smoother F32) (s : State) (j : Param) : (s.setSmoother i x).param j = s.param j := rfl
@[simp] theorem setParam_voice (i : Param) (x : F32) (s : State) (m : Note) : (s.setParam i x).voice m = s.voice m := rfl
@[simp] theorem setParam_smoother (i : Param) (x : F32) (s : State) (j : Param) : (s.setParam i x).smoother j = s.smoother j := rfl
@[simp] theorem activate_voice (n : Note) (s : State) (m : Note) : (s.activate n).voice m = s.voice m := rfl
@[simp] theorem activate_smoother (n : Note) (s : State) (j : Param) : (s.activate n).smoother j = s.smoother j := rfl
@[simp] theorem activate_param (n : Note) (s : State) (j : Param) : (s.activate n).param j = s.param j := rfl
@[simp] theorem retire_voice (n : Note) (s : State) (m : Note) : (s.retire n).voice m = s.voice m := rfl
@[simp] theorem retire_smoother (n : Note) (s : State) (j : Param) : (s.retire n).smoother j = s.smoother j := rfl
@[simp] theorem retire_param (n : Note) (s : State) (j : Param) : (s.retire n).param j = s.param j := rfl
@[simp] theorem allNotesOff_smoother (s : State) (j : Param) : s.allNotesOff.smoother j = s.smoother j := rfl
@[simp] theorem allNotesOff_param (s : State) (j : Param) : s.allNotesOff.param j = s.param j := rfl
@[simp] theorem recount_voice (s : State) (m : Note) : s.recount.voice m = s.voice m := rfl
@[simp] theorem recount_smoother (s : State) (j : Param) : s.recount.smoother j = s.smoother j := rfl
@[simp] theorem recount_param (s : State) (j : Param) : s.recount.param j = s.param j := rfl
@[simp] theorem accept_voice (rest : List HostInput) (s : State) (m : Note) : (s.accept rest).voice m = s.voice m := rfl
@[simp] theorem accept_smoother (rest : List HostInput) (s : State) (j : Param) : (s.accept rest).smoother j = s.smoother j := rfl
@[simp] theorem accept_param (rest : List HostInput) (s : State) (j : Param) : (s.accept rest).param j = s.param j := rfl
@[simp] theorem deliver_voice (s : State) (m : Note) : s.deliver.voice m = s.voice m := rfl
@[simp] theorem deliver_smoother (s : State) (j : Param) : s.deliver.smoother j = s.smoother j := rfl
@[simp] theorem deliver_param (s : State) (j : Param) : s.deliver.param j = s.param j := rfl

/-! ### A register file after a write -/

theorem setVoice_voice (n : Note) (v : Voice F32) (s : State) (m : Note) :
    (s.setVoice n v).voice m = if m = n then v else s.voice m := by
  simp only [voice, setVoice, Vector.getElem_set]
  by_cases h : m = n
  · simp [h]
  · have : n.toNat ≠ m.toNat := fun e => h (BitVec.eq_of_toNat_eq e.symm)
    simp [h, this]

@[simp] theorem setVoice_voice_same (n : Note) (v : Voice F32) (s : State) : (s.setVoice n v).voice n = v := by
  simp [setVoice_voice]

theorem setVoice_voice_other {n m : Note} (h : m ≠ n) (v : Voice F32) (s : State) :
    (s.setVoice n v).voice m = s.voice m := by
  simp [setVoice_voice, h]

theorem setSmoother_smoother (i : Param) (x : Smoother F32) (s : State) (j : Param) :
    (s.setSmoother i x).smoother j = if j = i then x else s.smoother j := by
  simp only [smoother, setSmoother, Vector.getElem_set, Fin.ext_iff, eq_comm (a := i.val)]

@[simp] theorem setSmoother_smoother_same (i : Param) (x : Smoother F32) (s : State) :
    (s.setSmoother i x).smoother i = x := by
  simp [setSmoother_smoother]

theorem setParam_param (i : Param) (x : F32) (s : State) (j : Param) :
    (s.setParam i x).param j = if j = i then x else s.param j := by
  simp only [param, setParam, Vector.getElem_set, Fin.ext_iff, eq_comm (a := i.val)]

@[simp] theorem setParam_param_same (i : Param) (x : F32) (s : State) : (s.setParam i x).param i = x := by
  simp [setParam_param]

/-- Writing back what a voice context holds changes nothing. -/
@[simp] theorem setVoice_self (n : Note) (s : State) : s.setVoice n (s.voice n) = s := by
  simp [setVoice, voice]

@[simp] theorem allNotesOff_voice (s : State) (n : Note) : s.allNotesOff.voice n = Voice.cleared := by
  simp [voice]

@[simp] theorem reset_voice (n : Note) : State.reset.voice n = Voice.cleared := by
  simp [voice, reset]

@[simp] theorem reset_smoother (i : Param) : State.reset.smoother i = Smoother.atDefault i := by
  fin_cases i <;> rfl

@[simp] theorem reset_param (i : Param) : State.reset.param i = paramDefault i := by
  fin_cases i <;> rfl

/-- Two states with equal fields are equal; the register files may be compared entry by entry. -/
theorem env_ext {e f : Vector (Voice F32) 128}
    (h : ∀ n : Note, e[n.toNat]'n.toNat_lt = f[n.toNat]'n.toNat_lt) : e = f := by
  apply Vector.ext
  intro k hk
  have := h (BitVec.ofNat 7 k)
  simpa [Nat.mod_eq_of_lt hk] using this

/-- Two states are equal when their register files agree entry by entry and their other fields are equal. -/
theorem ext_files {s t : State} (voice : ∀ n, s.voice n = t.voice n) (smoother : ∀ i, s.smoother i = t.smoother i)
    (param : ∀ i, s.param i = t.param i) (al : s.al = t.al) (activeCount : s.activeCount = t.activeCount)
    (inited : s.inited = t.inited) (sampleRate : s.sampleRate = t.sampleRate) (chanCount : s.chanCount = t.chanCount)
    (attackSamples : s.attackSamples = t.attackSamples) (releaseSamples : s.releaseSamples = t.releaseSamples)
    (freshReset : s.freshReset = t.freshReset) (flags : s.flags = t.flags) (host : s.host = t.host)
    (rsp : s.rsp = t.rsp) (events : s.events = t.events) (world : s.world = t.world) : s = t := by
  have hv : s.env = t.env := env_ext voice
  have hs : s.sm = t.sm := Vector.ext fun k hk => smoother ⟨k, hk⟩
  have hp : s.gp = t.gp := Vector.ext fun k hk => param ⟨k, hk⟩
  cases s; cases t; simp_all

/-! ### The first check of a command (R102, R190) -/

theorem whenInited_pos {s : State} (h : s.inited = true) (body : State) : s.whenInited body = body := if_pos h

theorem whenInited_neg {s : State} (h : s.inited = false) (body : State) : s.whenInited body = s.raise .noInit :=
  if_neg (by simp [h])

theorem whenInitedRead_pos {s : State} (h : s.inited = true) (body : State) : s.whenInitedRead body = body := if_pos h

theorem whenInitedRead_neg {s : State} (h : s.inited = false) (body : State) :
    s.whenInitedRead body = (s.raise .noInit).respond 0#32 := if_neg (by simp [h])

/-! ### Flags -/

@[simp] theorem raise_flagged (f g : Flag) (s : State) : (s.raise f).flagged g = (s.flagged g || decide (f = g)) := by
  cases f <;> cases g <;> simp [flagged, Flag.set, Flag.bit]

/-- A list of notes without repetition has at most 128 entries. -/
theorem nodup_length_le {l : List Note} (h : l.Nodup) : l.length ≤ 128 := by
  have := (h.map (f := BitVec.toFin) fun a b e => BitVec.eq_of_toFin_eq e).length_le_card
  simpa using this

end Sys2Proof.Machine.State
end

