-- ==== Sys2Proof/Laws/Voice.lean ====
section
/-! SUPPORT. One voice's envelope machine, over any binding of `NUM` and either setting of the switches
(41_envelope.md). The loop of `VoiceRun` in closed form, stage by stage. -/

namespace Sys2Proof.Machine.Voice

variable {R : Type} (N : Num R) (sw : Switches)

/-! ### Note transitions -/

@[simp] theorem startAttack_stage (c : Count) (v : Voice R) : (v.startAttack N c).stage = .attack := rfl
@[simp] theorem startAttack_level (c : Count) (v : Voice R) : (v.startAttack N c).level = v.level := rfl
@[simp] theorem startAttack_ramp (c : Count) (v : Voice R) : (v.startAttack N c).ramp = c := rfl

/-- The level is continuous across the release (R157). -/
@[simp] theorem startRelease_level (c : Count) (v : Voice R) : (v.startRelease N c).level = v.level := by
  unfold startRelease; split_ifs <;> rfl

/-- A release of a voice that is Off or in Release does nothing (R158). -/
theorem startRelease_idle (c : Count) {v : Voice R} (h : v.stage = .off ∨ v.stage = .release) :
    v.startRelease N c = v := by
  unfold startRelease
  rw [if_neg (by rcases h with h | h <;> simp [h])]

theorem startRelease_live (c : Count) {v : Voice R} (h : v.stage = .attack ∨ v.stage = .sustain) :
    v.startRelease N c = ⟨.release, v.level,
      if c = 0#32 then N.zero else N.div (N.neg v.level) (N.ofNat c.toNat), c⟩ := by
  unfold startRelease
  rw [if_pos h]

/-- A release never takes a voice out of Off, nor to Off (R162). -/
theorem startRelease_off_iff (c : Count) (v : Voice R) : (v.startRelease N c).stage = .off ↔ v.stage = .off := by
  unfold startRelease
  split_ifs with h
  · rcases h with h | h <;> simp [h]
  · rfl

/-! ### Samples -/

@[simp] theorem gainsOf_length (slope : R) (m : Nat) (l : R) : (gainsOf N sw slope m l).length = m := by
  induction m generalizing l with
  | zero => rfl
  | succ m ih => simp [gainsOf, ih]

/-- The j-th gain is the level after j samples (R166). -/
theorem gainsOf_eq_map (slope : R) (m : Nat) (l : R) :
    gainsOf N sw slope m l = (List.range m).map fun j => levelAfter N sw slope j l := by
  induction m generalizing l with
  | zero => rfl
  | succ m ih =>
    rw [List.range_succ_eq_map, gainsOf, ih]
    simp [levelAfter, Function.comp_def]

theorem levelAfter_succ (slope : R) (m : Nat) (l : R) :
    levelAfter N sw slope (m + 1) l = nextLevel N sw slope (levelAfter N sw slope m l) := by
  induction m generalizing l with
  | zero => rfl
  | succ m ih => rw [levelAfter, ih, levelAfter]

@[simp] theorem consume_stage (m : Nat) (v : Voice R) : (v.consume N sw m).stage = v.stage := rfl
@[simp] theorem consume_slope (m : Nat) (v : Voice R) : (v.consume N sw m).slope = v.slope := rfl
@[simp] theorem consume_level (m : Nat) (v : Voice R) :
    (v.consume N sw m).level = levelAfter N sw v.slope m v.level := rfl

theorem consume_ramp_toNat (m : Nat) (v : Voice R) : (v.consume N sw m).ramp.toNat = v.ramp.toNat - m := by
  have := v.ramp.isLt
  show (BitVec.ofNat 32 (v.ramp.toNat - m)).toNat = _
  rw [BitVec.toNat_ofNat, Nat.mod_eq_of_lt (by omega)]

theorem ramp_pos {v : Voice R} (h : v.ramp ≠ 0#32) : 0 < v.ramp.toNat := by
  rw [Nat.pos_iff_ne_zero]
  exact fun h' => h (BitVec.eq_of_toNat_eq (by simpa using h'))

theorem ramp_eq_zero_iff (c : Count) : c = 0#32 ↔ c.toNat = 0 :=
  ⟨fun h => by simp [h], fun h => BitVec.eq_of_toNat_eq (by simpa using h)⟩

/-! ### The loop, stage by stage -/

@[simp] theorem loop_done (passes : Nat) (gains : List R) (v : Voice R) :
    loop N sw passes 0 gains v = ⟨gains, v, false, false⟩ := by
  cases passes <;> simp [loop]

theorem loop_off (passes : Nat) {rem : Nat} (gains : List R) {v : Voice R} (h : v.stage = .off) (hr : rem ≠ 0) :
    loop N sw (passes + 1) rem gains v = ⟨gains, v, false, true⟩ := by
  simp [loop, h, hr]

theorem loop_sustain (passes : Nat) {rem : Nat} (gains : List R) {v : Voice R} (h : v.stage = .sustain) :
    loop N sw (passes + 1) rem gains v =
      ⟨gains ++ gainsOf N sw v.slope rem v.level, { v with level := levelAfter N sw v.slope rem v.level },
        false, false⟩ := by
  by_cases hr : rem = 0
  · subst hr; simp [gainsOf, levelAfter]
  · simp [loop, h, hr]

theorem loop_release_pending (passes : Nat) {rem : Nat} (gains : List R) {v : Voice R} (h : v.stage = .release)
    (h0 : v.ramp = 0#32) (hr : rem ≠ 0) :
    loop N sw (passes + 1) rem gains v = ⟨gains, v.goOff N sw, true, false⟩ := by
  simp [loop, h, h0, hr]

theorem loop_attack_pending (passes : Nat) {rem : Nat} (gains : List R) {v : Voice R} (h : v.stage = .attack)
    (h0 : v.ramp = 0#32) (hr : rem ≠ 0) :
    loop N sw (passes + 2) rem gains v =
      ⟨gains ++ gainsOf N sw N.zero rem N.one,
        ⟨.sustain, levelAfter N sw N.zero rem N.one, N.zero, 0#32⟩, false, false⟩ := by
  rw [loop, if_neg hr]
  simp only [h, h0, if_true]
  rw [loop_sustain N sw passes gains rfl]

/-- A ramp longer than the block: the whole block is consumed in the same stage. -/
theorem loop_ramp_long (passes : Nat) {rem : Nat} (gains : List R) {v : Voice R}
    (h : v.stage = .attack ∨ v.stage = .release) (hlt : rem < v.ramp.toNat) :
    loop N sw (passes + 1) rem gains v =
      ⟨gains ++ gainsOf N sw v.slope rem v.level, v.consume N sw rem, false, false⟩ := by
  by_cases hr : rem = 0
  · subst hr
    have : v.consume N sw 0 = v := by
      cases v; simp [consume, levelAfter]
    simp [gainsOf, this]
  · have h0 : v.ramp ≠ 0#32 := fun h' => by rw [h'] at hlt; simp at hlt
    have hw : (v.consume N sw rem).ramp ≠ 0#32 := by
      rw [Ne, ramp_eq_zero_iff, consume_ramp_toNat]; omega
    rw [loop, if_neg hr]
    rcases h with h | h <;> simp [h, h0, hw, Nat.min_eq_left hlt.le]

/-- A release that ends inside the block: `GoOff` at its last sample, and nothing after it (R170). -/
theorem loop_release_short (passes : Nat) {rem : Nat} (gains : List R) {v : Voice R} (h : v.stage = .release)
    (h0 : v.ramp ≠ 0#32) (hle : v.ramp.toNat ≤ rem) :
    loop N sw (passes + 1) rem gains v =
      ⟨gains ++ gainsOf N sw v.slope v.ramp.toNat v.level, (v.consume N sw v.ramp.toNat).goOff N sw,
        true, false⟩ := by
  have hp := ramp_pos h0
  have hw : (v.consume N sw v.ramp.toNat).ramp = 0#32 := by
    rw [ramp_eq_zero_iff, consume_ramp_toNat]; omega
  rw [loop, if_neg (by omega)]
  simp [h, h0, hw, Nat.min_eq_right hle]

/-- An attack that ends inside the block: the rest of the block in Sustain (R168). -/
theorem loop_attack_short (passes : Nat) {rem : Nat} (gains : List R) {v : Voice R} (h : v.stage = .attack)
    (h0 : v.ramp ≠ 0#32) (hle : v.ramp.toNat ≤ rem) :
    loop N sw (passes + 2) rem gains v =
      ⟨gains ++ gainsOf N sw v.slope v.ramp.toNat v.level ++
          gainsOf N sw N.zero (rem - v.ramp.toNat) (levelAfter N sw v.slope v.ramp.toNat v.level),
        ⟨.sustain, levelAfter N sw N.zero (rem - v.ramp.toNat) (levelAfter N sw v.slope v.ramp.toNat v.level),
          N.zero, 0#32⟩, false, false⟩ := by
  have hp := ramp_pos h0
  have hw : (v.consume N sw v.ramp.toNat).ramp = 0#32 := by
    rw [ramp_eq_zero_iff, consume_ramp_toNat]; omega
  rw [loop, if_neg (by omega)]
  simp only [h, h0, if_false, Nat.min_eq_right hle, hw, if_true]
  rw [loop_sustain N sw passes _ rfl]
  simp [consume]

/-- Everything `VoiceRun` can do to a voice, by stage (R164). -/
theorem run_cases (cnt : Nat) (v : Voice R) :
    (cnt = 0 ∧ v.run N sw cnt = ⟨[], v, false, false⟩) ∨
    (cnt ≠ 0 ∧ v.stage = .off ∧ v.run N sw cnt = ⟨[], v, false, true⟩) ∨
    (v.stage = .sustain ∧ v.run N sw cnt =
      ⟨gainsOf N sw v.slope cnt v.level, { v with level := levelAfter N sw v.slope cnt v.level }, false, false⟩) ∨
    ((v.stage = .attack ∨ v.stage = .release) ∧ cnt < v.ramp.toNat ∧
      v.run N sw cnt = ⟨gainsOf N sw v.slope cnt v.level, v.consume N sw cnt, false, false⟩) ∨
    (cnt ≠ 0 ∧ v.stage = .attack ∧ v.ramp = 0#32 ∧ v.run N sw cnt =
      ⟨gainsOf N sw N.zero cnt N.one, ⟨.sustain, levelAfter N sw N.zero cnt N.one, N.zero, 0#32⟩, false, false⟩) ∨
    (v.stage = .attack ∧ v.ramp ≠ 0#32 ∧ v.ramp.toNat ≤ cnt ∧ v.run N sw cnt =
      ⟨gainsOf N sw v.slope v.ramp.toNat v.level ++
          gainsOf N sw N.zero (cnt - v.ramp.toNat) (levelAfter N sw v.slope v.ramp.toNat v.level),
        ⟨.sustain, levelAfter N sw N.zero (cnt - v.ramp.toNat) (levelAfter N sw v.slope v.ramp.toNat v.level),
          N.zero, 0#32⟩, false, false⟩) ∨
    (cnt ≠ 0 ∧ v.stage = .release ∧ v.ramp = 0#32 ∧ v.run N sw cnt = ⟨[], v.goOff N sw, true, false⟩) ∨
    (v.stage = .release ∧ v.ramp ≠ 0#32 ∧ v.ramp.toNat ≤ cnt ∧ v.run N sw cnt =
      ⟨gainsOf N sw v.slope v.ramp.toNat v.level, (v.consume N sw v.ramp.toNat).goOff N sw, true, false⟩) := by
  unfold run
  by_cases hc : cnt = 0
  · left; subst hc; exact ⟨rfl, loop_done N sw 2 [] v⟩
  right
  cases hs : v.stage with
  | off => left; exact ⟨hc, rfl, loop_off N sw 1 [] hs hc⟩
  | sustain => right; left; exact ⟨rfl, by rw [loop_sustain N sw 1 [] hs, ← hs]; simp⟩
  | attack =>
    by_cases h0 : v.ramp = 0#32
    · right; right; right; left
      exact ⟨hc, rfl, h0, by simpa using loop_attack_pending N sw 0 [] hs h0 hc⟩
    by_cases hlt : cnt < v.ramp.toNat
    · right; right; left
      exact ⟨.inl rfl, hlt, by simpa using loop_ramp_long N sw 1 [] (.inl hs) hlt⟩
    · right; right; right; right; left
      exact ⟨rfl, h0, not_lt.1 hlt, by simpa using loop_attack_short N sw 0 [] hs h0 (not_lt.1 hlt)⟩
  | release =>
    by_cases h0 : v.ramp = 0#32
    · right; right; right; right; right; left
      exact ⟨hc, rfl, h0, by simpa using loop_release_pending N sw 1 [] hs h0 hc⟩
    by_cases hlt : cnt < v.ramp.toNat
    · right; right; left
      exact ⟨.inr rfl, hlt, by simpa using loop_ramp_long N sw 1 [] (.inr hs) hlt⟩
    · right; right; right; right; right; right
      exact ⟨rfl, h0, not_lt.1 hlt, by simpa using loop_release_short N sw 1 [] hs h0 (not_lt.1 hlt)⟩

/-- `VoiceRun` finds a defect exactly in an Off voice, and then does nothing to it (R173). -/
theorem run_of_defect {cnt : Nat} {v : Voice R} (h : (v.run N sw cnt).defect = true) :
    cnt ≠ 0 ∧ v.stage = .off ∧ v.run N sw cnt = ⟨[], v, false, true⟩ := by
  have no : ∀ {g w e}, v.run N sw cnt = ⟨g, w, e, false⟩ → False := fun hr => by rw [hr] at h; cases h
  rcases run_cases N sw cnt v with
    ⟨_, hr⟩ | hr | ⟨_, hr⟩ | ⟨_, _, hr⟩ | ⟨_, _, _, hr⟩ | ⟨_, _, _, hr⟩ | ⟨_, _, _, hr⟩ | ⟨_, _, _, hr⟩
  · exact (no hr).elim
  · exact hr
  all_goals exact (no hr).elim

theorem run_off {cnt : Nat} {v : Voice R} (hc : cnt ≠ 0) (h : v.stage = .off) :
    v.run N sw cnt = ⟨[], v, false, true⟩ := loop_off N sw 1 [] h hc

@[simp] theorem run_zero (v : Voice R) : v.run N sw 0 = ⟨[], v, false, false⟩ := loop_done N sw 2 [] v

theorem levelAfter_add (slope : R) (a b : Nat) (l : R) :
    levelAfter N sw slope (a + b) l = levelAfter N sw slope b (levelAfter N sw slope a l) := by
  induction a generalizing l with
  | zero => rw [Nat.zero_add]; rfl
  | succ a ih => rw [show a + 1 + b = a + b + 1 by omega]; exact ih _

theorem gainsOf_add (slope : R) (a b : Nat) (l : R) :
    gainsOf N sw slope (a + b) l = gainsOf N sw slope a l ++ gainsOf N sw slope b (levelAfter N sw slope a l) := by
  induction a generalizing l with
  | zero => rw [Nat.zero_add]; rfl
  | succ a ih =>
    rw [show a + 1 + b = a + b + 1 by omega]
    simp only [gainsOf, List.cons_append, levelAfter]
    rw [ih]

/-- A run leaves the stage, completes an attack or completes a release (R162). -/
theorem run_stage (cnt : Nat) (v : Voice R) :
    (v.run N sw cnt).voice.stage = v.stage ∨
      (v.stage = .attack ∧ (v.run N sw cnt).voice.stage = .sustain) ∨
      (v.stage = .release ∧ (v.run N sw cnt).voice.stage = .off) := by
  rcases run_cases N sw cnt v with
    ⟨_, hr⟩ | ⟨_, _, hr⟩ | ⟨h, hr⟩ | ⟨_, _, hr⟩ | ⟨_, h, _, hr⟩ | ⟨h, _, _, hr⟩ | ⟨_, h, _, hr⟩ | ⟨h, _, _, hr⟩ <;>
    simp_all [goOff]

end Sys2Proof.Machine.Voice
end

