-- ==== Sys2Proof/Laws/Block.lean ====
section
/-! SUPPORT. Block processing (42_block_and_system.md section 3): steps 1 and 2, and one voice of step 4. -/

namespace Sys2Proof.Machine.State

/-! ### Step 1 (R195) -/

/-- Every smoother is stepped once. -/
@[simp] theorem latchAll_smoother (s : State) (i : Param) :
    s.latchAll.smoother i = (s.smoother i).advance binary32 := by
  fin_cases i <;> simp [latchAll, paramOrder, latch, setSmoother_smoother]

/-- Every latch holds the value before the step. -/
@[simp] theorem latchAll_param (s : State) (i : Param) : s.latchAll.param i = (s.smoother i).cur := by
  fin_cases i <;> simp [latchAll, paramOrder, latch, setParam_param, setSmoother_smoother]

@[simp] theorem latchAll_env (s : State) : s.latchAll.env = s.env := rfl
@[simp] theorem latchAll_al (s : State) : s.latchAll.al = s.al := rfl
@[simp] theorem latchAll_activeCount (s : State) : s.latchAll.activeCount = s.activeCount := rfl
@[simp] theorem latchAll_inited (s : State) : s.latchAll.inited = s.inited := rfl
@[simp] theorem latchAll_sampleRate (s : State) : s.latchAll.sampleRate = s.sampleRate := rfl
@[simp] theorem latchAll_chanCount (s : State) : s.latchAll.chanCount = s.chanCount := rfl
@[simp] theorem latchAll_attackSamples (s : State) : s.latchAll.attackSamples = s.attackSamples := rfl
@[simp] theorem latchAll_releaseSamples (s : State) : s.latchAll.releaseSamples = s.releaseSamples := rfl
@[simp] theorem latchAll_freshReset (s : State) : s.latchAll.freshReset = s.freshReset := rfl
@[simp] theorem latchAll_flags (s : State) : s.latchAll.flags = s.flags := rfl
@[simp] theorem latchAll_host (s : State) : s.latchAll.host = s.host := rfl
@[simp] theorem latchAll_rsp (s : State) : s.latchAll.rsp = s.rsp := rfl
@[simp] theorem latchAll_events (s : State) : s.latchAll.events = s.events := rfl
@[simp] theorem latchAll_world (s : State) : s.latchAll.world = s.world := rfl
@[simp] theorem latchAll_voice (s : State) (n : Note) : s.latchAll.voice n = s.voice n := rfl

/-! ### The block before its voices run -/

section openBlock
variable (frames offset : Count) (s : State)

@[simp] theorem openBlock_env : (s.openBlock frames offset).env = s.env := by simp [openBlock]
@[simp] theorem openBlock_al : (s.openBlock frames offset).al = s.al := by simp [openBlock]
@[simp] theorem openBlock_activeCount : (s.openBlock frames offset).activeCount = s.activeCount := by simp [openBlock]
@[simp] theorem openBlock_inited : (s.openBlock frames offset).inited = s.inited := by simp [openBlock]
@[simp] theorem openBlock_sampleRate : (s.openBlock frames offset).sampleRate = s.sampleRate := by simp [openBlock]
@[simp] theorem openBlock_chanCount : (s.openBlock frames offset).chanCount = s.chanCount := by simp [openBlock]
@[simp] theorem openBlock_freshReset : (s.openBlock frames offset).freshReset = false := by simp [openBlock]
@[simp] theorem openBlock_flags : (s.openBlock frames offset).flags = s.flags := by simp [openBlock]
@[simp] theorem openBlock_host : (s.openBlock frames offset).host = s.host := by simp [openBlock]
@[simp] theorem openBlock_rsp : (s.openBlock frames offset).rsp = s.rsp := by simp [openBlock]
@[simp] theorem openBlock_events :
    (s.openBlock frames offset).events = s.events ++ [.blockBegin frames offset] := by simp [openBlock]
@[simp] theorem openBlock_world : (s.openBlock frames offset).world = s.world := by simp [openBlock]
@[simp] theorem openBlock_voice (n : Note) : (s.openBlock frames offset).voice n = s.voice n := by
  rw [voice, openBlock_env]; rfl

@[simp] theorem openBlock_smoother (i : Param) :
    (s.openBlock frames offset).smoother i = (s.smoother i).advance binary32 := by
  have h : (s.openBlock frames offset).sm = (s.emit (.blockBegin frames offset)).latchAll.sm := by simp [openBlock]
  rw [smoother, h]
  exact latchAll_smoother (s.emit (.blockBegin frames offset)) i

@[simp] theorem openBlock_param (i : Param) : (s.openBlock frames offset).param i = (s.smoother i).cur := by
  have h : (s.openBlock frames offset).gp = (s.emit (.blockBegin frames offset)).latchAll.gp := by simp [openBlock]
  rw [param, h]
  exact latchAll_param (s.emit (.blockBegin frames offset)) i

/-- The derived counts come from the values just latched (R196). -/
@[simp] theorem openBlock_attackSamples :
    (s.openBlock frames offset).attackSamples = durationCount (s.smoother 3).cur s.sampleRate := by
  simp [openBlock]

@[simp] theorem openBlock_releaseSamples :
    (s.openBlock frames offset).releaseSamples = durationCount (s.smoother 4).cur s.sampleRate := by
  simp [openBlock]

end openBlock

/-! ### One voice of step 4 (R164, R173, R174) -/

/-- Everything one entry of the traversal can do: a voice found Off raises `F_INVARIANT` and is left as it is; any
other voice is replaced and its gains follow its `OscParams`; and a voice whose release completed is retired. -/
theorem runVoice_cases (cnt : Nat) (s : State) (n : Note) :
    (((s.voice n).run binary32 switches cnt).defect = true ∧
      s.runVoice cnt n = (s.emit (.oscParams n s.snapshot)).raise .invariant) ∨
    (((s.voice n).run binary32 switches cnt).defect = false ∧
      ((s.voice n).run binary32 switches cnt).ended = false ∧
      s.runVoice cnt n = setVoice n ((s.voice n).run binary32 switches cnt).voice
        { s with events := s.events ++ .oscParams n s.snapshot ::
            gainEvents n ((s.voice n).run binary32 switches cnt).gains }) ∨
    (((s.voice n).run binary32 switches cnt).defect = false ∧
      ((s.voice n).run binary32 switches cnt).ended = true ∧
      s.runVoice cnt n = retire n (setVoice n ((s.voice n).run binary32 switches cnt).voice
        { s with events := s.events ++ .oscParams n s.snapshot ::
            gainEvents n ((s.voice n).run binary32 switches cnt).gains })) := by
  have hv : (s.emit (.oscParams n s.snapshot)).voice n = s.voice n := rfl
  rw [runVoice, voiceRun, hv]
  cases hd : ((s.voice n).run binary32 switches cnt).defect
  · rw [if_neg (by simp)]
    cases he : ((s.voice n).run binary32 switches cnt).ended
    · right; left; refine ⟨rfl, rfl, ?_⟩
      rw [if_neg (by simp)]; simp [emit]
    · right; right; refine ⟨rfl, rfl, ?_⟩
      rw [if_pos rfl]; simp [emit]
  · left; exact ⟨rfl, if_pos rfl⟩

section runVoice
variable (cnt : Nat) (s : State) (n : Note)

@[simp] theorem runVoice_sm : (s.runVoice cnt n).sm = s.sm := by
  rcases runVoice_cases cnt s n with ⟨_, h⟩ | ⟨_, _, h⟩ | ⟨_, _, h⟩ <;> rw [h] <;> rfl
@[simp] theorem runVoice_gp : (s.runVoice cnt n).gp = s.gp := by
  rcases runVoice_cases cnt s n with ⟨_, h⟩ | ⟨_, _, h⟩ | ⟨_, _, h⟩ <;> rw [h] <;> rfl
@[simp] theorem runVoice_inited : (s.runVoice cnt n).inited = s.inited := by
  rcases runVoice_cases cnt s n with ⟨_, h⟩ | ⟨_, _, h⟩ | ⟨_, _, h⟩ <;> rw [h] <;> rfl
@[simp] theorem runVoice_sampleRate : (s.runVoice cnt n).sampleRate = s.sampleRate := by
  rcases runVoice_cases cnt s n with ⟨_, h⟩ | ⟨_, _, h⟩ | ⟨_, _, h⟩ <;> rw [h] <;> rfl
@[simp] theorem runVoice_chanCount : (s.runVoice cnt n).chanCount = s.chanCount := by
  rcases runVoice_cases cnt s n with ⟨_, h⟩ | ⟨_, _, h⟩ | ⟨_, _, h⟩ <;> rw [h] <;> rfl
@[simp] theorem runVoice_attackSamples : (s.runVoice cnt n).attackSamples = s.attackSamples := by
  rcases runVoice_cases cnt s n with ⟨_, h⟩ | ⟨_, _, h⟩ | ⟨_, _, h⟩ <;> rw [h] <;> rfl
@[simp] theorem runVoice_releaseSamples : (s.runVoice cnt n).releaseSamples = s.releaseSamples := by
  rcases runVoice_cases cnt s n with ⟨_, h⟩ | ⟨_, _, h⟩ | ⟨_, _, h⟩ <;> rw [h] <;> rfl
@[simp] theorem runVoice_freshReset : (s.runVoice cnt n).freshReset = s.freshReset := by
  rcases runVoice_cases cnt s n with ⟨_, h⟩ | ⟨_, _, h⟩ | ⟨_, _, h⟩ <;> rw [h] <;> rfl
@[simp] theorem runVoice_host : (s.runVoice cnt n).host = s.host := by
  rcases runVoice_cases cnt s n with ⟨_, h⟩ | ⟨_, _, h⟩ | ⟨_, _, h⟩ <;> rw [h] <;> rfl
@[simp] theorem runVoice_rsp : (s.runVoice cnt n).rsp = s.rsp := by
  rcases runVoice_cases cnt s n with ⟨_, h⟩ | ⟨_, _, h⟩ | ⟨_, _, h⟩ <;> rw [h] <;> rfl
@[simp] theorem runVoice_world : (s.runVoice cnt n).world = s.world := by
  rcases runVoice_cases cnt s n with ⟨_, h⟩ | ⟨_, _, h⟩ | ⟨_, _, h⟩ <;> rw [h] <;> rfl

/-- One voice's run leaves every other voice alone. -/
theorem runVoice_voice_other {m : Note} (hm : m ≠ n) : (s.runVoice cnt n).voice m = s.voice m := by
  rcases runVoice_cases cnt s n with ⟨_, h⟩ | ⟨_, _, h⟩ | ⟨_, _, h⟩ <;> rw [h]
  · rfl
  · rw [setVoice_voice_other hm]; rfl
  · rw [retire_voice, setVoice_voice_other hm]; rfl

end runVoice

/-- A property that one entry of the traversal keeps, the traversal keeps. -/
theorem foldl_runVoice_keeps {P : State → Prop} (cnt : Nat)
    (h : ∀ s n, P s → P (s.runVoice cnt n)) (l : List Note) {s : State} (hs : P s) :
    P (l.foldl (runVoice cnt) s) := by
  induction l generalizing s with
  | nil => exact hs
  | cons a l ih => exact ih (h s a hs)

/-! ### The traversal (R197) -/

section traversal
variable (cnt : Nat) (l : List Note) (s : State)

@[simp] theorem foldl_runVoice_sm : (l.foldl (runVoice cnt) s).sm = s.sm :=
  foldl_runVoice_keeps (P := fun t => t.sm = s.sm) cnt (fun t n h => by simp [h]) l rfl
@[simp] theorem foldl_runVoice_gp : (l.foldl (runVoice cnt) s).gp = s.gp :=
  foldl_runVoice_keeps (P := fun t => t.gp = s.gp) cnt (fun t n h => by simp [h]) l rfl
@[simp] theorem foldl_runVoice_inited : (l.foldl (runVoice cnt) s).inited = s.inited :=
  foldl_runVoice_keeps (P := fun t => t.inited = s.inited) cnt (fun t n h => by simp [h]) l rfl
@[simp] theorem foldl_runVoice_sampleRate : (l.foldl (runVoice cnt) s).sampleRate = s.sampleRate :=
  foldl_runVoice_keeps (P := fun t => t.sampleRate = s.sampleRate) cnt (fun t n h => by simp [h]) l rfl
@[simp] theorem foldl_runVoice_chanCount : (l.foldl (runVoice cnt) s).chanCount = s.chanCount :=
  foldl_runVoice_keeps (P := fun t => t.chanCount = s.chanCount) cnt (fun t n h => by simp [h]) l rfl
@[simp] theorem foldl_runVoice_attackSamples : (l.foldl (runVoice cnt) s).attackSamples = s.attackSamples :=
  foldl_runVoice_keeps (P := fun t => t.attackSamples = s.attackSamples) cnt (fun t n h => by simp [h]) l rfl
@[simp] theorem foldl_runVoice_releaseSamples : (l.foldl (runVoice cnt) s).releaseSamples = s.releaseSamples :=
  foldl_runVoice_keeps (P := fun t => t.releaseSamples = s.releaseSamples) cnt (fun t n h => by simp [h]) l rfl
@[simp] theorem foldl_runVoice_freshReset : (l.foldl (runVoice cnt) s).freshReset = s.freshReset :=
  foldl_runVoice_keeps (P := fun t => t.freshReset = s.freshReset) cnt (fun t n h => by simp [h]) l rfl
@[simp] theorem foldl_runVoice_host : (l.foldl (runVoice cnt) s).host = s.host :=
  foldl_runVoice_keeps (P := fun t => t.host = s.host) cnt (fun t n h => by simp [h]) l rfl
@[simp] theorem foldl_runVoice_rsp : (l.foldl (runVoice cnt) s).rsp = s.rsp :=
  foldl_runVoice_keeps (P := fun t => t.rsp = s.rsp) cnt (fun t n h => by simp [h]) l rfl
@[simp] theorem foldl_runVoice_world : (l.foldl (runVoice cnt) s).world = s.world :=
  foldl_runVoice_keeps (P := fun t => t.world = s.world) cnt (fun t n h => by simp [h]) l rfl

end traversal

/-- What one entry emits (R197): `OscParams`, the gains, `OscDestroy` if the release completed. -/
def entryEvents (p : Snapshot) (r : VoiceRun F32) (n : Note) : List Event :=
  .oscParams n p :: gainEvents n r.gains ++ if r.ended = true then [.oscDestroy n] else []

section entry
variable (cnt : Nat) (s : State) (n : Note)

@[simp] theorem runVoice_snapshot : (s.runVoice cnt n).snapshot = s.snapshot := by
  simp [snapshot, param]

theorem runVoice_events :
    (s.runVoice cnt n).events =
      s.events ++ entryEvents s.snapshot ((s.voice n).run binary32 switches cnt) n := by
  rcases runVoice_cases cnt s n with ⟨hd, h⟩ | ⟨_, he, h⟩ | ⟨_, he, h⟩ <;> rw [h]
  · rw [(Voice.run_of_defect _ _ hd).2.2]; simp [entryEvents, gainEvents]
  · simp [entryEvents, he]
  · simp [entryEvents, he]

theorem runVoice_al :
    (s.runVoice cnt n).al =
      s.al.filter fun m => !(decide (m = n) && ((s.voice m).run binary32 switches cnt).ended) := by
  have keep : ((s.voice n).run binary32 switches cnt).ended = false →
      s.al = s.al.filter fun m => !(decide (m = n) && ((s.voice m).run binary32 switches cnt).ended) := by
    intro he
    rw [List.filter_eq_self.2]
    intro m _
    by_cases hm : m = n
    · subst hm; simp [he]
    · simp [hm]
  rcases runVoice_cases cnt s n with ⟨hd, h⟩ | ⟨_, he, h⟩ | ⟨_, he, h⟩ <;> rw [h]
  · exact keep (by rw [(Voice.run_of_defect _ _ hd).2.2])
  · exact keep he
  · refine List.filter_congr fun m _ => ?_
    by_cases hm : m = n
    · subst hm; simp [he]
    · simp [hm]

theorem runVoice_activeCount :
    (s.runVoice cnt n).activeCount =
      s.activeCount - if ((s.voice n).run binary32 switches cnt).ended = true then 1#8 else 0#8 := by
  rcases runVoice_cases cnt s n with ⟨hd, h⟩ | ⟨_, he, h⟩ | ⟨_, he, h⟩ <;> rw [h]
  · rw [(Voice.run_of_defect _ _ hd).2.2]; simp
  · simp [he]
  · simp [he]

theorem runVoice_flags :
    (s.runVoice cnt n).flags =
      if ((s.voice n).run binary32 switches cnt).defect = true then Flag.invariant.set s.flags else s.flags := by
  rcases runVoice_cases cnt s n with ⟨hd, h⟩ | ⟨hd, _, h⟩ | ⟨hd, _, h⟩ <;> rw [h] <;> simp [hd]

theorem runVoice_voice (m : Note) :
    (s.runVoice cnt n).voice m =
      if m = n then ((s.voice n).run binary32 switches cnt).voice else s.voice m := by
  by_cases hm : m = n
  · subst hm
    rw [if_pos rfl]
    rcases runVoice_cases cnt s m with ⟨hd, h⟩ | ⟨_, _, h⟩ | ⟨_, _, h⟩ <;> rw [h]
    · rw [(Voice.run_of_defect _ _ hd).2.2]; simp
    · simp
    · simp
  · rw [if_neg hm, runVoice_voice_other cnt s n hm]

end entry

/-! ### The traversal of a list without repetition: every entry finds its voice as it stood -/

section nodup
variable (cnt : Nat)

theorem foldl_runVoice_voice {l : List Note} (hl : l.Nodup) (s : State) (m : Note) :
    (l.foldl (runVoice cnt) s).voice m =
      if m ∈ l then ((s.voice m).run binary32 switches cnt).voice else s.voice m := by
  induction l generalizing s with
  | nil => simp
  | cons a l ih =>
    rw [List.nodup_cons] at hl
    rw [List.foldl_cons, ih hl.2, runVoice_voice]
    by_cases hm : m = a
    · subst hm; simp [hl.1]
    · simp [hm]

theorem foldl_runVoice_al {l : List Note} (hl : l.Nodup) (s : State) :
    (l.foldl (runVoice cnt) s).al =
      s.al.filter fun m => !(decide (m ∈ l) && ((s.voice m).run binary32 switches cnt).ended) := by
  induction l generalizing s with
  | nil => simp
  | cons a l ih =>
    rw [List.nodup_cons] at hl
    rw [List.foldl_cons, ih hl.2, runVoice_al, List.filter_filter]
    refine List.filter_congr fun m _ => ?_
    rw [runVoice_voice]
    by_cases hm : m = a
    · subst hm; simp [hl.1]
    · simp [hm]

theorem foldl_runVoice_activeCount {l : List Note} (hl : l.Nodup) (s : State) :
    (l.foldl (runVoice cnt) s).activeCount =
      s.activeCount - BitVec.ofNat 8 (l.countP fun n => ((s.voice n).run binary32 switches cnt).ended) := by
  induction l generalizing s with
  | nil => simp
  | cons a l ih =>
    rw [List.nodup_cons] at hl
    have hc : (l.countP fun n => (((s.runVoice cnt a).voice n).run binary32 switches cnt).ended) =
        l.countP fun n => ((s.voice n).run binary32 switches cnt).ended := by
      refine List.countP_congr fun n hn => ?_
      rw [runVoice_voice, if_neg (ne_of_mem_of_not_mem hn hl.1)]
    rw [List.foldl_cons, ih hl.2, runVoice_activeCount, hc, List.countP_cons, BitVec.ofNat_add]
    cases ((s.voice a).run binary32 switches cnt).ended with
    | false => simp
    | true => simp; bv_omega

theorem foldl_runVoice_flags {l : List Note} (hl : l.Nodup) (s : State) :
    (l.foldl (runVoice cnt) s).flags =
      if l.any (fun n => ((s.voice n).run binary32 switches cnt).defect) = true
        then Flag.invariant.set s.flags else s.flags := by
  have idem : ∀ f : BitVec 4, Flag.invariant.set (Flag.invariant.set f) = Flag.invariant.set f := by decide
  induction l generalizing s with
  | nil => simp
  | cons a l ih =>
    rw [List.nodup_cons] at hl
    have hc : (l.any fun n => (((s.runVoice cnt a).voice n).run binary32 switches cnt).defect) =
        l.any fun n => ((s.voice n).run binary32 switches cnt).defect := by
      rw [Bool.eq_iff_iff, List.any_eq_true, List.any_eq_true]
      refine exists_congr fun n => and_congr_right fun hn => ?_
      rw [runVoice_voice, if_neg (ne_of_mem_of_not_mem hn hl.1)]
    rw [List.foldl_cons, ih hl.2, runVoice_flags, hc, List.any_cons]
    cases ((s.voice a).run binary32 switches cnt).defect <;>
      cases (l.any fun n => ((s.voice n).run binary32 switches cnt).defect) <;> simp [idem]

theorem foldl_runVoice_events {l : List Note} (hl : l.Nodup) (s : State) :
    (l.foldl (runVoice cnt) s).events =
      s.events ++ l.flatMap fun n => entryEvents s.snapshot ((s.voice n).run binary32 switches cnt) n := by
  induction l generalizing s with
  | nil => simp
  | cons a l ih =>
    rw [List.nodup_cons] at hl
    have hc : (l.flatMap fun n => entryEvents (s.runVoice cnt a).snapshot
        (((s.runVoice cnt a).voice n).run binary32 switches cnt) n) =
        l.flatMap fun n => entryEvents s.snapshot ((s.voice n).run binary32 switches cnt) n := by
      refine List.flatMap_congr fun n hn => ?_
      rw [runVoice_voice, if_neg (ne_of_mem_of_not_mem hn hl.1), runVoice_snapshot]
    rw [List.foldl_cons, ih hl.2, hc, runVoice_events, List.flatMap_cons, List.append_assoc]

end nodup

/-! ### A whole block -/

section processBlock
variable (frames offset : Count) (s : State)

theorem processBlock_eq :
    s.processBlock frames offset =
      (s.al.foldl (runVoice frames.toNat) (s.openBlock frames offset)).emit .blockEnd := by
  rw [processBlock, openBlock_al]

@[simp] theorem processBlock_inited : (s.processBlock frames offset).inited = s.inited := by simp [processBlock_eq]
@[simp] theorem processBlock_sampleRate : (s.processBlock frames offset).sampleRate = s.sampleRate := by
  simp [processBlock_eq]
@[simp] theorem processBlock_chanCount : (s.processBlock frames offset).chanCount = s.chanCount := by
  simp [processBlock_eq]
@[simp] theorem processBlock_freshReset : (s.processBlock frames offset).freshReset = false := by
  simp [processBlock_eq]
@[simp] theorem processBlock_host : (s.processBlock frames offset).host = s.host := by simp [processBlock_eq]
@[simp] theorem processBlock_rsp : (s.processBlock frames offset).rsp = s.rsp := by simp [processBlock_eq]
@[simp] theorem processBlock_world : (s.processBlock frames offset).world = s.world := by simp [processBlock_eq]
@[simp] theorem processBlock_attackSamples :
    (s.processBlock frames offset).attackSamples = durationCount (s.smoother 3).cur s.sampleRate := by
  simp [processBlock_eq]
@[simp] theorem processBlock_releaseSamples :
    (s.processBlock frames offset).releaseSamples = durationCount (s.smoother 4).cur s.sampleRate := by
  simp [processBlock_eq]

@[simp] theorem processBlock_smoother (i : Param) :
    (s.processBlock frames offset).smoother i = (s.smoother i).advance binary32 := by
  have h : (s.processBlock frames offset).sm = (s.openBlock frames offset).sm := by simp [processBlock_eq]
  rw [smoother, h]; exact openBlock_smoother frames offset s i

@[simp] theorem processBlock_param (i : Param) :
    (s.processBlock frames offset).param i = (s.smoother i).cur := by
  have h : (s.processBlock frames offset).gp = (s.openBlock frames offset).gp := by simp [processBlock_eq]
  rw [param, h]; exact openBlock_param frames offset s i

/-- A block raises no flag but `F_INVARIANT`. -/
theorem processBlock_flags_cases :
    (s.processBlock frames offset).flags = s.flags ∨
      (s.processBlock frames offset).flags = Flag.invariant.set s.flags := by
  have idem : ∀ f : BitVec 4, Flag.invariant.set (Flag.invariant.set f) = Flag.invariant.set f := by decide
  rw [processBlock_eq, emit_flags]
  refine foldl_runVoice_keeps (P := fun t => t.flags = s.flags ∨ t.flags = Flag.invariant.set s.flags) _
    (fun t n h => ?_) _ (.inl (openBlock_flags frames offset s))
  rw [runVoice_flags]
  split_ifs
  · rcases h with h | h <;> rw [h]
    · exact .inr rfl
    · exact .inr (idem _)
  · exact h

end processBlock

end Sys2Proof.Machine.State
end

