-- ==== Sys2Proof/Laws/Environment.lean ====
section
/-! SUPPORT. The output buffer: reading after each operation, and that every operation keeps the canonical form (R61,
R75 to R77). The maps of R206. What each event does to the oscillators (R74, R78). -/

namespace Sys2Proof.Machine

/-- The master gain leaves an unlisted sample unlisted. -/
theorem scaled_unlisted : F32.mul unlisted masterGain = unlisted := by decide

/-! ### Reading -/

@[simp] theorem readSample_nil (j : Nat) : readSample [] j = unlisted := rfl

theorem readSample_cons (k : Nat) (x : F32) (m : Samples) (j : Nat) :
    readSample ((k, x) :: m) j = if k = j then x else readSample m j := rfl

/-- A frame below every listed one is unlisted. -/
theorem readSample_of_lt {m : Samples} {j : Nat} (h : ∀ e ∈ m, j < e.1) : readSample m j = unlisted := by
  induction m with
  | nil => rfl
  | cons e m ih =>
    have := h e (by simp)
    rw [readSample_cons, if_neg (by omega)]
    exact ih fun e he => h e (by simp [he])

theorem samplesWf_cons {k : Nat} {x : F32} {m : Samples} :
    samplesWf ((k, x) :: m) = true ↔ x ≠ unlisted ∧ (∀ e ∈ m, k < e.1) ∧ samplesWf m = true := by
  simp [samplesWf, and_assoc]

/-- Reading after a write: the written sample holds the value, every other sample what it held. -/
theorem readSample_writeSample {m : Samples} (h : samplesWf m = true) (j : Nat) (v : F32) (i : Nat) :
    readSample (writeSample m j v) i = if i = j then v else readSample m i := by
  induction m with
  | nil =>
    by_cases hv : v = unlisted
    · simp [writeSample, hv]
    · simp only [writeSample, if_neg hv, readSample_cons, eq_comm (a := j), readSample_nil]
  | cons e m ih =>
    obtain ⟨k, x⟩ := e
    obtain ⟨_, hlt, hw⟩ := samplesWf_cons.1 h
    have gone : ∀ i, i ≤ k → i ≠ k → readSample ((k, x) :: m) i = unlisted := by
      intro i hi hne
      rw [readSample_cons, if_neg (Ne.symm hne)]
      exact readSample_of_lt fun e he => by have := hlt e he; omega
    rw [writeSample]
    by_cases h1 : j < k
    · rw [if_pos h1]
      by_cases hv : v = unlisted
      · rw [if_pos hv]
        by_cases h3 : i = j
        · rw [if_pos h3, hv, gone i (by omega) (by omega)]
        · rw [if_neg h3]
      · rw [if_neg hv, readSample_cons]
        by_cases h3 : i = j
        · rw [if_pos h3, if_pos h3.symm]
        · rw [if_neg h3, if_neg (Ne.symm h3)]
    · rw [if_neg h1]
      by_cases h2 : j = k
      · rw [if_pos h2]
        by_cases h3 : i = j
        · rw [if_pos h3]
          by_cases hv : v = unlisted
          · rw [if_pos hv, hv]; exact readSample_of_lt fun e he => by have := hlt e he; omega
          · rw [if_neg hv, readSample_cons, if_pos h3.symm]
        · rw [if_neg h3]
          by_cases hv : v = unlisted
          · rw [if_pos hv, readSample_cons, if_neg (by omega)]
          · rw [if_neg hv, readSample_cons, readSample_cons, if_neg (by omega), if_neg (by omega)]
      · rw [if_neg h2, readSample_cons, readSample_cons, ih hw]
        by_cases h3 : k = i
        · rw [if_pos h3, if_pos h3, if_neg (by omega)]
        · rw [if_neg h3, if_neg h3]

theorem inRegion_iff (o n j : Nat) : inRegion o n j = true ↔ o ≤ j ∧ j < o + n := by simp [inRegion]

theorem readSample_accumulate {m : Samples} (h : samplesWf m = true) (j : Nat) (v : F32) (i : Nat) :
    readSample (accumulate j v m) i = if i = j then F32.add (readSample m i) v else readSample m i := by
  rw [accumulate, readSample_writeSample h]
  split_ifs with e
  · rw [e]
  · rfl

/-- Reading after a region is zeroed (R75). -/
theorem readSample_zeroRegion (o n : Nat) (m : Samples) (i : Nat) :
    readSample (zeroRegion o n m) i = if inRegion o n i = true then unlisted else readSample m i := by
  induction m with
  | nil => simp [zeroRegion]
  | cons e m ih =>
    obtain ⟨k, x⟩ := e
    have ih' : readSample (List.filter (fun e => !inRegion o n e.1) m) i = _ := ih
    cases hk : inRegion o n k
    · simp only [zeroRegion, List.filter_cons, hk, Bool.not_false, if_true, readSample_cons, ih']
      by_cases hki : k = i
      · subst hki; simp [hk]
      · simp [hki]
    · simp only [zeroRegion, List.filter_cons, hk, Bool.not_true, Bool.false_eq_true, if_false, readSample_cons, ih']
      by_cases hki : k = i
      · subst hki; simp [hk]
      · simp [hki]

/-- Reading after a region is scaled (R77). -/
theorem readSample_scaleRegion {m : Samples} (h : samplesWf m = true) (o n : Nat) (i : Nat) :
    readSample (scaleRegion o n m) i =
      if inRegion o n i = true then F32.mul (readSample m i) masterGain else readSample m i := by
  induction m with
  | nil => simp only [scaleRegion, List.filterMap_nil, readSample_nil, scaled_unlisted, ite_self]
  | cons e m ih =>
    obtain ⟨k, x⟩ := e
    obtain ⟨_, hlt, hw⟩ := samplesWf_cons.1 h
    have ih' := ih hw
    rw [scaleRegion] at ih' ⊢
    rw [List.filterMap_cons]
    by_cases hki : k = i
    · subst hki
      have hm : readSample m k = unlisted := readSample_of_lt hlt
      rw [readSample_cons, if_pos rfl]
      rw [hm, scaled_unlisted, ite_self] at ih'
      cases hk : inRegion o n k
      · simp [readSample_cons]
      · by_cases hz : F32.mul x masterGain = unlisted
        · simp [hz, ih']
        · simp [hz, readSample_cons]
    · rw [readSample_cons, if_neg hki, ← ih']
      cases hk : inRegion o n k
      · simp [readSample_cons, hki]
      · by_cases hz : F32.mul x masterGain = unlisted
        · simp [hz]
        · simp [hz, readSample_cons, hki]

/-! ### The maps of R206 -/

theorem isPitch_nearestPitch : ∀ n : Note, isPitch n (nearestPitch n) = true := by decide +kernel

theorem isAmplitude_nearestAmplitude : ∀ v : Velocity, isAmplitude v (nearestAmplitude v) = true := by decide +kernel

/-- Every base frequency is the formula up to rounding. -/
theorem isPitch_baseFreq (n : Note) : isPitch n (baseFreq n) = true := by
  rw [baseFreq]
  split_ifs with h57 h69 h81 h
  · subst h57; decide +kernel
  · subst h69; decide +kernel
  · subst h81; decide +kernel
  · exact h
  · exact isPitch_nearestPitch n

/-- Every amplitude is the formula up to rounding. -/
theorem isAmplitude_amplitude (v : Velocity) : isAmplitude v (amplitude v) = true := by
  rw [amplitude]
  split_ifs with h127 h
  · subst h127; decide +kernel
  · exact h
  · exact isAmplitude_nearestAmplitude v

/-! ### The canonical form -/

theorem writeSample_above {m : Samples} {j : Nat} {v : F32} {b : Nat} (hb : ∀ e ∈ m, b < e.1) (hj : b < j) :
    ∀ e ∈ writeSample m j v, b < e.1 := by
  induction m with
  | nil =>
    rw [writeSample]; split_ifs <;> simp [hj]
  | cons a m ih =>
    obtain ⟨k, x⟩ := a
    have h1 : b < k := hb (k, x) (by simp)
    have h2 : ∀ e ∈ m, b < e.1 := fun e he => hb e (by simp [he])
    rw [writeSample]
    split_ifs
    · exact hb
    · intro e he
      rcases List.mem_cons.1 he with rfl | he
      · exact hj
      · exact hb e he
    · exact h2
    · intro e he
      rcases List.mem_cons.1 he with rfl | he
      · exact hj
      · exact h2 e he
    · intro e he
      rcases List.mem_cons.1 he with rfl | he
      · exact h1
      · exact ih h2 e he

theorem samplesWf_writeSample {m : Samples} (h : samplesWf m = true) (j : Nat) (v : F32) :
    samplesWf (writeSample m j v) = true := by
  induction m with
  | nil =>
    rw [writeSample]
    split_ifs with hv
    · rfl
    · exact samplesWf_cons.2 ⟨hv, by simp, rfl⟩
  | cons e m ih =>
    obtain ⟨k, x⟩ := e
    obtain ⟨hx, hlt, hw⟩ := samplesWf_cons.1 h
    rw [writeSample]
    split_ifs with h1 hv h2 hv
    · exact h
    · refine samplesWf_cons.2 ⟨hv, fun e he => ?_, h⟩
      rcases List.mem_cons.1 he with rfl | he
      · exact h1
      · exact lt_trans h1 (hlt e he)
    · exact hw
    · exact samplesWf_cons.2 ⟨hv, fun e he => h2 ▸ hlt e he, hw⟩
    · exact samplesWf_cons.2 ⟨hx, writeSample_above hlt (by omega), ih hw⟩

theorem samplesWf_zeroRegion {m : Samples} (h : samplesWf m = true) (o n : Nat) :
    samplesWf (zeroRegion o n m) = true := by
  induction m with
  | nil => rfl
  | cons e m ih =>
    obtain ⟨k, x⟩ := e
    obtain ⟨hx, hlt, hw⟩ := samplesWf_cons.1 h
    rw [zeroRegion, List.filter_cons]
    split_ifs
    · exact samplesWf_cons.2 ⟨hx, fun e he => hlt e (List.mem_filter.1 he).1, ih hw⟩
    · exact ih hw

theorem scaleRegion_above {m : Samples} {o n b : Nat} (hb : ∀ e ∈ m, b < e.1) :
    ∀ e ∈ scaleRegion o n m, b < e.1 := by
  intro e he
  obtain ⟨a, ha, h⟩ := List.mem_filterMap.1 he
  split_ifs at h
  · obtain rfl := Option.some.inj h; exact hb a ha
  · obtain rfl := Option.some.inj h; exact hb a ha

theorem samplesWf_scaleRegion {m : Samples} (h : samplesWf m = true) (o n : Nat) :
    samplesWf (scaleRegion o n m) = true := by
  induction m with
  | nil => rfl
  | cons e m ih =>
    obtain ⟨k, x⟩ := e
    obtain ⟨hx, hlt, hw⟩ := samplesWf_cons.1 h
    have ih' := ih hw
    have hab := scaleRegion_above (o := o) (n := n) hlt
    rw [scaleRegion] at ih' hab ⊢
    rw [List.filterMap_cons]
    cases hk : inRegion o n k
    · simpa using samplesWf_cons.2 ⟨hx, hab, ih'⟩
    · by_cases hz : F32.mul x masterGain = unlisted
      · simpa [hz] using ih'
      · simpa [hz] using samplesWf_cons.2 ⟨hz, hab, ih'⟩

theorem Buffer.wf_iff (b : Buffer) : b.wf = true ↔ samplesWf b.left = true ∧ samplesWf b.right = true := by
  simp [Buffer.wf]

theorem Buffer.wf_both {f : Samples → Samples} (hf : ∀ m, samplesWf m = true → samplesWf (f m) = true)
    {b : Buffer} (h : b.wf = true) : (b.both f).wf = true := by
  rw [Buffer.wf_iff] at h ⊢
  exact ⟨hf _ h.1, hf _ h.2⟩

/-! ### Events -/

/-- Every event keeps the buffer's canonical form. -/
theorem World.absorb_wf {w : World} (h : w.buf.wf = true) (e : Event) : (w.absorb e).buf.wf = true := by
  cases e with
  | blockBegin n o => exact Buffer.wf_both (fun m hm => samplesWf_zeroRegion hm _ _) h
  | blockEnd => exact Buffer.wf_both (fun m hm => samplesWf_scaleRegion hm _ _) h
  | gain n k g => exact Buffer.wf_both (fun m hm => samplesWf_writeSample hm _ _) h
  | oscInit n => exact h
  | oscNote n v => exact h
  | oscDestroy n => exact h
  | oscParams n p => exact h

@[simp] theorem World.setOsc_self (w : World) (n : Note) (o : Osc) : (w.setOsc n o).oscOf n = o := by
  simp [World.setOsc, World.oscOf]

theorem World.setOsc_other (w : World) {n m : Note} (o : Osc) (h : m ≠ n) : (w.setOsc n o).oscOf m = w.oscOf m := by
  have : n.toNat ≠ m.toNat := fun e => h (BitVec.eq_of_toNat_eq e.symm)
  simp [World.setOsc, World.oscOf, this]

@[simp] theorem afterRun_none (n : Note) : afterRun n none = none := rfl

theorem afterRun_some (n : Note) (r : Running) : afterRun n (some r) = if r.note = n then none else some r := by
  by_cases h : r.note = n <;> simp [afterRun, h]

@[simp] theorem World.abandonRun_running (w : World) : w.abandonRun.running = none := rfl
@[simp] theorem World.abandonRun_buf (w : World) : w.abandonRun.buf = w.buf := rfl
@[simp] theorem World.abandonRun_osc (w : World) : w.abandonRun.osc = w.osc := rfl

theorem World.frequencyOf_none {w : World} (h : w.running = none) (n : Note) :
    w.frequencyOf n = (w.oscOf n).baseFreq := by
  rw [World.frequencyOf, h]

/-- Once the run of `n`'s voice is over, its oscillator is at the base frequency. -/
theorem World.frequencyOf_afterRun {w v : World} {n : Note} (h : v.running = afterRun n w.running) :
    v.frequencyOf n = (v.oscOf n).baseFreq := by
  rw [World.frequencyOf, h]
  cases hr : w.running with
  | none => rfl
  | some r =>
    rw [afterRun_some]
    split_ifs with hn
    · rfl
    · simp [hn]

/-- Only `OscParams` begins a run. -/
theorem World.absorb_running {w : World} (h : w.running = none) {e : Event} (he : ∀ n p, e ≠ .oscParams n p) :
    (w.absorb e).running = none := by
  cases e with
  | oscParams n p => exact absurd rfl (he n p)
  | gain n k g => simp [World.absorb, h]
  | oscDestroy n => simp [World.absorb, h]
  | blockEnd => rfl
  | blockBegin _ _ | oscInit _ | oscNote _ _ => exact h

@[simp] theorem World.absorbAll_nil (w : World) : w.absorbAll [] = w := rfl

theorem World.absorbAll_cons (w : World) (e : Event) (l : List Event) :
    w.absorbAll (e :: l) = (w.absorb e).absorbAll l := rfl

theorem World.absorbAll_append (w : World) (l m : List Event) :
    w.absorbAll (l ++ m) = (w.absorbAll l).absorbAll m := by
  simp [World.absorbAll]

end Sys2Proof.Machine
end

