-- ==== Sys2Proof/Laws/Notes.lean ====
section
/-! SUPPORT. The note operations (41_envelope.md sections 1 to 3): the cases of `Trigger(n, vel)` and `Release(n)`. -/

namespace Sys2Proof.Machine.State

/-! ### Release (R157) -/

/-- `Release(n)` of a voice that is Off or in Release changes nothing (R158). -/
theorem releaseNote_idle {n : Note} {s : State} (h : (s.voice n).stage = .off ∨ (s.voice n).stage = .release) :
    s.releaseNote n = s := by
  rw [releaseNote, Voice.startRelease_idle binary32 _ h, setVoice_self]

@[simp] theorem releaseNote_sm (n : Note) (s : State) : (s.releaseNote n).sm = s.sm := rfl
@[simp] theorem releaseNote_gp (n : Note) (s : State) : (s.releaseNote n).gp = s.gp := rfl
@[simp] theorem releaseNote_al (n : Note) (s : State) : (s.releaseNote n).al = s.al := rfl
@[simp] theorem releaseNote_activeCount (n : Note) (s : State) : (s.releaseNote n).activeCount = s.activeCount := rfl
@[simp] theorem releaseNote_inited (n : Note) (s : State) : (s.releaseNote n).inited = s.inited := rfl
@[simp] theorem releaseNote_sampleRate (n : Note) (s : State) : (s.releaseNote n).sampleRate = s.sampleRate := rfl
@[simp] theorem releaseNote_chanCount (n : Note) (s : State) : (s.releaseNote n).chanCount = s.chanCount := rfl
@[simp] theorem releaseNote_attackSamples (n : Note) (s : State) :
    (s.releaseNote n).attackSamples = s.attackSamples := rfl
@[simp] theorem releaseNote_releaseSamples (n : Note) (s : State) :
    (s.releaseNote n).releaseSamples = s.releaseSamples := rfl
@[simp] theorem releaseNote_freshReset (n : Note) (s : State) : (s.releaseNote n).freshReset = s.freshReset := rfl
@[simp] theorem releaseNote_flags (n : Note) (s : State) : (s.releaseNote n).flags = s.flags := rfl
@[simp] theorem releaseNote_host (n : Note) (s : State) : (s.releaseNote n).host = s.host := rfl
@[simp] theorem releaseNote_rsp (n : Note) (s : State) : (s.releaseNote n).rsp = s.rsp := rfl
@[simp] theorem releaseNote_events (n : Note) (s : State) : (s.releaseNote n).events = s.events := rfl
@[simp] theorem releaseNote_world (n : Note) (s : State) : (s.releaseNote n).world = s.world := rfl

theorem releaseNote_voice (n : Note) (s : State) (m : Note) :
    (s.releaseNote n).voice m = if m = n then (s.voice n).startRelease binary32 s.releaseSamples else s.voice m := by
  rw [releaseNote, setVoice_voice]

/-! ### Trigger (R151) -/

/-- The three cases of `Trigger(n, vel)`: a release (R155), an activation (R152), a re-trigger (R154). -/
theorem triggerNote_cases (n : Note) (vel : Velocity) (s : State) :
    (vel = 0#7 ∧ s.triggerNote n vel = s.releaseNote n) ∨
    (vel ≠ 0#7 ∧ (s.voice n).stage = .off ∧
      s.triggerNote n vel = setVoice n ((s.voice n).startAttack binary32 s.attackSamples)
        ((s.activate n).emit (.oscNote n vel))) ∨
    (vel ≠ 0#7 ∧ (s.voice n).stage ≠ .off ∧
      s.triggerNote n vel = setVoice n ((s.voice n).startAttack binary32 s.attackSamples)
        (s.emit (.oscNote n vel))) := by
  rw [triggerNote]
  by_cases hv : vel = 0#7
  · exact .inl ⟨hv, if_pos hv⟩
  · rw [if_neg hv]
    by_cases h : (s.voice n).stage = .off
    · exact .inr (.inl ⟨hv, h, by rw [if_pos h]⟩)
    · exact .inr (.inr ⟨hv, h, by rw [if_neg h]⟩)

section triggerNote
variable (n : Note) (vel : Velocity) (s : State)

@[simp] theorem triggerNote_sm : (s.triggerNote n vel).sm = s.sm := by
  rcases triggerNote_cases n vel s with ⟨_, h⟩ | ⟨_, _, h⟩ | ⟨_, _, h⟩ <;> rw [h] <;> rfl
@[simp] theorem triggerNote_gp : (s.triggerNote n vel).gp = s.gp := by
  rcases triggerNote_cases n vel s with ⟨_, h⟩ | ⟨_, _, h⟩ | ⟨_, _, h⟩ <;> rw [h] <;> rfl
@[simp] theorem triggerNote_inited : (s.triggerNote n vel).inited = s.inited := by
  rcases triggerNote_cases n vel s with ⟨_, h⟩ | ⟨_, _, h⟩ | ⟨_, _, h⟩ <;> rw [h] <;> rfl
@[simp] theorem triggerNote_sampleRate : (s.triggerNote n vel).sampleRate = s.sampleRate := by
  rcases triggerNote_cases n vel s with ⟨_, h⟩ | ⟨_, _, h⟩ | ⟨_, _, h⟩ <;> rw [h] <;> rfl
@[simp] theorem triggerNote_chanCount : (s.triggerNote n vel).chanCount = s.chanCount := by
  rcases triggerNote_cases n vel s with ⟨_, h⟩ | ⟨_, _, h⟩ | ⟨_, _, h⟩ <;> rw [h] <;> rfl
@[simp] theorem triggerNote_attackSamples : (s.triggerNote n vel).attackSamples = s.attackSamples := by
  rcases triggerNote_cases n vel s with ⟨_, h⟩ | ⟨_, _, h⟩ | ⟨_, _, h⟩ <;> rw [h] <;> rfl
@[simp] theorem triggerNote_releaseSamples : (s.triggerNote n vel).releaseSamples = s.releaseSamples := by
  rcases triggerNote_cases n vel s with ⟨_, h⟩ | ⟨_, _, h⟩ | ⟨_, _, h⟩ <;> rw [h] <;> rfl
@[simp] theorem triggerNote_freshReset : (s.triggerNote n vel).freshReset = s.freshReset := by
  rcases triggerNote_cases n vel s with ⟨_, h⟩ | ⟨_, _, h⟩ | ⟨_, _, h⟩ <;> rw [h] <;> rfl
@[simp] theorem triggerNote_flags : (s.triggerNote n vel).flags = s.flags := by
  rcases triggerNote_cases n vel s with ⟨_, h⟩ | ⟨_, _, h⟩ | ⟨_, _, h⟩ <;> rw [h] <;> rfl
@[simp] theorem triggerNote_host : (s.triggerNote n vel).host = s.host := by
  rcases triggerNote_cases n vel s with ⟨_, h⟩ | ⟨_, _, h⟩ | ⟨_, _, h⟩ <;> rw [h] <;> rfl
@[simp] theorem triggerNote_rsp : (s.triggerNote n vel).rsp = s.rsp := by
  rcases triggerNote_cases n vel s with ⟨_, h⟩ | ⟨_, _, h⟩ | ⟨_, _, h⟩ <;> rw [h] <;> rfl
@[simp] theorem triggerNote_world : (s.triggerNote n vel).world = s.world := by
  rcases triggerNote_cases n vel s with ⟨_, h⟩ | ⟨_, _, h⟩ | ⟨_, _, h⟩ <;> rw [h] <;> rfl

/-- The voices after a trigger that is not a release. -/
theorem triggerNote_voice (hv : vel ≠ 0#7) (m : Note) :
    (s.triggerNote n vel).voice m =
      if m = n then (s.voice n).startAttack binary32 s.attackSamples else s.voice m := by
  rcases triggerNote_cases n vel s with ⟨h0, _⟩ | ⟨_, _, h⟩ | ⟨_, _, h⟩
  · exact absurd h0 hv
  · rw [h, setVoice_voice]; rfl
  · rw [h, setVoice_voice]; rfl

end triggerNote

end Sys2Proof.Machine.State
end

