-- ==== Sys2Proof/Laws/Words.lean ====
section
/-! SUPPORT. The command and message formats: the fields of a packed word, and what the rows of R100 say bit by bit. -/

namespace Sys2Proof

/-! ### Fields of a command word, whatever its unused fields hold (R92) -/

section fields
variable (op a b rsv : Byte) (val cnt : Word)

theorem getLsbD_fields (i : Nat) :
    (op ++ a ++ b ++ rsv ++ val ++ cnt : Command).getLsbD i =
      if i < 32 then cnt.getLsbD i else if i < 64 then val.getLsbD (i - 32) else if i < 72 then rsv.getLsbD (i - 64)
      else if i < 80 then b.getLsbD (i - 72) else if i < 88 then a.getLsbD (i - 80) else op.getLsbD (i - 88) := by
  show BitVec.getLsbD (op ++ a ++ b ++ rsv ++ val ++ cnt) i = _
  simp only [BitVec.getLsbD_append, Nat.sub_sub]
  split_ifs <;> first | rfl | omega

theorem opField_fields : opField (op ++ a ++ b ++ rsv ++ val ++ cnt : Command) = op := by
  apply BitVec.eq_of_getLsbD_eq
  intro i hi
  rw [opField, BitVec.getLsbD_extractLsb', getLsbD_fields]
  simp only [hi, decide_true, Bool.true_and]
  split_ifs <;> first | omega | (congr 1; omega)

theorem aField_fields : aField (op ++ a ++ b ++ rsv ++ val ++ cnt : Command) = a := by
  apply BitVec.eq_of_getLsbD_eq
  intro i hi
  rw [aField, BitVec.getLsbD_extractLsb', getLsbD_fields]
  simp only [hi, decide_true, Bool.true_and]
  split_ifs <;> first | omega | (congr 1; omega)

theorem bField_fields : bField (op ++ a ++ b ++ rsv ++ val ++ cnt : Command) = b := by
  apply BitVec.eq_of_getLsbD_eq
  intro i hi
  rw [bField, BitVec.getLsbD_extractLsb', getLsbD_fields]
  simp only [hi, decide_true, Bool.true_and]
  split_ifs <;> first | omega | (congr 1; omega)

theorem valField_fields : valField (op ++ a ++ b ++ rsv ++ val ++ cnt : Command) = val := by
  apply BitVec.eq_of_getLsbD_eq
  intro i hi
  rw [valField, BitVec.getLsbD_extractLsb', getLsbD_fields]
  simp only [hi, decide_true, Bool.true_and]
  split_ifs <;> first | omega | (congr 1; omega)

theorem cntField_fields : cntField (op ++ a ++ b ++ rsv ++ val ++ cnt : Command) = cnt := by
  apply BitVec.eq_of_getLsbD_eq
  intro i hi
  rw [cntField, BitVec.getLsbD_extractLsb', getLsbD_fields]
  simp only [hi, decide_true, Bool.true_and]
  split_ifs <;> first | omega | (congr 1; omega)

/-- The message bytes are the low bits of `cnt` (R99). -/
theorem messageField_fields :
    messageField (op ++ a ++ b ++ rsv ++ val ++ cnt : Command) = cnt.extractLsb' 0 24 := by
  apply BitVec.eq_of_getLsbD_eq
  intro i hi
  rw [messageField, BitVec.getLsbD_extractLsb', getLsbD_fields]
  simp [hi, show i < 32 by omega]

@[simp] theorem opField_packCommand : opField (packCommand op a b val cnt) = op := opField_fields ..
@[simp] theorem aField_packCommand : aField (packCommand op a b val cnt) = a := aField_fields ..
@[simp] theorem bField_packCommand : bField (packCommand op a b val cnt) = b := bField_fields ..
@[simp] theorem valField_packCommand : valField (packCommand op a b val cnt) = val := valField_fields ..
@[simp] theorem cntField_packCommand : cntField (packCommand op a b val cnt) = cnt := cntField_fields ..

end fields

/-- A message below any top byte (R99: `cnt[31:24]` is ignored). -/
theorem extractLsb'_append_message (top : Byte) (m : Message) : BitVec.extractLsb' 0 24 (top ++ m : Word) = m := by
  apply BitVec.eq_of_getLsbD_eq
  intro i hi
  show (BitVec.extractLsb' 0 24 (top ++ m)).getLsbD i = _
  rw [BitVec.getLsbD_extractLsb', BitVec.getLsbD_append]
  simp [hi]

@[simp] theorem opField_packMidi (len : Byte) (m : Message) : opField (packMidi len m) = 0x1C := by simp [packMidi]

@[simp] theorem aField_packMidi (len : Byte) (m : Message) : aField (packMidi len m) = len := by simp [packMidi]

@[simp] theorem messageField_packMidi (len : Byte) (m : Message) : messageField (packMidi len m) = m := by
  rw [packMidi, packCommand, messageField_fields]
  apply BitVec.eq_of_getLsbD_eq
  intro i hi
  simp [hi, show i < 32 by omega]

/-! ### Bytes of a message (R99) -/

theorem getLsbD_packMessage (b0 b1 b2 : Byte) (i : Nat) :
    (packMessage b0 b1 b2).getLsbD i =
      if i < 8 then b2.getLsbD i else if i < 16 then b1.getLsbD (i - 8) else b0.getLsbD (i - 16) := by
  show BitVec.getLsbD (b0 ++ b1 ++ b2) i = _
  simp only [BitVec.getLsbD_append, Nat.sub_sub]
  split_ifs <;> first | rfl | omega

@[simp] theorem packMessage_bytes (m : Message) : packMessage (byte0 m) (byte1 m) (byte2 m) = m := by
  apply BitVec.eq_of_getLsbD_eq
  intro i hi
  rw [getLsbD_packMessage]
  simp only [byte0, byte1, byte2, BitVec.getLsbD_extractLsb']
  split_ifs with h1 h2
  · simp [h1]
  · simp [show i - 8 < 8 by omega, show 8 + (i - 8) = i by omega]
  · simp [show i - 16 < 8 by omega, show 16 + (i - 16) = i by omega]

@[simp] theorem byte0_packMessage (b0 b1 b2 : Byte) : byte0 (packMessage b0 b1 b2) = b0 := by
  apply BitVec.eq_of_getLsbD_eq
  intro i hi
  rw [byte0, BitVec.getLsbD_extractLsb', getLsbD_packMessage]
  simp [hi, show ¬16 + i < 8 by omega]

@[simp] theorem byte1_packMessage (b0 b1 b2 : Byte) : byte1 (packMessage b0 b1 b2) = b1 := by
  apply BitVec.eq_of_getLsbD_eq
  intro i hi
  rw [byte1, BitVec.getLsbD_extractLsb', getLsbD_packMessage]
  simp [hi, show 8 + i < 16 by omega]

@[simp] theorem byte2_packMessage (b0 b1 b2 : Byte) : byte2 (packMessage b0 b1 b2) = b2 := by
  apply BitVec.eq_of_getLsbD_eq
  intro i hi
  rw [byte2, BitVec.getLsbD_extractLsb', getLsbD_packMessage]
  simp [hi]

/-! ### The rows of R100, field by field -/

/-- Two words that agree under a mask agree on its bits, and conversely. -/
theorem and_eq_iff_getLsbD (m k v : Message) (h : v &&& k = v) :
    m &&& k = v ↔ ∀ i < 24, k.getLsbD i = true → m.getLsbD i = v.getLsbD i := by
  constructor
  · intro e i _ hk
    rw [← e]; simp [hk]
  · intro e
    apply BitVec.eq_of_getLsbD_eq
    intro i hi
    cases hk : k.getLsbD i with
    | true => simp [hk, e i hi hk]
    | false =>
      rw [← h]; simp [hk]

theorem isNoteOff_iff (m : Message) :
    isNoteOff m = true ↔ m.extractLsb' 20 4 = 0x8#4 ∧ m.getLsbD 15 = false := by
  rw [isNoteOff, beq_iff_eq, and_eq_iff_getLsbD _ _ _ (by decide)]
  constructor
  · intro h
    refine ⟨BitVec.eq_of_getLsbD_eq fun i hi => ?_, h 15 (by decide) (by decide)⟩
    have := h (20 + i) (by omega) (by interval_cases i <;> decide)
    rw [BitVec.getLsbD_extractLsb', this]
    interval_cases i <;> decide
  · rintro ⟨h, h15⟩ i hi hk
    have hb : ∀ j, (m.extractLsb' 20 4).getLsbD j = (0x8#4).getLsbD j := fun j => by rw [h]
    simp only [BitVec.getLsbD_extractLsb'] at hb
    interval_cases i <;> first | exact absurd hk (by decide) | exact h15 | skip
    exacts [hb 0, hb 1, hb 2, hb 3]

theorem isNoteOn_iff (m : Message) :
    isNoteOn m = true ↔ m.extractLsb' 20 4 = 0x9#4 ∧ m.getLsbD 15 = false ∧ m.getLsbD 7 = false := by
  rw [isNoteOn, beq_iff_eq, and_eq_iff_getLsbD _ _ _ (by decide)]
  constructor
  · intro h
    refine ⟨BitVec.eq_of_getLsbD_eq fun i hi => ?_, h 15 (by decide) (by decide), h 7 (by decide) (by decide)⟩
    have := h (20 + i) (by omega) (by interval_cases i <;> decide)
    rw [BitVec.getLsbD_extractLsb', this]
    interval_cases i <;> decide
  · rintro ⟨h, h15, h7⟩ i hi hk
    have hb : ∀ j, (m.extractLsb' 20 4).getLsbD j = (0x9#4).getLsbD j := fun j => by rw [h]
    simp only [BitVec.getLsbD_extractLsb'] at hb
    interval_cases i <;> first | exact absurd hk (by decide) | exact h15 | exact h7 | skip
    exacts [hb 0, hb 1, hb 2, hb 3]

theorem isCcAlloff_iff (m : Message) :
    isCcAlloff m = true ↔ m.extractLsb' 20 4 = 0xB#4 ∧ m.extractLsb' 8 8 = 123#8 := by
  rw [isCcAlloff, beq_iff_eq, and_eq_iff_getLsbD _ _ _ (by decide)]
  constructor
  · intro h
    refine ⟨BitVec.eq_of_getLsbD_eq fun i hi => ?_, BitVec.eq_of_getLsbD_eq fun i hi => ?_⟩
    · have := h (20 + i) (by omega) (by interval_cases i <;> decide)
      rw [BitVec.getLsbD_extractLsb', this]
      interval_cases i <;> decide
    · have := h (8 + i) (by omega) (by interval_cases i <;> decide)
      rw [BitVec.getLsbD_extractLsb', this]
      interval_cases i <;> decide
  · rintro ⟨h, h8⟩ i hi hk
    have hb : ∀ j, (m.extractLsb' 20 4).getLsbD j = (0xB#4).getLsbD j := fun j => by rw [h]
    have hc : ∀ j, (m.extractLsb' 8 8).getLsbD j = (123#8).getLsbD j := fun j => by rw [h8]
    simp only [BitVec.getLsbD_extractLsb'] at hb hc
    interval_cases i <;> first | exact absurd hk (by decide) | skip
    exacts [hc 0, hc 1, hc 2, hc 3, hc 4, hc 5, hc 6, hc 7, hb 0, hb 1, hb 2, hb 3]

/-- The three rows are disjoint (R100). -/
theorem isNoteOn_of_isNoteOff {m : Message} (h : isNoteOff m = true) : isNoteOn m = false := by
  rw [Bool.eq_false_iff]; intro h'
  have := (isNoteOff_iff m).1 h; have := (isNoteOn_iff m).1 h'
  simp_all

theorem isCcAlloff_of_isNoteOff {m : Message} (h : isNoteOff m = true) : isCcAlloff m = false := by
  rw [Bool.eq_false_iff]; intro h'
  have := (isNoteOff_iff m).1 h; have := (isCcAlloff_iff m).1 h'
  simp_all

theorem isCcAlloff_of_isNoteOn {m : Message} (h : isNoteOn m = true) : isCcAlloff m = false := by
  rw [Bool.eq_false_iff]; intro h'
  have := (isNoteOn_iff m).1 h; have := (isCcAlloff_iff m).1 h'
  simp_all

/-! ### Messages as the encoder writes them -/

theorem getLsbD_noteOff (chan : BitVec 4) (note : Note) (b2 : Byte) (i : Nat) :
    (0x8#4 ++ chan ++ 0#1 ++ note ++ b2 : Message).getLsbD i =
      if i < 8 then b2.getLsbD i else if i < 15 then note.getLsbD (i - 8) else if i < 16 then false
      else if i < 20 then chan.getLsbD (i - 16) else (0x8#4).getLsbD (i - 20) := by
  show BitVec.getLsbD (0x8#4 ++ chan ++ 0#1 ++ note ++ b2) i = _
  simp only [BitVec.getLsbD_append, Nat.sub_sub]
  split_ifs <;> first | rfl | omega | simp

theorem getLsbD_noteOn (chan : BitVec 4) (note : Note) (vel : Velocity) (i : Nat) :
    (0x9#4 ++ chan ++ 0#1 ++ note ++ 0#1 ++ vel : Message).getLsbD i =
      if i < 7 then vel.getLsbD i else if i < 8 then false else if i < 15 then note.getLsbD (i - 8)
      else if i < 16 then false else if i < 20 then chan.getLsbD (i - 16) else (0x9#4).getLsbD (i - 20) := by
  show BitVec.getLsbD (0x9#4 ++ chan ++ 0#1 ++ note ++ 0#1 ++ vel) i = _
  simp only [BitVec.getLsbD_append, Nat.sub_sub]
  split_ifs <;> first | rfl | omega | simp

theorem getLsbD_ccAlloff (chan : BitVec 4) (b2 : Byte) (i : Nat) :
    (0xB#4 ++ chan ++ 0x7B#8 ++ b2 : Message).getLsbD i =
      if i < 8 then b2.getLsbD i else if i < 16 then (0x7B#8).getLsbD (i - 8)
      else if i < 20 then chan.getLsbD (i - 16) else (0xB#4).getLsbD (i - 20) := by
  show BitVec.getLsbD (0xB#4 ++ chan ++ 0x7B#8 ++ b2) i = _
  simp only [BitVec.getLsbD_append, Nat.sub_sub]
  split_ifs <;> first | rfl | omega

/-- The three rows, as the decoder answers them. -/
theorem decodeMessage_of_noteOff {m : Message} (h : isNoteOff m = true) :
    decodeMessage m = some (.noteOff (m.extractLsb' 16 4) (m.extractLsb' 8 7) (m.extractLsb' 0 8)) := if_pos h

theorem decodeMessage_of_noteOn {m : Message} (h : isNoteOn m = true) :
    decodeMessage m = some (.noteOn (m.extractLsb' 16 4) (m.extractLsb' 8 7) (m.extractLsb' 0 7)) := by
  have hn : isNoteOff m = false := by
    by_contra h'
    simp [isNoteOn_of_isNoteOff (Bool.eq_true_of_not_eq_false h')] at h
  rw [decodeMessage, hn, h]; rfl

theorem decodeMessage_of_ccAlloff {m : Message} (h : isCcAlloff m = true) :
    decodeMessage m = some (.ccAlloff (m.extractLsb' 16 4) (m.extractLsb' 0 8)) := by
  have h1 : isNoteOff m = false := by
    by_contra h'
    simp [isCcAlloff_of_isNoteOff (Bool.eq_true_of_not_eq_false h')] at h
  have h2 : isNoteOn m = false := by
    by_contra h'
    simp [isCcAlloff_of_isNoteOn (Bool.eq_true_of_not_eq_false h')] at h
  rw [decodeMessage, h1, h2, h]; rfl

/-- Everything `decodeMessage` can answer. -/
theorem decodeMessage_cases (m : Message) :
    (isNoteOff m = true ∧
      decodeMessage m = some (.noteOff (m.extractLsb' 16 4) (m.extractLsb' 8 7) (m.extractLsb' 0 8))) ∨
    (isNoteOn m = true ∧
      decodeMessage m = some (.noteOn (m.extractLsb' 16 4) (m.extractLsb' 8 7) (m.extractLsb' 0 7))) ∨
    (isCcAlloff m = true ∧ decodeMessage m = some (.ccAlloff (m.extractLsb' 16 4) (m.extractLsb' 0 8))) ∨
    (isNoteOff m = false ∧ isNoteOn m = false ∧ isCcAlloff m = false ∧ decodeMessage m = none) := by
  cases h1 : isNoteOff m with
  | true => exact .inl ⟨rfl, decodeMessage_of_noteOff h1⟩
  | false =>
    cases h2 : isNoteOn m with
    | true => exact .inr (.inl ⟨rfl, decodeMessage_of_noteOn h2⟩)
    | false =>
      cases h3 : isCcAlloff m with
      | true => exact .inr (.inr (.inl ⟨rfl, decodeMessage_of_ccAlloff h3⟩))
      | false => exact .inr (.inr (.inr ⟨rfl, rfl, rfl, by rw [decodeMessage, h1, h2, h3]; rfl⟩))

/-! ### A message from its three bytes -/

theorem statusNibble_packMessage (b0 b1 b2 : Byte) :
    (packMessage b0 b1 b2).extractLsb' 20 4 = b0.extractLsb' 4 4 := by
  apply BitVec.eq_of_getLsbD_eq
  intro i hi
  rw [BitVec.getLsbD_extractLsb', getLsbD_packMessage, BitVec.getLsbD_extractLsb']
  simp [hi, show ¬ 20 + i < 8 by omega, show ¬ 20 + i < 16 by omega, show 20 + i - 16 = 4 + i by omega]

theorem note_packMessage (b0 b1 b2 : Byte) : (packMessage b0 b1 b2).extractLsb' 8 7 = b1.extractLsb' 0 7 := by
  apply BitVec.eq_of_getLsbD_eq
  intro i hi
  rw [BitVec.getLsbD_extractLsb', getLsbD_packMessage, BitVec.getLsbD_extractLsb']
  simp [hi, show ¬ 8 + i < 8 by omega, show 8 + i < 16 by omega]

theorem vel_packMessage (b0 b1 b2 : Byte) : (packMessage b0 b1 b2).extractLsb' 0 7 = b2.extractLsb' 0 7 := by
  apply BitVec.eq_of_getLsbD_eq
  intro i hi
  rw [BitVec.getLsbD_extractLsb', getLsbD_packMessage, BitVec.getLsbD_extractLsb']
  simp [hi, show i < 8 by omega]

@[simp] theorem getLsbD_15_packMessage (b0 b1 b2 : Byte) : (packMessage b0 b1 b2).getLsbD 15 = b1.getLsbD 7 := by
  rw [getLsbD_packMessage]; simp

@[simp] theorem getLsbD_7_packMessage (b0 b1 b2 : Byte) : (packMessage b0 b1 b2).getLsbD 7 = b2.getLsbD 7 := by
  rw [getLsbD_packMessage]; simp

/-- A byte whose top bit is clear is a note number or a velocity. -/
theorem byte_of_clear {b : Byte} (h : b.getLsbD 7 = false) : b = (b.extractLsb' 0 7).setWidth 8 := by
  revert h; revert b; decide +kernel

/-- A byte from its two nibbles. -/
theorem byte_of_nibbles (b : Byte) : b = b.extractLsb' 4 4 ++ b.extractLsb' 0 4 := by
  revert b; decide +kernel

theorem highNibble_append (hd chan : BitVec 4) : (hd ++ chan : Byte).extractLsb' 4 4 = hd := by
  revert hd chan; decide +kernel

theorem low7_setWidth (n : Note) : (n.setWidth 8 : Byte).extractLsb' 0 7 = n := by
  revert n; decide +kernel

theorem clear_setWidth (n : Note) : (n.setWidth 8 : Byte).getLsbD 7 = false := by
  revert n; decide +kernel

/-- A `MIDI` command word decodes to its message, or to itself. -/
theorem decode_midiWord {w : Command} (h : opField w = 0x1C#8) :
    decode w = .instr (decodeMidi (aField w) (messageField w)) := by
  rw [decode, h]; rfl

end Sys2Proof
end

