-- ==== Sys2Proof/Laws/PerInstr.lean ====
section
/-! SUPPORT. Statements made for every instruction, one lemma per constructor. -/

namespace Sys2Proof.Laws.EncodesAssignedOp

/-- The instruction's command word carries one of the seventeen assigned values of `op` (R94). -/
def Statement (i : Instr) : Prop := opField (encode i) ∈ assignedOps

theorem init (chan : Byte) (rate : Word) : Statement (.init chan rate) := by simp [Statement, encode, assignedOps]
theorem reset : Statement .reset := by simp [Statement, encode, assignedOps]
theorem destroy : Statement .destroy := by simp [Statement, encode, assignedOps]
theorem trigger (note : Byte) (vel : Byte) : Statement (.trigger note vel) := by simp [Statement, encode, assignedOps]
theorem release (note : Byte) : Statement (.release note) := by simp [Statement, encode, assignedOps]
theorem alloff : Statement .alloff := by simp [Statement, encode, assignedOps]
theorem process (frames : Word) (offset : Word) : Statement (.process frames offset) := by simp [Statement, encode, assignedOps]
theorem midi (len : Byte) (b0 : Byte) (b1 : Byte) (b2 : Byte) : Statement (.midi len b0 b1 b2) := by simp [Statement, encode, assignedOps]
theorem smSetimm (addr : Byte) (v : Word) : Statement (.smSetimm addr v) := by simp [Statement, encode, assignedOps]
theorem smRamp (addr : Byte) (target : Word) (dur : Word) : Statement (.smRamp addr target dur) := by simp [Statement, encode, assignedOps]
theorem smStep (addr : Byte) : Statement (.smStep addr) := by simp [Statement, encode, assignedOps]
theorem smGetui (addr : Byte) : Statement (.smGetui addr) := by simp [Statement, encode, assignedOps]
theorem smSetui (addr : Byte) (v : Word) : Statement (.smSetui addr v) := by simp [Statement, encode, assignedOps]
theorem pSetimm (addr : Byte) (v : Word) : Statement (.pSetimm addr v) := by simp [Statement, encode, assignedOps]
theorem pSet (addr : Byte) (v : Word) : Statement (.pSet addr v) := by simp [Statement, encode, assignedOps]
theorem pGet (addr : Byte) : Statement (.pGet addr) := by simp [Statement, encode, assignedOps]
theorem pRamp (addr : Byte) (v : Word) (dur : Word) : Statement (.pRamp addr v dur) := by simp [Statement, encode, assignedOps]
theorem noteOff (chan : BitVec 4) (note : Note) (b2 : Byte) : Statement (.noteOff chan note b2) := by simp [Statement, encode, assignedOps]
theorem noteOn (chan : BitVec 4) (note : Note) (vel : Velocity) : Statement (.noteOn chan note vel) := by simp [Statement, encode, assignedOps]
theorem ccAlloff (chan : BitVec 4) (b2 : Byte) : Statement (.ccAlloff chan b2) := by simp [Statement, encode, assignedOps]

end Sys2Proof.Laws.EncodesAssignedOp
end

