-- ==== Sys2Proof/Laws/Step.lean ====
section
/-! SUPPORT. Everything a command and a step can do, said once; invariants and frames cite these and unfold no
meaning. -/

namespace Sys2Proof.Machine

/-! ### Operands -/

theorem noteOperand_eq_some {a : Byte} {n : Note} : noteOperand a = some n ↔ a.toNat ≤ 127 ∧ a.setWidth 7 = n := by
  unfold noteOperand; split_ifs with h <;> simp [h]

theorem velOperand_eq_some {a : Byte} {v : Velocity} : velOperand a = some v ↔ a.toNat ≤ 127 ∧ a.setWidth 7 = v := by
  unfold velOperand; split_ifs with h <;> simp [h]

theorem addrOperand_eq_some {a : Byte} {i : Param} : addrOperand a = some i ↔ a.toNat = i.val := by
  unfold addrOperand
  split_ifs with h
  · simp [Fin.ext_iff]
  · simp; omega

theorem realOperand_eq_some {v : Word} {x : F32} : realOperand v = some x ↔ F32.isFinite v = true ∧ v = x := by
  have h : realOperand v = if F32.isFinite v = true then some v else none := rfl
  rw [h]
  split_ifs <;> simp [*]

theorem rateOperand_eq_some {v : Word} {x : F32} :
    rateOperand v = some x ↔ (F32.isFinite v = true ∧ F32.lt 0#32 v = true) ∧ v = x := by
  have h : rateOperand v = if (F32.isFinite v && F32.lt 0#32 v) = true then some v else none := rfl
  rw [h, ← Bool.and_eq_true]
  split_ifs <;> simp [*]

theorem noteOperand_none {a : Byte} (h : 127 < a.toNat) : noteOperand a = none := if_neg (by omega)

theorem velOperand_none {a : Byte} (h : 127 < a.toNat) : velOperand a = none := if_neg (by omega)

theorem addrOperand_some {a : Byte} {i : Param} (h : a.toNat = i.val) : addrOperand a = some i :=
  addrOperand_eq_some.2 h

theorem addrOperand_none {a : Byte} (h : 6 < a.toNat) : addrOperand a = none := dif_neg (by omega)

theorem realOperand_some {v : Word} (h : F32.isFinite v = true) : realOperand v = some v :=
  realOperand_eq_some.2 ⟨h, rfl⟩

theorem realOperand_none {v : Word} (h : F32.isFinite v = false) : realOperand v = none :=
  if_neg (by rw [show binary32.isFinite v = F32.isFinite v from rfl, h]; simp)

theorem rateOperand_none {v : Word} (h : ¬(F32.isFinite v = true ∧ F32.lt 0#32 v = true)) : rateOperand v = none :=
  if_neg (by rw [Bool.and_eq_true]; exact h)

theorem noteOperand_setWidth (n : Note) : noteOperand (n.setWidth 8) = some n := by
  rw [noteOperand_eq_some]
  have := n.isLt
  constructor
  · rw [BitVec.toNat_setWidth]; omega
  · apply BitVec.eq_of_toNat_eq; simp

theorem velOperand_setWidth (v : Velocity) : velOperand (v.setWidth 8) = some v := noteOperand_setWidth v

theorem blockFits_iff (frames offset : Count) : blockFits frames offset = true ↔ offset.toNat + frames.toNat ≤ 2 ^ 32 := by
  simp [blockFits]

/-! ### The effect of a command -/

/-- Everything an instruction can do to the state. -/
inductive Effect (s : State) : State → Prop
  /-- A message that is no row of R100. -/
  | idle (h : s.inited = true) : Effect s s
  /-- Not initialised, or an operand out of range. -/
  | ignored (f : Flag) (h : f = .range ∨ f = .noInit) : Effect s (s.raise f)
  /-- The same for a read, which responds 0. -/
  | ignoredRead (f : Flag) (h : f = .range ∨ f = .noInit) : Effect s ((s.raise f).respond 0#32)
  | read (h : s.inited = true) (v : F32) : Effect s (s.respond v)
  /-- A smoother is set, or a ramp starts. -/
  | setSmoother (h : s.inited = true) (i : Param) (x : Smoother F32) (hx : Smoother.Pinned binary32 x) :
      Effect s (s.setSmoother i x)
  | setUi (h : s.inited = true) (i : Param) (v : F32) : Effect s (s.setSmoother i ((s.smoother i).setUi v))
  | stepSmoother (h : s.inited = true) (i : Param) :
      Effect s ((s.setSmoother i ((s.smoother i).advance binary32)).respond (s.smoother i).cur)
  | release (h : s.inited = true) (n : Note) : Effect s (s.releaseNote n)
  | trigger (h : s.inited = true) (n : Note) (vel : Velocity) : Effect s (s.triggerNote n vel)
  | allOff (h : s.inited = true) : Effect s s.allNotesOff
  | block (h : s.inited = true) (frames offset : Count) (hf : offset.toNat + frames.toNat ≤ 2 ^ 32) :
      Effect s (s.processBlock frames offset)
  | init (chan : Byte) (rate : F32) (hr : F32.isFinite rate = true ∧ F32.lt 0#32 rate = true) :
      Effect s (s.initialise paramDefault chan rate)
  | reset (h : s.inited = true) : Effect s (s.softReset paramDefault)
  | destroy (h : s.inited = true) : Effect s { s with inited := false }

/-- The same with the instruction named: which forms have which effect, and why one is ignored. -/
inductive Runs (s : State) : Instr → State → Prop
  | notInited (i : Instr) (h : s.inited = false) (hi : ∀ chan rate, i ≠ .init chan rate) (hr : isRead i = false) :
      Runs s i (s.raise .noInit)
  | notInitedRead (i : Instr) (h : s.inited = false) (hr : isRead i = true) :
      Runs s i ((s.raise .noInit).respond 0#32)
  | bad (i : Instr) (h : s.inited = true ∨ ∃ chan rate, i = .init chan rate) (ho : outOfRange i)
      (hr : isRead i = false) : Runs s i (s.raise .range)
  | badRead (i : Instr) (h : s.inited = true) (ho : outOfRange i) (hr : isRead i = true) :
      Runs s i ((s.raise .range).respond 0#32)
  | init (chan : Byte) (rate : F32) (hr : F32.isFinite rate = true ∧ F32.lt 0#32 rate = true) :
      Runs s (.init chan rate) (s.initialise paramDefault chan rate)
  | reset (h : s.inited = true) : Runs s .reset (s.softReset paramDefault)
  | destroy (h : s.inited = true) : Runs s .destroy { s with inited := false }
  | trigger (h : s.inited = true) (n : Note) (vel : Velocity) :
      Runs s (.trigger (n.setWidth 8) (vel.setWidth 8)) (s.triggerNote n vel)
  | noteOn (h : s.inited = true) (chan : BitVec 4) (n : Note) (vel : Velocity) :
      Runs s (.noteOn chan n vel) (s.triggerNote n vel)
  | midiOn (h : s.inited = true) (chan : BitVec 4) (n : Note) (vel : Velocity) :
      Runs s (.midi 3#8 (0x9#4 ++ chan) (n.setWidth 8) (vel.setWidth 8)) (s.triggerNote n vel)
  | release (h : s.inited = true) (n : Note) : Runs s (.release (n.setWidth 8)) (s.releaseNote n)
  | noteOff (h : s.inited = true) (chan : BitVec 4) (n : Note) (x : Byte) :
      Runs s (.noteOff chan n x) (s.releaseNote n)
  | midiOff (h : s.inited = true) (chan : BitVec 4) (n : Note) (x : Byte) :
      Runs s (.midi 3#8 (0x8#4 ++ chan) (n.setWidth 8) x) (s.releaseNote n)
  | alloff (h : s.inited = true) : Runs s .alloff s.allNotesOff
  | ccAlloff (h : s.inited = true) (chan : BitVec 4) (x : Byte) : Runs s (.ccAlloff chan x) s.allNotesOff
  | midiCc (h : s.inited = true) (chan : BitVec 4) (x : Byte) :
      Runs s (.midi 3#8 (0xB#4 ++ chan) 123#8 x) s.allNotesOff
  | midiIdle (h : s.inited = true) (len b0 b1 b2 : Byte) : Runs s (.midi len b0 b1 b2) s
  | process (h : s.inited = true) (frames offset : Count) (hf : offset.toNat + frames.toNat ≤ 2 ^ 32) :
      Runs s (.process frames offset) (s.processBlock frames offset)
  | smSetimm (h : s.inited = true) (addr : Byte) (v : Word) (i : Param) (ha : addr.toNat = i.val)
      (hv : F32.isFinite v = true) : Runs s (.smSetimm addr v) (s.setSmoother i (Smoother.setImm binary32 v))
  | smRamp (h : s.inited = true) (addr : Byte) (v dur : Word) (i : Param) (ha : addr.toNat = i.val)
      (hv : F32.isFinite v = true) :
      Runs s (.smRamp addr v dur) (s.setSmoother i ((s.smoother i).startRamp binary32 v dur))
  | smStep (h : s.inited = true) (addr : Byte) (i : Param) (ha : addr.toNat = i.val) :
      Runs s (.smStep addr) ((s.setSmoother i ((s.smoother i).advance binary32)).respond (s.smoother i).cur)
  | smGetui (h : s.inited = true) (addr : Byte) (i : Param) (ha : addr.toNat = i.val) :
      Runs s (.smGetui addr) (s.respond (s.smoother i).ui)
  | smSetui (h : s.inited = true) (addr : Byte) (v : Word) (i : Param) (ha : addr.toNat = i.val)
      (hv : F32.isFinite v = true) : Runs s (.smSetui addr v) (s.setSmoother i ((s.smoother i).setUi v))
  | pSetimm (h : s.inited = true) (addr : Byte) (v : Word) (i : Param) (ha : addr.toNat = i.val)
      (hv : F32.isFinite v = true) :
      Runs s (.pSetimm addr v) (s.setSmoother i (Smoother.setImm binary32 (clampParam binary32 i v)))
  | pSet (h : s.inited = true) (addr : Byte) (v : Word) (i : Param) (ha : addr.toNat = i.val)
      (hv : F32.isFinite v = true) :
      Runs s (.pSet addr v) (s.setSmoother i ((s.smoother i).setUi (clampParam binary32 i v)))
  | pGet (h : s.inited = true) (addr : Byte) (i : Param) (ha : addr.toNat = i.val) :
      Runs s (.pGet addr) (s.respond (s.smoother i).ui)
  | pRamp (h : s.inited = true) (addr : Byte) (v dur : Word) (i : Param) (ha : addr.toNat = i.val)
      (hv : F32.isFinite v = true) :
      Runs s (.pRamp addr v dur)
        (s.setSmoother i ((s.smoother i).startRamp binary32 (clampParam binary32 i v) dur))

theorem Runs.effect {s t : State} {i : Instr} (h : Runs s i t) : Effect s t := by
  cases h with
  | notInited => exact .ignored _ (.inr rfl)
  | notInitedRead => exact .ignoredRead _ (.inr rfl)
  | bad => exact .ignored _ (.inl rfl)
  | badRead => exact .ignoredRead _ (.inl rfl)
  | init chan rate hr => exact .init chan rate hr
  | reset h => exact .reset h
  | destroy h => exact .destroy h
  | trigger h n vel | noteOn h _ n vel | midiOn h _ n vel => exact .trigger h n vel
  | release h n | noteOff h _ n _ | midiOff h _ n _ => exact .release h n
  | alloff h | ccAlloff h _ _ | midiCc h _ _ => exact .allOff h
  | midiIdle h => exact .idle h
  | process h frames offset hf => exact .block h frames offset hf
  | smSetimm h _ _ i | pSetimm h _ _ i => exact .setSmoother h i _ (Smoother.pinned_setImm _ _)
  | smRamp h _ _ _ i | pRamp h _ _ _ i => exact .setSmoother h i _ (Smoother.pinned_startRamp _ _ _ _)
  | smStep h _ i => exact .stepSmoother h i
  | smGetui h _ i | pGet h _ i => exact .read h _
  | smSetui h _ _ i | pSet h _ _ i => exact .setUi h i _

namespace Runs

variable {s : State}

theorem of_whenInited {i : Instr} {body : State} (hi : ∀ chan rate, i ≠ .init chan rate) (hr : isRead i = false)
    (h : s.inited = true → Runs s i body) : Runs s i (s.whenInited body) := by
  by_cases hs : s.inited = true
  · rw [State.whenInited_pos hs]; exact h hs
  · rw [State.whenInited_neg (by simpa using hs)]; exact .notInited i (by simpa using hs) hi hr

theorem of_whenInitedRead {i : Instr} {body : State} (hr : isRead i = true)
    (h : s.inited = true → Runs s i body) : Runs s i (s.whenInitedRead body) := by
  by_cases hs : s.inited = true
  · rw [State.whenInitedRead_pos hs]; exact h hs
  · rw [State.whenInitedRead_neg (by simpa using hs)]; exact .notInitedRead i (by simpa using hs) hr

/-- The ways an address and a value can arrive at a smoother command. -/
theorem of_addr_real {i : Instr} {addr : Byte} {v : Word} {f : Param → F32 → State} (h : s.inited = true)
    (ho : 6 < addr.toNat ∨ F32.isFinite v = false → outOfRange i) (hr : isRead i = false)
    (hf : ∀ j : Param, addr.toNat = j.val → F32.isFinite v = true → Runs s i (f j v)) :
    Runs s i (match addrOperand addr, realOperand v with
      | some j, some x => f j x
      | _, _ => s.raise .range) := by
  by_cases ha : addr.toNat < 7
  · rw [addrOperand_some (i := ⟨addr.toNat, ha⟩) rfl]
    by_cases hv : F32.isFinite v = true
    · rw [realOperand_some hv]; exact hf _ rfl hv
    · rw [realOperand_none (by simpa using hv)]; exact .bad i (.inl h) (ho (.inr (by simpa using hv))) hr
  · rw [addrOperand_none (by omega)]; exact .bad i (.inl h) (ho (.inl (by omega))) hr

/-- The ways an address can arrive at a read. -/
theorem of_addr {i : Instr} {addr : Byte} {f : Param → State} (h : s.inited = true)
    (ho : 6 < addr.toNat → outOfRange i) (hr : isRead i = true)
    (hf : ∀ j : Param, addr.toNat = j.val → Runs s i (f j)) :
    Runs s i (match addrOperand addr with
      | some j => f j
      | none => s.badRead) := by
  by_cases ha : addr.toNat < 7
  · rw [addrOperand_some (i := ⟨addr.toNat, ha⟩) rfl]; exact hf _ rfl
  · rw [addrOperand_none (by omega)]; exact .badRead i h (ho (by omega)) hr

/-- A note operand in range is a note. -/
theorem setWidth_of_noteOperand {a : Byte} {n : Note} (h : noteOperand a = some n) : a = n.setWidth 8 := by
  obtain ⟨h1, rfl⟩ := noteOperand_eq_some.1 h
  apply BitVec.eq_of_toNat_eq
  simp only [BitVec.toNat_setWidth]
  omega

theorem noteOperand_isNone {a : Byte} (h : noteOperand a = none) : 127 < a.toNat := by
  by_contra h'
  rw [noteOperand, if_pos (by omega)] at h
  cases h

theorem of_midi (h : s.inited = true) (b0 b1 b2 : Byte) :
    Runs s (.midi 3#8 b0 b1 b2) (s.midiMessage (packMessage b0 b1 b2)) := by
  rw [State.midiMessage, statusNibble_packMessage, note_packMessage, vel_packMessage, getLsbD_15_packMessage,
    getLsbD_7_packMessage, show (packMessage b0 b1 b2).extractLsb' 8 8 = b1 from byte1_packMessage b0 b1 b2]
  have hb := byte_of_nibbles b0
  by_cases h1 : b0.extractLsb' 4 4 = 0x8#4 ∧ b1.getLsbD 7 = false
  · rw [if_pos h1]
    have e := Runs.midiOff h (b0.extractLsb' 0 4) (b1.extractLsb' 0 7) b2
    rw [← byte_of_clear h1.2, ← h1.1, ← hb] at e
    exact e
  rw [if_neg h1]
  by_cases h2 : b0.extractLsb' 4 4 = 0x9#4 ∧ b1.getLsbD 7 = false ∧ b2.getLsbD 7 = false
  · rw [if_pos h2]
    have e := Runs.midiOn h (b0.extractLsb' 0 4) (b1.extractLsb' 0 7) (b2.extractLsb' 0 7)
    rw [← byte_of_clear h2.2.1, ← byte_of_clear h2.2.2, ← h2.1, ← hb] at e
    exact e
  rw [if_neg h2]
  by_cases h3 : b0.extractLsb' 4 4 = 0xB#4 ∧ b1 = 123#8
  · rw [if_pos h3]
    have e := Runs.midiCc h (b0.extractLsb' 0 4) b2
    rw [← h3.1, ← hb, ← h3.2] at e
    exact e
  rw [if_neg h3]
  exact .midiIdle h _ _ _ _

end Runs

/-- Whatever an instruction answers as its next state, `Runs` says which of its forms led there. -/
theorem exec_runs {i : Instr} {s t : State} (h : exec i s = .next t) : Runs s i t := by
  have next : ∀ {u : State}, Host.Outcome.next u = (.next t : Result) → Runs s i u → Runs s i t := by
    intro u e hu; cases e; exact hu
  cases i with
  | init chan rate =>
    refine next h ?_
    by_cases hr : F32.isFinite rate = true ∧ F32.lt 0#32 rate = true
    · rw [rateOperand_eq_some.2 ⟨hr, rfl⟩]; exact .init chan rate hr
    · rw [rateOperand_none hr]; exact .bad _ (.inr ⟨_, _, rfl⟩) hr rfl
  | reset => exact next h (.of_whenInited (by simp) rfl .reset)
  | destroy => exact next h (.of_whenInited (by simp) rfl .destroy)
  | trigger note vel =>
    refine next h (.of_whenInited (by simp) rfl fun hi => ?_)
    cases hn : noteOperand note with
    | none => exact .bad _ (.inl hi) (.inl (Runs.noteOperand_isNone hn)) rfl
    | some n =>
      cases hv : velOperand vel with
      | none => exact .bad _ (.inl hi) (.inr (Runs.noteOperand_isNone hv)) rfl
      | some v =>
        rw [Runs.setWidth_of_noteOperand hn, Runs.setWidth_of_noteOperand (n := v) hv]
        exact .trigger hi n v
  | release note =>
    refine next h (.of_whenInited (by simp) rfl fun hi => ?_)
    cases hn : noteOperand note with
    | none => exact .bad _ (.inl hi) (Runs.noteOperand_isNone hn) rfl
    | some n => rw [Runs.setWidth_of_noteOperand hn]; exact .release hi n
  | alloff => exact next h (.of_whenInited (by simp) rfl .alloff)
  | process frames offset =>
    refine next h (.of_whenInited (by simp) rfl fun hi => ?_)
    by_cases hf : blockFits frames offset = true
    · rw [if_pos hf]; exact .process hi _ _ ((blockFits_iff _ _).1 hf)
    · rw [if_neg hf]
      exact .bad _ (.inl hi) (by rw [blockFits_iff] at hf; exact Nat.lt_of_not_le hf) rfl
  | midi len b0 b1 b2 =>
    refine next h (.of_whenInited (by simp) rfl fun hi => ?_)
    by_cases hl : len = 3#8
    · rw [if_pos hl, hl]; exact .of_midi hi b0 b1 b2
    · rw [if_neg hl]; exact .midiIdle hi _ _ _ _
  | smSetimm addr v =>
    exact next h (.of_whenInited (by simp) rfl fun hi => .of_addr_real hi id rfl fun j ha hv => .smSetimm hi addr v j ha hv)
  | smRamp addr target dur =>
    exact next h (.of_whenInited (by simp) rfl fun hi => .of_addr_real hi id rfl fun j ha hv =>
      .smRamp hi addr target dur j ha hv)
  | smStep addr =>
    exact next h (.of_whenInitedRead rfl fun hi => .of_addr hi id rfl fun j ha => .smStep hi addr j ha)
  | smGetui addr =>
    exact next h (.of_whenInitedRead rfl fun hi => .of_addr hi id rfl fun j ha => .smGetui hi addr j ha)
  | smSetui addr v =>
    exact next h (.of_whenInited (by simp) rfl fun hi => .of_addr_real hi id rfl fun j ha hv => .smSetui hi addr v j ha hv)
  | pSetimm addr v =>
    exact next h (.of_whenInited (by simp) rfl fun hi => .of_addr_real hi id rfl fun j ha hv => .pSetimm hi addr v j ha hv)
  | pSet addr v =>
    exact next h (.of_whenInited (by simp) rfl fun hi => .of_addr_real hi id rfl fun j ha hv => .pSet hi addr v j ha hv)
  | pGet addr =>
    exact next h (.of_whenInitedRead rfl fun hi => .of_addr hi id rfl fun j ha => .pGet hi addr j ha)
  | pRamp addr v dur =>
    exact next h (.of_whenInited (by simp) rfl fun hi => .of_addr_real hi id rfl fun j ha hv =>
      .pRamp hi addr v dur j ha hv)
  | noteOff chan note b2 => exact next h (.of_whenInited (by simp) rfl fun hi => .noteOff hi chan note b2)
  | noteOn chan note vel => exact next h (.of_whenInited (by simp) rfl fun hi => .noteOn hi chan note vel)
  | ccAlloff chan b2 => exact next h (.of_whenInited (by simp) rfl fun hi => .ccAlloff hi chan b2)

/-- Whatever an instruction answers as its next state is one of the effects. -/
theorem exec_effect {i : Instr} {s t : State} (h : exec i s = .next t) : Effect s t := (exec_runs h).effect

/-! ### A step -/

/-- What a command word can do: an instruction's effect, or `F_RSVD`. -/
theorem runWord_cases {w : Command} {s t : State} (h : runWord w s = .next t) :
    (∃ i, decode w = .instr i ∧ exec i s = .next t) ∨ (∃ op, decode w = .reserved op ∧ t = s.raise .rsvd) := by
  rw [runWord] at h
  cases hd : decode w with
  | instr i => rw [hd] at h; exact .inl ⟨i, rfl, h⟩
  | reserved op =>
    rw [hd] at h
    cases h
    exact .inr ⟨op, rfl, rfl⟩

/-- Everything a step can do. -/
theorem step_cases {s t : State} (h : step s = .next t) :
    (s.host = [] ∧ t = s) ∨
    (∃ w rest u, s.host = .cmd w :: rest ∧ runWord w (s.accept rest) = .next u ∧ t = u.deliver) ∨
    (∃ rest, s.host = .rst :: rest ∧ t = State.hardReset rest s.world) ∨
    (∃ w k rest u, s.host = .rstDuring w k :: rest ∧ runWord w (s.accept rest) = .next u ∧
      t = State.hardReset rest (s.world.absorbAll (u.events.take k)).abandonRun) := by
  unfold step at h
  split at h
  · rename_i hh; cases h; exact .inl ⟨hh, rfl⟩
  · rename_i w rest hh
    split at h
    · rename_i u hu; cases h; exact .inr (.inl ⟨w, rest, u, hh, hu, rfl⟩)
    · cases h
    · cases h
  · rename_i rest hh; cases h; exact .inr (.inr (.inl ⟨rest, hh, rfl⟩))
  · rename_i w k rest hh
    split at h
    · rename_i u hu; cases h; exact .inr (.inr (.inr ⟨w, k, rest, u, hh, hu, rfl⟩))
    · cases h
    · cases h

end Sys2Proof.Machine
end

