-- ==== Sys2Proof/Machine/Listing.lean ====
section
/-! DEFINITION. The textual syntax of listings (30_encoding.md R107) and its pseudo-commands (R108): one line of text
to the command word it spells. Operands that no field can hold are rejected; operands out of range are not, since such
a command has an effect of its own (R95 to R98; log 23). -/

namespace Sys2Proof.Listing

/-! ### Characters and pieces -/

def isBlank (c : Char) : Bool := c = ' ' || c = '\t' || c = '\r'

/-- The text without blanks at either end. -/
def trim (l : List Char) : List Char := (((l.dropWhile isBlank).reverse).dropWhile isBlank).reverse

/-- The text before a comment, which starts at a `;`. -/
def beforeComment (l : List Char) : List Char := l.takeWhile fun c => c ≠ ';'

/-- The pieces between commas, trimmed. -/
def pieces : List Char → List (List Char)
  | [] => [[]]
  | c :: cs =>
    if c = ',' then [] :: pieces cs
    else
      match pieces cs with
      | [] => [[c]]
      | p :: ps => (c :: p) :: ps

/-! ### Numbers -/

/-- The value of a digit, decimal or hexadecimal. -/
def digit (base : Nat) (c : Char) : Option Nat :=
  let v :=
    if '0' ≤ c ∧ c ≤ '9' then c.toNat - '0'.toNat
    else if 'a' ≤ c ∧ c ≤ 'f' then c.toNat - 'a'.toNat + 10
    else if 'A' ≤ c ∧ c ≤ 'F' then c.toNat - 'A'.toNat + 10
    else base
  if v < base then some v else none

/-- A number from its digits, after the digits read so far. -/
def digits (base acc : Nat) : List Char → Option Nat
  | [] => some acc
  | c :: cs =>
    match digit base c with
    | some d => digits base (acc * base + d) cs
    | none => none

/-- A nonempty run of digits. -/
def number (base : Nat) (l : List Char) : Option Nat := if l = [] then none else digits base 0 l

/-- A decimal or `0x` hexadecimal integer. -/
def integer : List Char → Option Nat
  | '0' :: 'x' :: ds => number 16 ds
  | ds => number 10 ds

/-- An integer that a field of `w` bits can hold. -/
def field (w : Nat) (l : List Char) : Option (BitVec w) :=
  match integer l with
  | some n => if n < 2 ^ w then some (BitVec.ofNat w n) else none
  | none => none

/-- A decimal literal without sign, `lit` of it (R7). -/
def unsignedReal (l : List Char) : Option F32 :=
  let whole := l.takeWhile fun c => c ≠ '.'
  let fraction := (l.dropWhile fun c => c ≠ '.').drop 1
  match number 10 whole, (if whole.length = l.length then some 0 else number 10 fraction) with
  | some a, some b => some (F32.lit (a * 10 ^ fraction.length + b : Nat) (10 ^ fraction.length))
  | _, _ => none

/-- A decimal literal; `-0.0` is the negative zero. -/
def real : List Char → Option F32
  | '-' :: ds => (unsignedReal ds).map F32.neg
  | ds => unsignedReal ds

/-- The names of the parameter addresses, in address order (R28, R107). -/
def addressNames : List String :=
  ["carrierMultiplier", "modulatingMultiplier", "modulationIndex", "attackDuration", "releaseDuration",
    "detuningOffset", "detuningMultiplier"]

/-- A parameter address, by number or by name. -/
def address (l : List Char) : Option Byte :=
  match addressNames.findIdx? fun s => s.toList = l with
  | some i => some (BitVec.ofNat 8 i)
  | none => field 8 l

/-- A channel of a pseudo-command. -/
def channel (l : List Char) : Option (BitVec 4) := field 4 l

/-! ### Commands -/

/-- The commands of R107, by mnemonic and operands. -/
def command (mnemonic : List Char) (ops : List (List Char)) : Option Instr :=
  match ops with
  | [] =>
    if mnemonic = "RESET".toList then some .reset
    else if mnemonic = "DESTROY".toList then some .destroy
    else if mnemonic = "ALLOFF".toList then some .alloff
    else none
  | [a] =>
    if mnemonic = "RELEASE".toList then .release <$> field 8 a
    else if mnemonic = "SM_STEP".toList then .smStep <$> address a
    else if mnemonic = "SM_GETUI".toList then .smGetui <$> address a
    else if mnemonic = "P_GET".toList then .pGet <$> address a
    else none
  | [a, b] =>
    if mnemonic = "INIT".toList then .init <$> field 8 a <*> real b
    else if mnemonic = "TRIGGER".toList then .trigger <$> field 8 a <*> field 8 b
    else if mnemonic = "PROCESS".toList then .process <$> field 32 a <*> field 32 b
    else if mnemonic = "SM_SETIMM".toList then .smSetimm <$> address a <*> real b
    else if mnemonic = "SM_SETUI".toList then .smSetui <$> address a <*> real b
    else if mnemonic = "P_SETIMM".toList then .pSetimm <$> address a <*> real b
    else if mnemonic = "P_SET".toList then .pSet <$> address a <*> real b
    else none
  | [a, b, c] =>
    if mnemonic = "SM_RAMP".toList then .smRamp <$> address a <*> real b <*> field 32 c
    else if mnemonic = "P_RAMP".toList then .pRamp <$> address a <*> real b <*> field 32 c
    else none
  | [a, b, c, d] =>
    if mnemonic = "MIDI".toList then .midi <$> field 8 a <*> field 8 b <*> field 8 c <*> field 8 d
    else none
  | _ => none

/-- The pseudo-commands of R108. -/
def pseudo (mnemonic : List Char) (ops : List (List Char)) : Option Pseudo :=
  match ops with
  | [a] =>
    if mnemonic = "STOPNOTE".toList then .stopNote <$> field 8 a
    else if mnemonic = "PANIC".toList then .panic <$> channel a
    else if mnemonic = "SET_CARRIER".toList then .setCarrier <$> real a
    else if mnemonic = "SET_MODULATING".toList then .setModulating <$> real a
    else if mnemonic = "SET_INDEX".toList then .setIndex <$> real a
    else if mnemonic = "SET_ATTACK".toList then .setAttack <$> real a
    else if mnemonic = "SET_RELEASE".toList then .setRelease <$> real a
    else if mnemonic = "SET_DETUNE_OFFSET".toList then .setDetuneOffset <$> real a
    else if mnemonic = "SET_DETUNE_MULT".toList then .setDetuneMult <$> real a
    else none
  | [a, b] => if mnemonic = "STARTNOTE".toList then .startNote <$> field 8 a <*> field 8 b else none
  | [a, b, c] =>
    if mnemonic = "NOTE_ON".toList then .noteOn <$> channel a <*> field 8 b <*> field 8 c
    else if mnemonic = "NOTE_OFF".toList then .noteOff <$> channel a <*> field 8 b <*> field 8 c
    else none
  | _ => none

/-! ### Lines -/

/-- What one line of a listing is. -/
inductive Line where
  /-- Nothing but blanks and a comment. -/
  | blank
  /-- A command, as the word it stands for. -/
  | word (w : Command)
  /-- Not a line of R107 or R108. -/
  | malformed
  deriving DecidableEq, Repr

/-- One line of a listing (R107, R108). -/
def line (text : List Char) : Line :=
  let body := trim (beforeComment text)
  let mnemonic := body.takeWhile fun c => !isBlank c
  let rest := trim (body.dropWhile fun c => !isBlank c)
  let ops := if rest = [] then [] else (pieces rest).map trim
  if body = [] then .blank
  else
    match command mnemonic ops, (pseudo mnemonic ops).map Pseudo.expand with
    | some i, _ => .word (encode i)
    | none, some i => .word (encode i)
    | none, none => .malformed

end Sys2Proof.Listing
end

