-- ==== Sys2Proof/Tests/Slice0.lean ====
section
/-! SUPPORT. The model's own tests. Expected results are the spec's: the worked encodings of R109, the vectors V-* and
programs P1 to P4 of 95_test_vectors.md, the examples of the rules. The last part shows for each statement with
hypotheses a state and operands that meet them. -/

namespace Sys2Proof.Tests

set_option Elab.async false
open Sys2Proof.Machine

/-! ### Well-formedness: the terms the check refuses -/

theorem test_midi_note_off_ill_formed : Instr.wellFormed (.midi 3 0x80 60 0) = false := by decide +kernel
theorem test_midi_note_on_ill_formed : Instr.wellFormed (.midi 3 0x90 60 100) = false := by decide +kernel
theorem test_midi_all_off_ill_formed : Instr.wellFormed (.midi 3 0xB3 123 127) = false := by decide +kernel
theorem test_midi_ignored_well_formed :
    (Instr.midi 2 0x90 60 100).wellFormed = true ∧ (Instr.midi 3 0x90 128 60).wellFormed = true := by decide +kernel

/-! ### Decoding: words of the spec -/

theorem test_decode_notes :
    decode 0x103C64FFFFFFFFFFFFFFFFFF#96 = .instr (.trigger 60 100) ∧
    decode 0x108001000000000000000000#96 = .instr (.trigger 128 1) ∧
    decode 0x113C00000000000000000000#96 = .instr (.release 60) ∧
    decode 0x120000000000000000000000#96 = .instr .alloff := by decide +kernel

theorem test_decode_block_and_system :
    decode 0x180000000000000C00000008#96 = .instr (.process 8 12) ∧
    decode 0x18000000FFFFFFFF00000002#96 = .instr (.process 2 0xFFFFFFFF) ∧
    decode 0x010200004480000000000000#96 = .instr (.init 2 0x44800000) ∧
    decode 0x020000000000000000000000#96 = .instr .reset ∧
    decode 0x030000000000000000000000#96 = .instr .destroy := by decide +kernel

theorem test_decode_smoother :
    decode 0x200700003F80000000000000#96 = .instr (.smSetimm 7 0x3F800000) ∧
    decode 0x210000003F80000000000064#96 = .instr (.smRamp 0 0x3F800000 100) ∧
    decode 0x220000000000000000000000#96 = .instr (.smStep 0) ∧
    decode 0x230500000000000000000000#96 = .instr (.smGetui 5) ∧
    decode 0x240600003F80000000000000#96 = .instr (.smSetui 6 0x3F800000) := by decide +kernel

theorem test_decode_parameter :
    decode 0x3003000041C8000000000000#96 = .instr (.pSetimm 3 0x41C80000) ∧
    decode 0x310600004000000000000000#96 = .instr (.pSet 6 0x40000000) ∧
    decode 0x320300000000000000000000#96 = .instr (.pGet 3) ∧
    decode 0x330300003C80000000000002#96 = .instr (.pRamp 3 0x3C800000 2) := by decide +kernel

/-- V-DEC9 to V-DEC11, V-DEC14, V-DEC16, V-DEC20. -/
theorem test_decode_messages :
    decode 0x1C0300000000000000903C64#96 = .instr (.noteOn 0 60 100) ∧
    decode 0x1C03000000000000009F3C64#96 = .instr (.noteOn 15 60 100) ∧
    decode 0x1C0300000000000000903C00#96 = .instr (.noteOn 0 60 0) ∧
    decode 0x1C0300000000000000803CFF#96 = .instr (.noteOff 0 60 255) ∧
    decode 0x1C0300000000000000B37B7F#96 = .instr (.ccAlloff 3 127) ∧
    decode 0x1C03000000000000FF903C64#96 = .instr (.noteOn 0 60 100) := by decide +kernel

/-- V-DEC12, V-DEC13, V-DEC15, V-DEC17 to V-DEC19: no row matches. -/
theorem test_decode_dropped_messages :
    ([0x90803C, 0x903C80, 0x80FF00, 0xB07800, 0xA03C40, 0xC03C00, 0xE00040, 0xF07B00, 0x103C64].all fun m =>
      (decodeMessage (BitVec.ofNat 24 m)).isNone) = true ∧
    decode 0x1C0200000000000000903C64#96 = .instr (.midi 2 0x90 60 100) := by decide +kernel

/-- V-DEC7, V-DEC8. -/
theorem test_decode_reserved :
    decode 0x7F0000000000000000000000#96 = .reserved 0x7F ∧ decode 0#96 = .reserved 0 := by decide +kernel

theorem test_table_words :
    decodeTableWord 24 0x903C64 = some (.noteOn 0 60 100) ∧
    decodeTableWord 96 0x010200004480000000000000 = some (.init 2 0x44800000) ∧
    decodeTableWord 96 0x7F0000000000000000000000 = none := by decide +kernel

/-- R107, R108, on the words of R109 and of P1 to P4. -/
theorem test_listing_lines :
    Listing.line "TRIGGER 60, 100 ; note on".toList = .word 0x103C64000000000000000000 ∧
    Listing.line "  P_RAMP attackDuration, 0.015625, 2".toList = .word 0x330300003C80000000000002 ∧
    Listing.line "MIDI 3, 0x90, 60, 100".toList = .word 0x1C0300000000000000903C64 ∧
    Listing.line "SET_ATTACK 25.0".toList = .word 0x3003000041C8000000000000 ∧
    Listing.line "NOTE_ON 1, 64, 1".toList = .word 0x1C0300000000000000914001 ∧
    Listing.line "; nothing".toList = .blank ∧ Listing.line "TRIGGER 60".toList = .malformed := by decide +kernel

/-! ### NUM: values the spec gives (95_test_vectors.md T4 to T7, V-CNT) -/

/-- V-CNT1 to V-CNT9, V-CNT11: 8, 7.9, 7.499, 7.5, 0.5, 1.5, 2.5, 0.49999, -0, -3, NaN, infinity, 0.1f * 44100f. -/
theorem test_toCount :
    [0x41000000#32, 0x40FCCCCD#32, 0x40EFF7CF#32, 0x40F00000#32, 0x3F000000#32, 0x3FC00000#32, 0x40200000#32,
      0x3EFFFEB0#32, 0x80000000#32, 0xC0400000#32, 0x7FC00000#32, 0x7F800000#32,
      F32.mul 0x3DCCCCCD#32 0x472C4400#32].map binary32.toCount =
    [8#32, 8#32, 7#32, 8#32, 1#32, 2#32, 3#32, 0#32, 0#32, 0#32, 0#32, 0#32, 4410#32] := by decide +kernel

/-- T4, T6, T7: 1 / 4410, (1 - level) / 4410, 1 / 100, 0.01f + 0.01f; V-SM9: 1 / 3. -/
theorem test_binary32 :
    F32.div 0x3F800000#32 (F32.ofNat 4410) = 0x396DC5B8#32 ∧
    F32.div (F32.sub 0x3F800000#32 0x3B149B94#32) (F32.ofNat 4410) = 0x396D3BB1#32 ∧
    F32.div 0x3F800000#32 (F32.ofNat 100) = 0x3C23D70A#32 ∧
    F32.add 0x3C23D70A#32 0x3C23D70A#32 = 0x3CA3D70A#32 ∧
    F32.div 0x3F800000#32 (F32.ofNat 3) = 0x3EAAAAAB#32 := by decide +kernel

/-! ### The test configuration TC of 95_test_vectors.md -/

/-- `[1, 1, 1, 1/128, 1/256, 0, 1]`. -/
def tcDefault (i : Param) : F32 :=
  #v[0x3F800000#32, 0x3F800000#32, 0x3F800000#32, 0x3C000000#32, 0x3B800000#32, 0#32, 0x3F800000#32][i.val]

/-- State TC0. -/
def tc0 : State := State.reset.initialise tcDefault 2 0x44800000#32

/-- TC0 with voices sounding, `voices` in the order of the active list. -/
def tcWith (voices : List (Note × Voice F32)) : State :=
  { voices.foldl (fun s p => s.setVoice p.1 p.2) tc0 with
    al := voices.map fun p => p.1
    activeCount := BitVec.ofNat 8 voices.length }

/-- TC0 with one smoother set. -/
def tcSm (i : Param) (m : Smoother F32) : State := tc0.setSmoother i m

/-- What `f` shows of a next state. -/
def after {α : Type} (r : Result) (f : State → α) : Option α :=
  match r with
  | .next t => some (f t)
  | .fault _ => none
  | .refused _ => none

/-- Voice 60 of R154's vector: `(Attack, 0.5, 0.125, 4)`. -/
def attack60 : Voice F32 := ⟨.attack, 0x3F000000#32, 0x3E000000#32, 4#32⟩

/-- The voice of R156's example: `(Sustain, 1, 0, 0)`. -/
def sustain : Voice F32 := ⟨.sustain, 0x3F800000#32, 0#32, 0#32⟩

theorem test_tc0_counts : tc0.attackSamples = 8#32 ∧ tc0.releaseSamples = 4#32 := by decide +kernel

/-! ### One step per test -/

theorem test_init_from_reset :
    after (exec (.init 2 0x44800000#32) State.reset) (fun t => (t.inited, t.sampleRate, t.chanCount, t.flags)) =
      some (true, 0x44800000#32, 2#8, 0#4) := by decide +kernel

/-- V-ERR3. -/
theorem test_init_rate_zero :
    after (exec (.init 2 0#32) State.reset) (fun t => (t.inited, t.flags)) = some (false, 0b0001#4) := by decide +kernel

/-- V-RST3: the counts stay. -/
theorem test_reset_keeps_counts :
    after (exec .reset { tcWith [(60, attack60)] with attackSamples := 1024#32 })
      (fun t => (t.attackSamples, t.al, t.voice 60, t.freshReset)) =
      some (1024#32, [], ⟨.off, 0#32, 0#32, 0#32⟩, true) := by decide +kernel

/-- V-ERR6. -/
theorem test_destroy : after (exec .destroy tc0) (fun t => (t.inited, t.flags)) = some (false, 0#4) := by decide +kernel

/-- The example of R150. -/
theorem test_trigger :
    after (exec (.trigger 60 100) tc0) (fun t => (t.voice 60, t.al, t.activeCount, t.events)) =
      some (⟨.attack, 0#32, 0x3E000000#32, 8#32⟩, [60], 1#8, [.oscInit 60, .oscNote 60 100]) := by decide +kernel

/-- T6: a re-trigger starts from the current level. -/
theorem test_retrigger :
    after (exec (.trigger 60 100) (tcWith [(60, attack60)])) (fun t => (t.voice 60, t.al, t.events)) =
      some (⟨.attack, 0x3F000000#32, 0x3D800000#32, 8#32⟩, [60], [.oscNote 60 100]) := by decide +kernel

/-- The example of R156. -/
theorem test_release :
    after (exec (.release 60) (tcWith [(60, sustain)])) (fun t => (t.voice 60, t.al)) =
      some (⟨.release, 0x3F800000#32, 0xBE800000#32, 4#32⟩, [60]) := by decide +kernel

/-- V-ENV14: 255 is no note. -/
theorem test_release_out_of_range :
    after (exec (.release 255) (tcWith [(127, sustain)])) (fun t => (t.voice 127, t.flags)) =
      some (sustain, 0b0001#4) := by decide +kernel

/-- V-ENV12. -/
theorem test_alloff :
    after (exec .alloff (tcWith [(60, attack60), (64, sustain)])) (fun t => (t.voice 60, t.voice 64, t.al, t.events)) =
      some (⟨.off, 0#32, 0#32, 0#32⟩, ⟨.off, 0#32, 0#32, 0#32⟩, [], []) := by decide +kernel

/-- V-BLK1, the worked block of R208. -/
theorem test_process_worked_block :
    let p : Snapshot := ⟨0x3F800000#32, 0x3F800000#32, 0x3F800000#32, 0#32, 0x3F800000#32⟩
    after (exec (.process 4 0) (tcWith [(64, ⟨.release, 0x3F000000#32, 0xBE800000#32, 2#32⟩),
      (60, ⟨.attack, 0x3F000000#32, 0x3D800000#32, 8#32⟩)])) (fun t => (t.voice 64, t.voice 60, t.al, t.events)) =
      some (⟨.off, 0#32, 0#32, 0#32⟩, ⟨.attack, 0x3F400000#32, 0x3D800000#32, 4#32⟩, [60],
        [.blockBegin 4 0, .oscParams 64 p, .gain 64 0 0x3F000000#32, .gain 64 1 0x3E800000#32, .oscDestroy 64,
          .oscParams 60 p, .gain 60 0 0x3F000000#32, .gain 60 1 0x3F100000#32, .gain 60 2 0x3F200000#32,
          .gain 60 3 0x3F300000#32, .blockEnd]) := by decide +kernel

/-- V-ERR7: a voice found Off. -/
theorem test_process_defect :
    after (exec (.process 4 0) { tc0 with al := [9], activeCount := 1#8 })
      (fun t => (t.flags, t.al, t.events.length, t.faultOf)) =
      some (0b0100#4, [9], 3, some .invariantViolation) := by decide +kernel

/-- V-DEC12: a data byte above 127 raises nothing. -/
theorem test_midi_dropped :
    after (exec (.midi 3 0x90 128 60) tc0) (fun t => (t.al, t.flags, t.events)) = some ([], 0#4, []) := by decide +kernel

/-- The term the decoder never answers has the message's effect all the same (R203). -/
theorem test_midi_note_on :
    after (exec (.midi 3 0x90 60 100) tc0) id = after (exec (.noteOn 0 60 100) tc0) id := by decide +kernel

/-- V-SM1. -/
theorem test_smSetimm :
    after (exec (.smSetimm 2 0x3F000000#32) tc0) (fun t => t.smoother 2) =
      some ⟨0x3F000000#32, 0x3F000000#32, 0x3F000000#32, 0#32, 0#32⟩ := by decide +kernel

/-- P4 steps 7 and 8. -/
theorem test_smSetimm_bad_operands :
    after (exec (.smSetimm 7 0x3F800000#32) tc0) (fun t => t.flags) = some 0b0001#4 ∧
    after (exec (.smSetimm 0 0x7FC00000#32) tc0) (fun t => (t.smoother 0 = tc0.smoother 0 : Bool)) =
      some true := by decide +kernel

/-- V-SM2. -/
theorem test_smRamp :
    after (exec (.smRamp 0 0x3F800000#32 4) (tcSm 0 ⟨0#32, 0#32, 0#32, 0#32, 0#32⟩)) (fun t => t.smoother 0) =
      some ⟨0#32, 0x3F800000#32, 0x3F800000#32, 4#32, 0x3E800000#32⟩ := by decide +kernel

/-- V-SM6: the last step of a ramp. -/
theorem test_smStep_last :
    after (exec (.smStep 2) (tcSm 2 ⟨0x3F800000#32, 0x40A00000#32, 0x40A00000#32, 1#32, 0x40800000#32⟩))
      (fun t => (t.rsp, t.smoother 2)) =
      some (some 0x3F800000#32, ⟨0x40A00000#32, 0x40A00000#32, 0x40A00000#32, 0#32, 0#32⟩) := by decide +kernel

/-- V-SM7. -/
theorem test_smStep :
    after (exec (.smStep 0) (tcSm 0 ⟨0x3F000000#32, 0x3F800000#32, 0x40400000#32, 2#32, 0x3E800000#32⟩))
      (fun t => (t.rsp, t.smoother 0)) =
      some (some 0x3F000000#32, ⟨0x3F400000#32, 0x3F800000#32, 0x40400000#32, 1#32, 0x3E800000#32⟩) := by decide +kernel

/-- V-SM7. -/
theorem test_smSetui :
    after (exec (.smSetui 0 0x40400000#32) (tcSm 0 ⟨0x3F000000#32, 0x3F800000#32, 0x3F800000#32, 2#32, 0x3E800000#32⟩))
      (fun t => t.smoother 0) =
      some ⟨0x3F000000#32, 0x3F800000#32, 0x40400000#32, 2#32, 0x3E800000#32⟩ := by decide +kernel

/-- V-SM7. -/
theorem test_smGetui :
    after (exec (.smGetui 0) (tcSm 0 ⟨0x3F000000#32, 0x3F800000#32, 0x40400000#32, 2#32, 0x3E800000#32⟩))
      (fun t => t.rsp) = some (some 0x40400000#32) := by decide +kernel

/-- The example of R134: 25.0 clamps to 10. -/
theorem test_pSetimm :
    after (exec (.pSetimm 3 0x41C80000#32) tc0) (fun t => t.smoother 3) =
      some ⟨0x41200000#32, 0x41200000#32, 0x41200000#32, 0#32, 0#32⟩ := by decide +kernel

/-- The example of R135: 2.0 clamps to the binary32 image of 1.11. -/
theorem test_pSet :
    after (exec (.pSet 6 0x40000000#32) tc0) (fun t => t.smoother 6) =
      some ⟨0x3F800000#32, 0x3F800000#32, 0x3F8E147B#32, 0#32, 0#32⟩ := by decide +kernel

/-- V-ERR2. -/
theorem test_pGet_before_init :
    after (exec (.pGet 3) State.reset) (fun t => (t.rsp, t.flags)) = some (some 0#32, 0b0010#4) := by decide +kernel

/-- The example of R136. -/
theorem test_pGet :
    after (exec (.pGet 0) (tcSm 0 ⟨0x3F800000#32, 0x40000000#32, 0x40000000#32, 8#32, 0x3E000000#32⟩))
      (fun t => t.rsp) = some (some 0x40000000#32) := by decide +kernel

/-- The example of R137: 2000.0 clamps to 1000. -/
theorem test_pRamp :
    after (exec (.pRamp 5 0x44FA0000#32 4) tc0) (fun t => t.smoother 5) =
      some ⟨0#32, 0x447A0000#32, 0x447A0000#32, 4#32, 0x437A0000#32⟩ := by decide +kernel

/-- T9. -/
theorem test_noteOff :
    after (exec (.noteOff 0 60 0) (tcWith [(60, attack60)])) (fun t => (t.voice 60, t.al)) =
      some (⟨.release, 0x3F000000#32, 0xBE000000#32, 4#32⟩, [60]) := by decide +kernel

/-- V-DEC11: a Note-On of velocity 0 releases. -/
theorem test_noteOn_velocity_zero :
    after (exec (.noteOn 0 60 0) (tcWith [(60, sustain)])) (fun t => (t.voice 60, t.events)) =
      some (⟨.release, 0x3F800000#32, 0xBE800000#32, 4#32⟩, []) := by decide +kernel

/-- P3 step 10. -/
theorem test_ccAlloff :
    after (exec (.ccAlloff 0 0) (tcWith [(64, attack60)])) (fun t => (t.voice 64, t.al, t.activeCount, t.events)) =
      some (⟨.off, 0#32, 0#32, 0#32⟩, [], 0#8, []) := by decide +kernel

/-- V-ERR4: a reserved `op` before `INIT`. -/
theorem test_reserved_before_init :
    after (runWord 0x7F0000000000000000000000#96 State.reset) (fun t => t.flags) = some 0b1000#4 := by decide +kernel

/-- V-RST1, with a flag set before. -/
theorem test_hardware_reset :
    after (step { tcWith [(60, sustain)] with flags := 0b1011#4, host := [.rst] })
      (fun t => (t.flags, t.inited, t.al, t.voice 60, t.freshReset)) =
      some (0#4, false, [], ⟨.off, 0#32, 0#32, 0#32⟩, true) := by decide +kernel

/-- R77 and the canonical form: a frame outside the region keeps its sample. -/
theorem test_block_end :
    (World.absorb { World.initial with frames := 1#32, offset := 3#32, buf := ⟨[(3, 0x3F800000#32), (4, 0x3F800000#32)], []⟩ }
      .blockEnd).buf.left = [(3, 0x3F000000#32), (4, 0x3F800000#32)] := by decide +kernel

/-- R206 by hand: 440 × 2^((n−69)/12) at notes 0, 57, 60, 69, 81, 127 and (v/127)² at 0, 1, 64, 127; a NaN, a negative value
and the neighbouring note's value are not the note's. -/
theorem test_note_maps :
    [0#7, 57#7, 60#7, 69#7, 81#7, 127#7].map nearestPitch =
      [0x4102D013#32, 0x435C0000#32, 0x4382D013#32, 0x43DC0000#32, 0x445C0000#32, 0x4643FF6A#32] ∧
    [0#7, 1#7, 64#7, 127#7].map nearestAmplitude = [0#32, 0x38820610#32, 0x3E820610#32, 0x3F800000#32] ∧
    [0x7FC00000#32, 0xC382D013#32, 0x438A9C00#32, 0x4382D014#32].map (isPitch 60) = [false, false, false, true] ∧
    [0x7FC00000#32, 0x80000001#32, 0x3E800000#32].map (isAmplitude 64) = [false, false, false] := by decide +kernel

/-- R78: Gain(60, 3) is voice 60's last of a block of 4, Gain(60, 2) is not; a voice that ends early ends at OscDestroy. -/
theorem test_run_ends :
    ([Event.gain 60 2 0, .gain 60 3 0, .gain 61 3 0, .oscDestroy 60, .oscDestroy 61].map fun e =>
      (({ World.initial with frames := 4#32, running := some ⟨60, 0, 0, 0, 0x43DC0000#32⟩ } : World).absorb e).frequencyOf 60)
      = [0x43DC0000#32, 0#32, 0x43DC0000#32, 0#32, 0x43DC0000#32] := by decide +kernel

/-- A pulse in flight: the environment keeps the events that left the port before it, here `BlockBegin` alone. -/
theorem test_reset_in_flight :
    after (step { tcWith [(60, sustain)] with host := [.rstDuring 0x180000000000000300000004#96 1] })
      (fun t => (t.al, t.events, t.world.frames, t.world.offset)) = some ([], [], 4#32, 3#32) := by decide +kernel

/-! ### Witnesses: the hypotheses of each statement can be met -/

theorem witness_CommandWordFormat : ∀ op ∈ assignedOps, opField (packCommand op 1 2 3 4) = op := by decide +kernel

theorem witness_ReservedOpcodes :
    (0x7F0000000000000000000000#96).extractLsb' 88 8 ∉ assignedOps ∧
      (0x010200004480000000000000#96).extractLsb' 88 8 ∈ assignedOps := by decide +kernel

/-- Rows at the ends of their ranges, and a message and a length no row takes. -/
theorem witness_MidiMessageDecoding :
    isNoteOff 0x807FFF = true ∧ isNoteOn 0x9F7F7F = true ∧ isCcAlloff 0xBF7BFF = true ∧
      decodeMessage 0x808000 = none ∧ decodeMessage 0xB07C00 = none ∧ (2#8 : Byte) ≠ 3#8 := by decide +kernel

theorem witness_DecodeOfEncode :
    Instr.wellFormed (.noteOn 15 127 127) = true ∧ Instr.wellFormed (.midi 3 0xFF 255 255) = true ∧
      Instr.wellFormed (.midi 255 0x90 60 100) = true := by decide +kernel

theorem witness_DecodedIsWellFormed : decode 0x1C0300000000000000807FFF#96 = .instr (.noteOff 0 127 255) := by
  decide +kernel

theorem witness_StepRunsDecodedCommand :
    (∃ t, exec (.trigger 60 100) { { tc0 with host := [.cmd 0x103C64000000000000000000#96] } with
      host := [], rsp := none, events := [] } = .next t) ∧
    decode 0x103C64000000000000000000#96 = .instr (.trigger 60 100) ∧
    decode 0xFF0000000000000000000000#96 = .reserved 0xFF#8 ∧
    decodeTableWord 24 0x903C64 = some (.noteOn 0 60 100) ∧ State.reset.host = [] :=
  ⟨⟨_, rfl⟩, by decide +kernel, by decide +kernel, by decide +kernel, rfl⟩

theorem witness_HardwareReset :
    { tc0 with host := [.rst] }.host = .rst :: [] ∧
      { tc0 with host := [.rstDuring 0x120000000000000000000000#96 2] }.host =
        .rstDuring 0x120000000000000000000000#96 2 :: [] := ⟨rfl, rfl⟩

/-- The invariant holds of a state with a voice in Sustain and one in Attack. -/
theorem witness_Inv : Inv (tcWith [(60, sustain), (64, attack60)]) where
  active_iff := by decide +kernel
  active_nodup := by decide +kernel
  active_count := by decide +kernel
  active_bound := by decide +kernel
  off_clear := by decide +kernel
  sustain_still := by decide +kernel
  smoother_pinned := by decide +kernel
  rate_legal := by decide +kernel
  counts_derived := by decide +kernel
  buffer_canonical := by decide +kernel
  no_defect := by decide +kernel

theorem witness_StepKeepsInvariant :
    Inv (tcWith [(60, sustain), (64, attack60)]) ∧ ∃ t, step (tcWith [(60, sustain), (64, attack60)]) = .next t :=
  ⟨witness_Inv, _, rfl⟩

theorem witness_FlagsAreSticky :
    (∃ t, exec .alloff State.reset = .next t) ∧
      ∃ s t : State, step s = .next t ∧ s.flags &&& t.flags ≠ s.flags :=
  ⟨⟨_, rfl⟩, { tc0 with flags := 0b1011#4, host := [.rst] }, _, rfl, by decide⟩

theorem witness_IgnoredBeforeInit :
    State.reset.inited = false ∧ ∀ chan rate, Instr.pGet 3 ≠ .init chan rate := ⟨rfl, nofun⟩

/-- Each cause at its boundary, and its neighbour that is no cause. -/
theorem witness_RangeFlagCauses :
    tc0.inited = true ∧
    outOfRange (.trigger 128 0) ∧ outOfRange (.trigger 0 128) ∧ outOfRange (.release 128) ∧
    outOfRange (.process 2 0xFFFFFFFF) ∧ outOfRange (.smSetimm 7 0) ∧ outOfRange (.smRamp 0 0x7F800000 1) ∧
    outOfRange (.smStep 7) ∧ outOfRange (.init 2 0) ∧
    ¬outOfRange (.trigger 127 127) ∧ ¬outOfRange (.process 1 0xFFFFFFFF) ∧ ¬outOfRange (.pRamp 6 0x7F7FFFFF 0) ∧
    ¬outOfRange (.init 2 1) := by unfold outOfRange; decide +kernel

theorem witness_InitResult :
    (F32.isFinite 1#32 = true ∧ F32.lt 0#32 1#32 = true) ∧
    (F32.isFinite 0x7F7FFFFF#32 = true ∧ F32.lt 0#32 0x7F7FFFFF#32 = true) ∧
    ¬(F32.isFinite 0x7F800000#32 = true ∧ F32.lt 0#32 0x7F800000#32 = true) ∧
    ¬(F32.isFinite 0x80000000#32 = true ∧ F32.lt 0#32 0x80000000#32 = true) := by decide +kernel

/-- For ResetResult, DestroyResult and every clause on an initialised and on an uninitialised block. -/
theorem witness_inited : tc0.inited = true ∧ State.reset.inited = false := ⟨rfl, rfl⟩

theorem witness_BankRegisterWriters :
    after (exec (.init 2 0x44800000#32) State.reset) (fun t =>
      (decide (t.sampleRate ≠ State.reset.sampleRate), decide (t.inited ≠ State.reset.inited))) = some (true, true) ∧
    after (exec (.process 0 0) (tcSm 3 ⟨0x3C800000#32, 0x3C800000#32, 0x3C800000#32, 0#32, 0#32⟩)) (fun t =>
      (decide (t.gp ≠ tc0.gp), decide (t.attackSamples ≠ tc0.attackSamples), decide (t.freshReset ≠ tc0.freshReset))) =
      some (true, true, true) ∧
    after (exec (.trigger 60 100) tc0) (fun t => (decide (t.al ≠ tc0.al), decide (t.activeCount ≠ tc0.activeCount))) =
      some (true, true) ∧
    after (exec (.trigger 128 1) tc0) (fun t => decide (t.flags ≠ tc0.flags)) = some true := by decide +kernel

theorem witness_RegisterFileWriters :
    (∃ t, exec (.trigger 127 1) tc0 = .next t) ∧ isNoteCommand (.trigger 127 1) = true ∧
    smootherAddress (.smStep 7) = some 7 ∧ (126#7 : Note).toNat ≠ (127#8 : Byte).toNat ∧
    (5 : Param).val ≠ (6#8 : Byte).toNat := ⟨⟨_, rfl⟩, rfl, rfl, by decide, by decide⟩

/-- The first, the last and no address, and the ends of the finite values: for the nine smoother commands. -/
theorem witness_smoother_operands :
    tc0.inited = true ∧ (0#8 : Byte).toNat = (0 : Param).val ∧ (6#8 : Byte).toNat = (6 : Param).val ∧
    6 < (7#8 : Byte).toNat ∧ F32.isFinite 0xFF7FFFFF#32 = true ∧ F32.isFinite 0xFF800000#32 = false ∧
    (1#32 : Count) ≠ 0#32 := by decide +kernel

/-- SmStepResult: no ramp, the last step, two steps left. -/
theorem witness_SmStepResult :
    (tc0.sm[6]).rem = 0#32 ∧ ((tcSm 6 ⟨0#32, 0#32, 0#32, 1#32, 0#32⟩).sm[6]).rem = 1#32 ∧
      1 < ((tcSm 6 ⟨0#32, 0#32, 0#32, 2#32, 0#32⟩).sm[6]).rem.toNat := by decide +kernel

/-- ParameterRanges, OrderAndClamp: below, inside and above, and at both bounds. -/
theorem witness_ParameterRanges :
    F32.value 0xBF800000#32 < F32.value (rangeLo binary32 3) ∧
    F32.value (rangeHi binary32 3) < F32.value 0x41200001#32 ∧
    F32.value (rangeLo binary32 3) ≤ F32.value 0x41200000#32 ∧
    F32.value 0x41200000#32 ≤ F32.value (rangeHi binary32 3) ∧
    F32.value (rangeLo binary32 3) ≤ F32.value 0x80000000#32 := by decide +kernel

/-- RampCalls: no ramp, the last step, and a ramp of one call and of 2^32 - 1. -/
theorem witness_RampCalls :
    (⟨1, 1, 1, 0#32, 0⟩ : Smoother Rat).rem = 0#32 ∧ (⟨0, 1, 1, 1#32, 1⟩ : Smoother Rat).rem = 1#32 ∧
    (1#32 : Count) ≠ 0#32 ∧ 0 < (1#32 : Count).toNat ∧ 4294967294 < (0xFFFFFFFF#32 : Count).toNat ∧
    (0 : Rat) ≤ 1 := by decide +kernel

theorem witness_SmootherInvariants :
    (∃ t, exec (.smRamp 6 0x3F800000#32 4) tc0 = .next t) ∧ (tc0.smoother 6).ui = (tc0.smoother 6).tgt ∧
    (tc0.smoother 6).cur = (tc0.smoother 6).tgt ∧ ¬outOfRange (.init 2 0x44800000#32) :=
  ⟨⟨_, rfl⟩, by decide +kernel, by decide +kernel, by unfold outOfRange; decide +kernel⟩

theorem witness_SurfaceStaysInRange :
    (∃ t, exec (.pRamp 3 0x44FA0000#32 4) tc0 = .next t) ∧
    F32.value (rangeLo binary32 3) ≤ F32.value (tc0.smoother 3).tgt ∧
    F32.value (tc0.smoother 3).tgt ≤ F32.value (rangeHi binary32 3) ∧
    rangeLo exactNum 6 ≤ 1 ∧ (1 : Rat) ≤ rangeHi exactNum 6 :=
  ⟨⟨_, rfl⟩, by decide +kernel, by decide +kernel, by decide +kernel, by decide +kernel⟩

/-- Two states that differ in a UI value, and one that differs in an unread register. -/
theorem witness_UiWritesAreSilent :
    State.dropUi tc0 = State.dropUi (tc0.setSmoother 6 ((tc0.smoother 6).setUi 0#32)) ∧
    tc0.smoother 6 ≠ (tc0.setSmoother 6 ((tc0.smoother 6).setUi 0#32)).smoother 6 ∧
    ¬outOfRange (.smSetui 6 0#32) ∧
    State.dropUnread tc0 = State.dropUnread { tc0 with chanCount := 7#8, flags := 0b1111#4, freshReset := false } :=
  ⟨by decide +kernel, by decide +kernel, by unfold outOfRange; decide +kernel, rfl⟩

/-- TriggerResult, ReleaseResult: a voice of each stage, the last note, and a zero-length count. -/
theorem witness_note_commands :
    (tc0.voice 127).stage = .off ∧ ((tcWith [(127, attack60)]).voice 127).stage = .attack ∧
    ((tcWith [(127, sustain)]).voice 127).stage = .sustain ∧
    ((tcWith [(127, ⟨.release, 0#32, 0#32, 1#32⟩)]).voice 127).stage = .release ∧
    (1#7 : Velocity) ≠ 0#7 ∧ 127 < (128#8 : Byte).toNat := by decide +kernel

theorem witness_MidiEffects :
    tc0.inited = true ∧
    ((0x807FFF#24).extractLsb' 20 4 = 0x8#4 ∧ (0x807FFF#24).getLsbD 15 = false) ∧
    ((0x9F7F7F#24).extractLsb' 20 4 = 0x9#4 ∧ (0x9F7F7F#24).getLsbD 15 = false ∧ (0x9F7F7F#24).getLsbD 7 = false) ∧
    ((0xBF7BFF#24).extractLsb' 20 4 = 0xB#4 ∧ (0xBF7BFF#24).extractLsb' 8 8 = 123#8) ∧
    isNoteOn 0x903C80 = false := by decide +kernel

theorem witness_StageTransitions :
    (after (exec (.trigger 127 1) tc0) fun t => (t.voice 127).stage) = some .attack ∧
    (after (exec (.release 60) (tcWith [(60, sustain)])) fun t => (t.voice 60).stage) = some .release ∧
    (after (exec (.process 4 0) (tcWith [(60, attack60)])) fun t => (t.voice 60).stage) = some .sustain ∧
    (after (exec (.process 1 0) (tcWith [(60, ⟨.release, 0#32, 0#32, 1#32⟩)])) fun t => (t.voice 60).stage) =
      some .off := by decide +kernel

/-- VoiceRunByStage: a frame count one short of the countdown, one equal to it, and pending ramps. -/
theorem witness_VoiceRunByStage :
    attack60.stage = .attack ∧ 3 < attack60.ramp.toNat ∧ attack60.ramp.toNat ≤ 4 ∧ attack60.ramp ≠ 0#32 ∧
    (⟨.release, 0#32, 0#32, 0#32⟩ : Voice F32).ramp = 0#32 ∧ sustain.stage = .sustain := by decide +kernel

theorem witness_SustainIsConstant :
    sustain.stage = .sustain ∧ sustain.slope = 0#32 ∧ F32.isFinite sustain.level = true ∧
      sustain.level ≠ 0x80000000#32 := by decide +kernel

/-- SplitBlock: a release completed by the first part, and one that is not. -/
theorem witness_SplitBlock :
    (Voice.run binary32 switches 1 (⟨.release, 0#32, 0#32, 1#32⟩ : Voice F32)).ended = true ∧
    (Voice.run binary32 switches 3 attack60).ended = false ∧ attack60.stage ≠ .off := by decide +kernel

theorem witness_ExactTrajectories :
    (8#32 : Count) ≠ 0#32 ∧ (⟨.sustain, 1, 0, 0#32⟩ : Voice Rat).stage = .sustain := by decide

/-- ProcessResult, EmptyBlock, ZeroFrameBlock: the last region that fits, and the first that does not. -/
theorem witness_ProcessResult :
    (tcWith [(60, sustain), (64, attack60)]).inited = true ∧ (tcWith [(60, sustain), (64, attack60)]).al.Nodup ∧
    tc0.al = [] ∧ (0xFFFFFFFF#32 : Count).toNat + (1#32 : Count).toNat ≤ 2 ^ 32 ∧
    2 ^ 32 < (0xFFFFFFFF#32 : Count).toNat + (2#32 : Count).toNat := by decide +kernel

theorem witness_BlockWorkBound : tc0.events = [] ∧ ∃ t, exec (.process 4 0) tc0 = .next t := ⟨rfl, _, rfl⟩

/-- A state whose counts are 0, with voice 60 in Attack. -/
def zeroCounts : State :=
  { tcWith [(60, attack60)] with
    gp := (tc0.gp.set 3 0#32).set 4 0#32, attackSamples := 0#32, releaseSamples := 0#32 }

/-- PendingZeroLengthRamps: a trigger and a release while the count is 0, and a block of one frame. -/
theorem witness_PendingZeroLengthRamps :
    Inv zeroCounts ∧
    (after (exec (.trigger 5 1) zeroCounts) fun t => ((t.voice 5).stage, (t.voice 5).ramp)) =
      some (.attack, 0#32) ∧
    isTriggerOf 5 1 (.trigger 5 1) ∧
    (after (exec (.release 60) zeroCounts) fun t => ((t.voice 60).stage, (t.voice 60).ramp)) = some (.release, 0#32) ∧
    isReleaseOf 60 (.release 60) ∧
    ¬outOfRange (.process 1 0) ∧
    (after (exec (.process 1 0) zeroCounts) fun t => (t.voice 60).stage) = some .attack := by
  refine ⟨?_, by decide +kernel, ⟨by decide, .inl rfl⟩, by decide +kernel, .inl rfl,
    by unfold outOfRange; decide +kernel, by decide +kernel⟩
  constructor <;> decide +kernel

theorem witness_DatapathEvents :
    World.initial.buf.wf = true ∧ (⟨[(3, 0x3F800000#32)], [(4, 0x3F800000#32)]⟩ : Buffer).wf = true := by decide

theorem witness_OscillatorParameters :
    F32.isFinite (F32.add (F32.mul 0x43DC0000#32 0x3F800000#32) 0#32) = true ∧ (0#7 : Note) ≠ 127#7 ∧
    0 + 1 = (1#32 : Count).toNat ∧ 0 + 1 ≠ (2#32 : Count).toNat ∧
    (tcWith [(60, sustain)]).world.running = none ∧
    ((tcWith [(60, sustain)]).world.absorb (.oscParams 60 ⟨0, 0, 0, 0, 0⟩)).running.isSome = true ∧
    ∃ t, step { tcWith [(60, sustain)] with host := [.cmd 0x180000000000000000000004#96] } = .next t :=
  ⟨by decide +kernel, by decide, by decide, by decide, rfl, rfl, _, rfl⟩

/-- OutputRegion, StereoDoubled, EmptyBlockIsSilent. -/
theorem witness_OutputRegion :
    tc0.world.buf.wf = true ∧ tc0.inited = true ∧ tc0.al = [] ∧
    decode 0x18000000FFFFFFFF00000001#96 = .instr (.process 1 0xFFFFFFFF) ∧
    (0xFFFFFFFF#32 : Count).toNat + (1#32 : Count).toNat ≤ 2 ^ 32 ∧
    ∃ t, step { tc0 with host := [.cmd 0x18000000FFFFFFFF00000001#96] } = .next t :=
  ⟨by decide, rfl, rfl, by decide +kernel, by decide, _, rfl⟩

theorem witness_OperationsRounded :
    F32.isFinite 0x7F7FFFFF#32 = true ∧ F32.isFinite 0x80000001#32 = true ∧ F32.value 0x80000001#32 ≠ 0 ∧
      0 < (100 : Nat) ∧
      (2 ^ 25 - 1) * 2 ^ 103 ≤ |F32.value 0xFF7FFFFF#32 + F32.value 0xFF7FFFFF#32| := by decide +kernel

/-- ToCountRounds: not finite, not positive, the least positive value, and a value that saturates. -/
theorem witness_ToCountRounds :
    F32.isFinite 0x7F800000#32 = false ∧ F32.value 0x80000000#32 ≤ 0 ∧ 0 < F32.value 1#32 ∧
    (2 : Rat) ^ 32 ≤ F32.value 0x4F800000#32 ∧ binary32.toCount 0x4F800000#32 = 0xFFFFFFFF#32 := by decide +kernel

theorem witness_DivisorsArePositive : (1#32 : Count) ≠ 0#32 ∧ (0xFFFFFFFF#32 : Count) ≠ 0#32 := by decide

/-- One step from reset on a placed word (P4 step 1). -/
theorem test_withFetchWord :
    after (step (State.reset.withFetchWord 96 0x103C64000000000000000000)) (fun t => (t.flags, t.host)) =
      some (0b0010#4, []) := by decide +kernel

end Sys2Proof.Tests
end

section
/-! PROOFS. The order of binary32 values (R7), and `toCount` under both bindings (R10). -/

namespace Sys2Proof.F32

/-! ### The order of the values -/

/-- Signed magnitudes and exact values lie in the same order: the sign decides between unlike operands, the magnitude
between like ones. -/
theorem exact_lt_exact_iff (a b : F32) : exact a < exact b ↔ key a < key b := by
  have hmono : ∀ {m n : Nat}, unitsOfMag m < unitsOfMag n ↔ m < n := unitsOfMag_strictMono.lt_iff_lt
  have hzero : unitsOfMag 0 = 0 := rfl
  have ha := hmono (m := 0) (n := mag a)
  have hb := hmono (m := 0) (n := mag b)
  unfold exact key units
  cases sign a <;> cases sign b <;> simp only [Bool.false_eq_true, if_true, if_false]
  case false.false => exact_mod_cast hmono
  case true.true => rw [neg_lt_neg_iff, neg_lt_neg_iff]; exact_mod_cast hmono
  case false.true => omega
  case true.false => omega

theorem value_lt_value_iff (a b : F32) : value a < value b ↔ exact a < exact b := by
  rw [value, value, div_lt_div_iff_of_pos_right (by positivity), Int.cast_lt]

/-- R7: on finite operands `lt` is the order of the values. -/
theorem lt_iff_value_lt {a b : F32} (ha : isFinite a = true) (hb : isFinite b = true) :
    lt a b = true ↔ value a < value b := by
  simp [lt, isNan_of_isFinite ha, isNan_of_isFinite hb, value_lt_value_iff, exact_lt_exact_iff]

theorem value_zero : value 0#32 = 0 := value_ofBits_zero false

/-! ### The nearest integer -/

/-- A positive value has no sign bit. -/
theorem value_of_pos {x : F32} (h : 0 < value x) : value x = (units x : Rat) / 2 ^ 149 := by
  rw [value_of_units] at h ⊢
  cases hs : sign x
  · simp
  · have hu : (0 : Rat) ≤ (units x : Rat) / 2 ^ 149 := by positivity
    rw [hs, if_pos rfl] at h
    linarith

/-- `nearest` is the floor of the value plus one half, computed in units of 2^-150. -/
theorem nearest_eq_floor {x : F32} (h : 0 < value x) : (nearest x : Int) = ⌊value x + 1 / 2⌋ := by
  have hunits : value x + 1 / 2 = ((2 * units x + 2 ^ 149 : Nat) : Rat) / (2 ^ 150 : Nat) := by
    rw [value_of_pos h]; push_cast; ring
  rw [hunits, Rat.floor_natCast_div_natCast, nearest, Int.natCast_ediv]

end Sys2Proof.F32

namespace Sys2Proof.Machine

/-! ### `toCount` over any binding of `NUM` -/

theorem toCount_of_not_lt {R : Type} {N : Num R} {x : R} (h : N.lt N.zero x = false) : N.toCount x = 0#32 := by
  simp [Num.toCount, h]

theorem toCount_of_not_finite {R : Type} {N : Num R} {x : R} (h : N.isFinite x = false) : N.toCount x = 0#32 := by
  simp [Num.toCount, h]

/-- A finite positive value counts as its nearest integer `r`, or `2^32 - 1` if that is less. -/
theorem toNat_toCount {R : Type} {N : Num R} {x : R} {r : Int} (hfin : N.isFinite x = true)
    (hpos : N.lt N.zero x = true) (hr : (N.nearest x : Int) = r) :
    ((N.toCount x).toNat : Int) = min r (2 ^ 32 - 1) := by
  have hnat : (N.toCount x).toNat = min (N.nearest x) (2 ^ 32 - 1) := by
    rw [Num.toCount, hfin, hpos, Bool.and_self, if_pos rfl, BitVec.toNat_ofNat, Nat.mod_eq_of_lt (by omega)]
  omega

/-- The exact binding's `nearest` is the floor of the value plus one half. -/
theorem exactNum_nearest {x : Rat} (h : 0 < x) : (exactNum.nearest x : Int) = ⌊x + 1 / 2⌋ :=
  Int.toNat_of_nonneg (Int.floor_nonneg (a := x + 1 / 2) |>.2 (by positivity))

/-- Settles O59: `lt` decides whether the value is positive, and `nearest` is the floor of the value plus one half. -/
theorem toCountRounds : Obligations.ToCountRounds := by
  have hlt : ∀ {x : F32}, F32.isFinite x = true → (F32.lt 0#32 x = true ↔ 0 < F32.value x) := fun hx => by
    rw [F32.lt_iff_value_lt (by decide) hx, F32.value_zero]
  refine ⟨fun x hx => toCount_of_not_finite hx, fun x hx h => toCount_of_not_lt ?_, fun x hx h => ?_,
    fun x h => toCount_of_not_lt ?_, fun x h => ?_⟩
  · rw [binary32_zero, ← Bool.not_eq_true, hlt hx]
    exact not_lt.2 h
  · exact toNat_toCount hx ((hlt hx).2 h) (F32.nearest_eq_floor h)
  · simpa using h
  · exact toNat_toCount rfl (by simpa using h) (exactNum_nearest h)

end Sys2Proof.Machine
end

section
/-! PROOFS. The sticky flags (R40, R226): an instruction sets at most one and clears none; only hardware reset clears. -/

namespace Sys2Proof.Machine

/-- R40: setting a flag clears none. -/
theorem Flag.and_set_self (f : Flag) (flags : BitVec 4) : flags &&& f.set flags = flags := by
  rw [Flag.set]
  ext i
  simp +contextual

/-- R226: an instruction sets at most one flag, and never `F_RSVD`, which is a reserved word's. -/
theorem Effect.flags_cases {s t : State} (h : Effect s t) :
    t.flags = s.flags ∨ ∃ f, f ≠ Flag.rsvd ∧ t.flags = f.set s.flags := by
  cases h with
  | ignored f hf | ignoredRead f hf => exact .inr ⟨f, by rcases hf with rfl | rfl <;> decide, rfl⟩
  | block _ frames offset =>
    exact (State.processBlock_flags_cases frames offset s).imp_right fun h => ⟨.invariant, by decide, h⟩
  | trigger _ n vel => exact .inl (State.triggerNote_flags ..)
  | idle | read | setSmoother | setUi | stepSmoother | release | allOff | init | reset | destroy => exact .inl rfl

/-- R40: no command word clears a flag, reserved or not. -/
theorem runWord_keeps_flags {w : Command} {s t : State} (h : runWord w s = .next t) :
    s.flags &&& t.flags = s.flags := by
  obtain ⟨i, -, hi⟩ | ⟨op, -, rfl⟩ := runWord_cases h
  · obtain hf | ⟨f, -, hf⟩ := (exec_effect hi).flags_cases <;> rw [hf]
    · exact BitVec.and_self
    · exact f.and_set_self s.flags
  · exact Flag.rsvd.and_set_self s.flags

/-- Settles O13: the effects of an instruction give the first half; of the four kinds of step, the two that complete
without a reset pulse keep every flag. -/
theorem flagsAreSticky : Obligations.FlagsAreSticky := by
  refine ⟨fun i s t h => ?_, fun s t h hcleared => ?_⟩
  · obtain hf | ⟨f, hrsvd, hf⟩ := (exec_effect h).flags_cases
    · exact ⟨0b0000#4, by simp, by rw [hf, BitVec.or_zero]⟩
    · refine ⟨BitVec.twoPow 4 f.bit, ?_, hf⟩
      cases f with
      | rsvd => exact absurd rfl hrsvd
      | range | noInit | invariant => decide
  · obtain ⟨-, rfl⟩ | ⟨w, rest, u, -, hu, rfl⟩ | ⟨rest, hh, rfl⟩ | ⟨w, k, rest, u, hh, -, rfl⟩ := step_cases h
    · exact absurd BitVec.and_self hcleared
    · exact absurd (runWord_keeps_flags hu) hcleared
    · exact ⟨rfl, rest, .inl hh⟩
    · exact ⟨rfl, rest, .inr ⟨w, k, hh⟩⟩

end Sys2Proof.Machine
end

section
/-! PROOFS. A `PROCESS` that fits and its step, and the silence of an empty block (R79). -/

namespace Sys2Proof.Machine

/-- A command word that is an instruction: the step is the instruction's run, then the delivery of its events. -/
theorem step_of_instr {s t : State} {w : Command} {rest : List HostInput} {i : Instr} (hhost : s.host = .cmd w :: rest)
    (hdec : decode w = .instr i) (hexec : exec i (s.accept rest) = .next t) : step s = .next t.deliver := by
  have hrun : runWord w (s.accept rest) = .next t := by rw [runWord, hdec]; exact hexec
  rw [step, hhost]
  simp only [hrun]

/-- R194: initialised, `PROCESS` of a region that fits runs the block. -/
theorem exec_process_of_fits {s : State} {frames offset : Count} (hinit : s.inited = true)
    (hfits : offset.toNat + frames.toNat ≤ 2 ^ 32) :
    exec (.process frames offset) s = .next (s.processBlock frames offset) := by
  change execProcess frames offset s = _
  rw [execProcess, State.whenInited_pos hinit, if_pos ((blockFits_iff _ _).2 hfits)]

/-- R198: with an empty active list a block emits `BlockBegin` and `BlockEnd` and nothing between them. -/
theorem State.processBlock_events_of_al_nil {s : State} (frames offset : Count) (hal : s.al = []) :
    (s.processBlock frames offset).events = s.events ++ [.blockBegin frames offset, .blockEnd] := by
  simp [State.processBlock_eq, hal]

/-- R75, R77: a sample zeroed and then scaled by the master gain is 0. -/
theorem readSample_scaleRegion_zeroRegion {m : Samples} (hwf : samplesWf m = true) {o n j : Nat}
    (hj : inRegion o n j = true) : readSample (scaleRegion o n (zeroRegion o n m)) j = 0#32 :=
  calc readSample (scaleRegion o n (zeroRegion o n m)) j
    _ = F32.mul (readSample (zeroRegion o n m) j) masterGain := by
        rw [readSample_scaleRegion (samplesWf_zeroRegion hwf o n), if_pos hj]
    _ = F32.mul unlisted masterGain := by rw [readSample_zeroRegion, if_pos hj]
    _ = 0#32 := scaled_unlisted

/-- What the environment does on the trace of an empty block: each channel's region is zeroed, then scaled. -/
theorem World.absorbAll_emptyBlock_buf (w : World) (frames offset : Count) :
    (w.absorbAll [.blockBegin frames offset, .blockEnd]).buf =
      w.buf.both fun m => scaleRegion offset.toNat frames.toNat (zeroRegion offset.toNat frames.toNat m) := rfl

/-- Settles O56: the step delivers `BlockBegin` and `BlockEnd` alone, so every sample of the region is zeroed and then
scaled. -/
theorem emptyBlockIsSilent : Obligations.EmptyBlockIsSilent := by
  intro s w rest frames offset hwf hinit hal hhost hdec hfits
  obtain ⟨hleft, hright⟩ := (Buffer.wf_iff _).1 hwf
  have hexec := exec_process_of_fits (s := s.accept rest) hinit hfits
  have hevents : ((s.accept rest).processBlock frames offset).events = [.blockBegin frames offset, .blockEnd] :=
    State.processBlock_events_of_al_nil frames offset hal
  refine ⟨_, step_of_instr hhost hdec hexec, hevents, fun j hlo hhi => ?_⟩
  have hj := (inRegion_iff offset.toNat frames.toNat j).2 ⟨hlo, hhi⟩
  rw [State.deliver_world, hevents, State.processBlock_world, State.accept_world, World.absorbAll_emptyBlock_buf]
  exact ⟨readSample_scaleRegion_zeroRegion hleft hj, readSample_scaleRegion_zeroRegion hright hj⟩

end Sys2Proof.Machine
end

section
/-! PROOFS. The decoder row by row (R92, R94), the reserved values of `op` (R103), and the status read-out (R93). -/

namespace Sys2Proof

/-- Settles O2: the rows of R94 depend on the fields alone, so the word is taken as any word with those fields; a `MIDI`
word is decoded from `a` and the three message bytes. -/
theorem commandWordFormat : Obligations.CommandWordFormat := by
  intro op a b rsv val cnt w
  have hop : opField w = op := opField_fields ..
  have ha : aField w = a := aField_fields ..
  have hb : bField w = b := bField_fields ..
  have hval : valField w = val := valField_fields ..
  have hcnt : cntField w = cnt := cntField_fields ..
  have hmessage : messageField w = cnt.extractLsb' 0 24 := messageField_fields ..
  clear_value w
  refine ⟨?_, ?_, ?_, ?_, ?_, ?_, ?_, fun h b' rsv' top val' => ?midi, ?_, ?_, ?_, ?_, ?_, ?_, ?_, ?_, ?_⟩
  case midi =>
    intro cnt' w'
    have hmessage' : messageField w' = cnt.extractLsb' 0 24 :=
      (messageField_fields ..).trans (extractLsb'_append_message ..)
    rw [decode_midiWord (w := w') ((opField_fields ..).trans h), decode_midiWord (hop.trans h), hmessage, hmessage', ha,
      show aField w' = a from aField_fields ..]
  all_goals
    subst op a b val cnt
    intro h
    rw [decode, h]
    rfl

/-- R94: a word with an assigned `op` is an instruction. -/
theorem decode_of_mem_assignedOps {w : Command} (h : opField w ∈ assignedOps) : ∃ i, decode w = .instr i := by
  obtain ⟨op, hmem, hop⟩ : ∃ op ∈ assignedOps, opField w = op := ⟨_, h, rfl⟩
  fin_cases hmem <;> exact ⟨_, by rw [decode, hop]; rfl⟩

/-- R103: any other `op` is reserved. -/
theorem decode_of_notMem_assignedOps {w : Command} (h : opField w ∉ assignedOps) :
    decode w = .reserved (opField w) := by
  have hrow : ∀ n, BitVec.ofNat 8 n ∈ assignedOps → (opField w).toNat ≠ n := fun n hn heq =>
    h (by simpa [← heq] using hn)
  unfold decode
  split
  case h_18 => rfl
  all_goals
    rename_i heq
    exact absurd heq (hrow _ (by decide))

end Sys2Proof

namespace Sys2Proof.Machine

/-- R103: a reserved word raises `F_RSVD` and does nothing else, initialised or not. -/
theorem runWord_of_notMem_assignedOps {w : Command} (h : opField w ∉ assignedOps) (s : State) :
    runWord w s = .next (s.raise .rsvd) := by
  rw [runWord, decode_of_notMem_assignedOps h]

/-- Settles O3: 256 values of `op`, 17 of them assigned; the decoder answers on each side of the table. -/
theorem reservedOpcodes : Obligations.ReservedOpcodes :=
  ⟨by decide +kernel, fun _ => decode_of_notMem_assignedOps, fun _ => decode_of_mem_assignedOps,
    fun _ s h => runWord_of_notMem_assignedOps h s⟩

/-- Settles O12: the read-out's fields are the registers by definition; only the stage's code depends on the stage. -/
theorem statusReadout : Obligations.StatusReadout := by
  intro s sel v stage
  have hcode : v.stage.code = stage := by
    cases hs : v.stage <;> simp only [stage, hs] <;> rfl
  rw [← hcode]
  rfl

end Sys2Proof.Machine
end

section
/-! PROOFS. What a `MIDI` command word does, decoded at either level (R104, R203; log 5). -/

namespace Sys2Proof

/-- A `MIDI` command word, whatever its unused fields and `cnt[31:24]` hold. -/
theorem decode_midi_fields (len b rsv top : Byte) (val : Word) (m : Message) :
    decode (0x1C#8 ++ len ++ b ++ rsv ++ val ++ (top ++ m : Word) : Command) = .instr (decodeMidi len m) := by
  rw [decode_midiWord (opField_fields ..), aField_fields, messageField_fields, extractLsb'_append_message]

/-! ### Data bytes -/

/-- A data byte up to 127 is the note number in its low seven bits. -/
theorem byte1_of_clear {m : Message} (h : m.getLsbD 15 = false) : byte1 m = (m.extractLsb' 8 7).setWidth 8 := by
  rw [← packMessage_bytes m, getLsbD_15_packMessage] at h
  rw [← packMessage_bytes m, byte1_packMessage, note_packMessage]
  exact byte_of_clear h

/-- The same for a velocity in the last byte. -/
theorem byte2_of_clear {m : Message} (h : m.getLsbD 7 = false) : byte2 m = (m.extractLsb' 0 7).setWidth 8 := by
  rw [← packMessage_bytes m, getLsbD_7_packMessage] at h
  rw [← packMessage_bytes m, byte2_packMessage, vel_packMessage]
  exact byte_of_clear h

end Sys2Proof

namespace Sys2Proof.Machine

/-! ### The two levels agree -/

/-- The rows of R203 are those of R100. -/
theorem State.midiMessage_eq (m : Message) (s : State) :
    s.midiMessage m =
      if isNoteOff m = true then s.releaseNote (m.extractLsb' 8 7)
      else if isNoteOn m = true then s.triggerNote (m.extractLsb' 8 7) (m.extractLsb' 0 7)
      else if isCcAlloff m = true then s.allNotesOff
      else s := by
  simp only [midiMessage, isNoteOff_iff, isNoteOn_iff, isCcAlloff_iff]

theorem exec_midi (len b0 b1 b2 : Byte) (s : State) :
    exec (.midi len b0 b1 b2) s =
      .next (s.whenInited (if len = 3#8 then s.midiMessage (packMessage b0 b1 b2) else s)) := rfl

/-- What the decoder makes of a `MIDI` command does what R203 says of its length and message. -/
theorem exec_decodeMidi (len : Byte) (m : Message) (s : State) :
    exec (decodeMidi len m) s = .next (s.whenInited (if len = 3#8 then s.midiMessage m else s)) := by
  unfold decodeMidi decodeMessage
  split_ifs with hlen hoff hon hcc
  · rw [State.midiMessage_eq, if_pos hoff]
    rfl
  · rw [State.midiMessage_eq, if_neg hoff, if_pos hon]
    rfl
  · rw [State.midiMessage_eq, if_neg hoff, if_neg hon, if_pos hcc]
    rfl
  · rw [exec_midi, if_pos hlen, packMessage_bytes]
  · rw [exec_midi, if_neg hlen]

/-! ### The direct commands with the message's data bytes (R203) -/

theorem exec_release_byte1 {m : Message} (h : m.getLsbD 15 = false) (s : State) :
    exec (.release (byte1 m)) s = .next (s.whenInited (s.releaseNote (m.extractLsb' 8 7))) := by
  change execRelease (byte1 m) s = _
  rw [execRelease, byte1_of_clear h, noteOperand_setWidth]

theorem exec_trigger_byte1_byte2 {m : Message} (h1 : m.getLsbD 15 = false) (h2 : m.getLsbD 7 = false) (s : State) :
    exec (.trigger (byte1 m) (byte2 m)) s =
      .next (s.whenInited (s.triggerNote (m.extractLsb' 8 7) (m.extractLsb' 0 7))) := by
  change execTrigger (byte1 m) (byte2 m) s = _
  rw [execTrigger, byte1_of_clear h1, byte2_of_clear h2, noteOperand_setWidth, velOperand_setWidth]

/-- Settles O40: the word does what R203 says of its length and message, each line of it a direct command. -/
theorem midiEffects : Obligations.MidiEffects := by
  intro s len b rsv top val m cnt w off on cc
  have hrun : runWord w s = .next (s.whenInited (if len = 3#8 then s.midiMessage m else s)) := by
    rw [runWord, show decode w = _ from decode_midi_fields len b rsv top val m]
    exact exec_decodeMidi len m s
  rw [hrun]
  refine ⟨?off, ?on, ?cc, fun hoff hon hcc hs => ?dropped, fun hs => ?ignored⟩
  case off =>
    rintro ⟨hlen, hrow⟩
    rw [if_pos hlen, State.midiMessage, if_pos hrow]
    exact (exec_release_byte1 hrow.2 s).symm
  case on =>
    rintro ⟨hlen, hrow⟩
    rw [if_pos hlen, State.midiMessage, if_neg (by simp [hrow.1]), if_pos hrow]
    exact (exec_trigger_byte1_byte2 hrow.2.1 hrow.2.2 s).symm
  case cc =>
    rintro ⟨hlen, hrow⟩
    rw [if_pos hlen, State.midiMessage, if_neg (by simp [hrow.1]), if_neg (by simp [hrow.1]), if_pos hrow]
    rfl
  case dropped =>
    have hnothing : (if len = 3#8 then s.midiMessage m else s) = s := by
      split_ifs with hlen
      · rw [State.midiMessage, if_neg fun h => hoff ⟨hlen, h⟩, if_neg fun h => hon ⟨hlen, h⟩,
          if_neg fun h => hcc ⟨hlen, h⟩]
      · rfl
    have hmidi : exec (.midi len (byte0 m) (byte1 m) (byte2 m)) s = .next s := by
      rw [exec_midi, packMessage_bytes, hnothing, State.whenInited_pos hs]
    rw [hnothing, State.whenInited_pos hs]
    exact ⟨rfl, hmidi⟩
  case ignored =>
    rw [State.whenInited_neg hs]
    rfl

end Sys2Proof.Machine
end

section
/-! PROOFS. The nine commands of 40_smoother.md: six write one smoother and three respond; each family has one order of
checks (R97, R98, R102), which is settled once. -/

namespace Sys2Proof.Machine

/-! ### The two families -/

/-- The checks of a command that takes an address and a value: `body` is what it does once both are legal. -/
def State.addressedWrite (addr : Byte) (v : Word) (body : Param → F32 → State) (s : State) : State :=
  s.whenInited <|
    match addrOperand addr, realOperand v with
    | some i, some x => body i x
    | _, _ => s.raise .range

/-- The checks of a command that takes an address and responds. -/
def State.addressedRead (addr : Byte) (body : Param → State) (s : State) : State :=
  s.whenInitedRead <|
    match addrOperand addr with
    | some i => body i
    | none => s.badRead

section
variable (s : State) (addr : Byte) (v dur : Word)

theorem exec_smSetimm : exec (.smSetimm addr v) s =
    .next (s.addressedWrite addr v fun i x => s.setSmoother i (Smoother.setImm binary32 x)) := rfl

theorem exec_smRamp : exec (.smRamp addr v dur) s =
    .next (s.addressedWrite addr v fun i x => s.setSmoother i ((s.smoother i).startRamp binary32 x dur)) := rfl

theorem exec_smSetui : exec (.smSetui addr v) s =
    .next (s.addressedWrite addr v fun i x => s.setSmoother i ((s.smoother i).setUi x)) := rfl

theorem exec_pSetimm : exec (.pSetimm addr v) s =
    .next (s.addressedWrite addr v fun i x =>
      s.setSmoother i (Smoother.setImm binary32 (clampParam binary32 i x))) := rfl

theorem exec_pSet : exec (.pSet addr v) s =
    .next (s.addressedWrite addr v fun i x =>
      s.setSmoother i ((s.smoother i).setUi (clampParam binary32 i x))) := rfl

theorem exec_pRamp : exec (.pRamp addr v dur) s =
    .next (s.addressedWrite addr v fun i x =>
      s.setSmoother i ((s.smoother i).startRamp binary32 (clampParam binary32 i x) dur)) := rfl

theorem exec_smStep : exec (.smStep addr) s =
    .next (s.addressedRead addr fun i =>
      (s.setSmoother i ((s.smoother i).advance binary32)).respond (s.smoother i).cur) := rfl

theorem exec_smGetui : exec (.smGetui addr) s =
    .next (s.addressedRead addr fun i => s.respond (s.smoother i).ui) := rfl

theorem exec_pGet : exec (.pGet addr) s =
    .next (s.addressedRead addr fun i => s.respond (s.smoother i).ui) := rfl

end

/-! ### Legal, out of range, not initialised -/

section
variable {s : State} {addr : Byte} {v : Word} {instr : Instr}

/-- R97, R98, R190: a write of the family does its body, or raises one flag and nothing else. -/
theorem exec_addressedWrite {body : Param → F32 → State}
    (hexec : exec instr s = .next (s.addressedWrite addr v body)) :
    (∀ i : Param, s.inited = true → addr.toNat = i.val → F32.isFinite v = true → exec instr s = .next (body i v)) ∧
    (s.inited = true → 6 < addr.toNat ∨ F32.isFinite v = false →
      exec instr s = .next { s with flags := s.flags ||| 0b0001#4 }) ∧
    (s.inited = false → exec instr s = .next { s with flags := s.flags ||| 0b0010#4 }) := by
  rw [hexec, State.addressedWrite]
  refine ⟨fun i hinit haddr hv => ?legal, fun hinit hbad => ?range, fun hinit => ?noInit⟩
  case legal => rw [State.whenInited_pos hinit, addrOperand_some haddr, realOperand_some hv]
  case range =>
    rw [State.whenInited_pos hinit]
    rcases hbad with haddr | hv
    · rw [addrOperand_none haddr]
      rfl
    · rw [realOperand_none hv]
      cases addrOperand addr <;> rfl
  case noInit =>
    rw [State.whenInited_neg hinit]
    rfl

/-- R97, R105, R190: a read of the family does its body, or raises one flag and responds 0. -/
theorem exec_addressedRead {body : Param → State} (hexec : exec instr s = .next (s.addressedRead addr body)) :
    (∀ i : Param, s.inited = true → addr.toNat = i.val → exec instr s = .next (body i)) ∧
    (s.inited = true → 6 < addr.toNat →
      exec instr s = .next { s with flags := s.flags ||| 0b0001#4, rsp := some 0#32 }) ∧
    (s.inited = false →
      exec instr s = .next { s with flags := s.flags ||| 0b0010#4, rsp := some 0#32 }) := by
  rw [hexec, State.addressedRead]
  refine ⟨fun i hinit haddr => ?legal, fun hinit haddr => ?range, fun hinit => ?noInit⟩
  case legal => rw [State.whenInitedRead_pos hinit, addrOperand_some haddr]
  case range =>
    rw [State.whenInitedRead_pos hinit, addrOperand_none haddr]
    rfl
  case noInit =>
    rw [State.whenInitedRead_neg hinit]
    rfl

end

/-! ### The smoother that is written -/

/-- Writing back what a smoother holds changes nothing. -/
@[simp] theorem State.setSmoother_self (i : Param) (s : State) : s.setSmoother i (s.smoother i) = s := by
  simp [setSmoother, smoother]

/-- R123: a ramp command of nonzero duration leaves `cur`, one of duration 0 is an immediate jump; `target` is the value
the command ramps to. -/
theorem exec_addressedRamp {s : State} {addr : Byte} {v : Word} {dur : Count} {instr : Instr} (target : Param → F32 → F32)
    (hexec : exec instr s = .next (s.addressedWrite addr v fun i x =>
      s.setSmoother i ((s.smoother i).startRamp binary32 (target i x) dur))) :
    (∀ i : Param, s.inited = true → addr.toNat = i.val → F32.isFinite v = true → dur ≠ 0#32 →
      exec instr s = .next { s with
        sm := s.sm.set i.val ⟨s.sm[i.val].cur, target i v, target i v, dur,
          F32.div (F32.sub (target i v) s.sm[i.val].cur) (F32.ofNat dur.toNat)⟩ }) ∧
    (∀ i : Param, s.inited = true → addr.toNat = i.val → F32.isFinite v = true → dur = 0#32 →
      exec instr s = .next { s with sm := s.sm.set i.val ⟨target i v, target i v, target i v, 0#32, 0#32⟩ }) ∧
    (s.inited = true → 6 < addr.toNat ∨ F32.isFinite v = false →
      exec instr s = .next { s with flags := s.flags ||| 0b0001#4 }) ∧
    (s.inited = false → exec instr s = .next { s with flags := s.flags ||| 0b0010#4 }) := by
  obtain ⟨hlegal, hignored⟩ := exec_addressedWrite hexec
  refine ⟨fun i hinit haddr hv hdur => ?ramp, fun i hinit haddr hv hdur => ?jump, hignored⟩
  case ramp =>
    rw [hlegal i hinit haddr hv, Smoother.startRamp_of_ne binary32 hdur]
    rfl
  case jump =>
    rw [hlegal i hinit haddr hv, hdur, Smoother.startRamp_zero]
    rfl

/-! ### The smoother commands -/

/-- Settles O21: `SM_SETIMM` is a write of the family, and its body is the record of R121. -/
theorem smSetimmResult : Obligations.SmSetimmResult :=
  fun s addr v => exec_addressedWrite (exec_smSetimm s addr v)

/-- Settles O22: a ramp command that takes its operand as the target. -/
theorem smRampResult : Obligations.SmRampResult :=
  fun s addr target dur => exec_addressedRamp (fun _ x => x) (exec_smRamp s addr target dur)

/-- Settles O23: the three cases of an advance, by the countdown. -/
theorem smStepResult : Obligations.SmStepResult := by
  intro s addr
  obtain ⟨hlegal, hrange, hnoInit⟩ := exec_addressedRead (exec_smStep s addr)
  refine ⟨fun i hinit haddr hrem => ?idle, fun i hinit haddr hrem => ?last, fun i hinit haddr hrem => ?more,
    hrange, hnoInit⟩
  all_goals rw [hlegal i hinit haddr]
  case idle =>
    rw [Smoother.advance_idle (m := s.smoother i) binary32 hrem, State.setSmoother_self]
    rfl
  case last =>
    rw [Smoother.advance_last (m := s.smoother i) binary32 hrem]
    rfl
  case more =>
    have hne : ∀ c : Count, c.toNat ≤ 1 → (s.smoother i).rem ≠ c := fun c hc heq =>
      absurd hrem (not_lt.2 (heq ▸ hc))
    rw [Smoother.advance_more binary32 (hne 0#32 (by decide)) (hne 1#32 (by decide))]
    rfl

/-- Settles O24: `SM_GETUI` is a read of the family whose body only responds. -/
theorem smGetuiResult : Obligations.SmGetuiResult :=
  fun s addr => exec_addressedRead (exec_smGetui s addr)

/-- Settles O25: `SM_SETUI` is a write of the family, and its body replaces the UI value alone. -/
theorem smSetuiResult : Obligations.SmSetuiResult :=
  fun s addr v => exec_addressedWrite (exec_smSetui s addr v)

/-! ### The parameter surface -/

/-- Settles O28: as `SM_SETIMM`, with the clamp inside the body. -/
theorem pSetimmResult : Obligations.PSetimmResult :=
  fun s addr v => exec_addressedWrite (exec_pSetimm s addr v)

/-- Settles O29: as `SM_SETUI`, with the clamp inside the body. -/
theorem pSetResult : Obligations.PSetResult :=
  fun s addr v => exec_addressedWrite (exec_pSet s addr v)

/-- Settles O30: `P_GET` has the body of `SM_GETUI`. -/
theorem pGetResult : Obligations.PGetResult :=
  fun s addr => exec_addressedRead (exec_pGet s addr)

/-- Settles O31: a ramp command that takes the clamped operand as the target. -/
theorem pRampResult : Obligations.PRampResult :=
  fun s addr v dur => exec_addressedRamp (clampParam binary32) (exec_pRamp s addr v dur)

end Sys2Proof.Machine
end

section
/-! PROOFS. What `VoiceRun` emits and leaves, stage by stage (R164): the loop's closed forms in the block's binding. -/

namespace Sys2Proof.Machine.Voice

section
variable {R : Type} (N : Num R) (sw : Switches)

theorem levelAfter_eq_iterate (slope : R) (m : Nat) (l : R) :
    levelAfter N sw slope m l = (nextLevel N sw slope)^[m] l := by
  induction m generalizing l with
  | zero => rfl
  | succ m ih => exact ih _

/-- A level that its step leaves alone is the gain of every sample. -/
theorem gainsOf_of_fixed {slope l : R} (h : nextLevel N sw slope l = l) (m : Nat) :
    gainsOf N sw slope m l = List.replicate m l := by
  simp only [gainsOf_eq_map, levelAfter_eq_iterate, Function.iterate_fixed h, List.map_const', List.length_range]

theorem levelAfter_of_fixed {slope l : R} (h : nextLevel N sw slope l = l) (m : Nat) :
    levelAfter N sw slope m l = l :=
  (levelAfter_eq_iterate N sw slope m l).trans (Function.iterate_fixed h m)

/-- The countdown that `m` samples leave, as a subtraction of words: it does not wrap (R171). -/
theorem consume_eq {m : Nat} {v : Voice R} (h : m ≤ v.ramp.toNat) :
    v.consume N sw m = ⟨v.stage, levelAfter N sw v.slope m v.level, v.slope, v.ramp - BitVec.ofNat 32 m⟩ := by
  have hramp : BitVec.ofNat 32 (v.ramp.toNat - m) = v.ramp - BitVec.ofNat 32 m := by
    rw [← BitVec.ofNat_sub_ofNat_of_le _ _ (by have := v.ramp.isLt; omega) h, BitVec.ofNat_toNat, BitVec.setWidth_eq]
  rw [consume, hramp]

end

/-- `1 + 0 = 1` in binary32: a voice in Sustain at the top of its attack stays there (R169). -/
theorem nextLevel_one : nextLevel binary32 switches 0#32 0x3F800000#32 = 0x3F800000#32 := by decide +kernel

/-- Settles O43: each clause is the loop's closed form for its stage and countdown, its samples written as iterated
additions. -/
theorem voiceRunByStage : Obligations.VoiceRunByStage := by
  intro v cnt level gains run
  have hlevel (slope l : F32) (m : Nat) : level slope l m = levelAfter binary32 switches slope m l :=
    (levelAfter_eq_iterate binary32 switches slope m l).symm
  have hgains (slope l : F32) (m : Nat) : gains slope l m = gainsOf binary32 switches slope m l := by
    rw [gainsOf_eq_map]
    exact List.map_congr_left fun j _ => hlevel slope l j
  have hlong (h : v.stage = .attack ∨ v.stage = .release) (hlt : cnt < v.ramp.toNat) : run =
      ⟨gains v.slope v.level cnt,
        ⟨v.stage, level v.slope v.level cnt, v.slope, v.ramp - BitVec.ofNat 32 cnt⟩, false, false⟩ := by
    rw [hgains, hlevel, ← consume_eq binary32 switches hlt.le]
    exact loop_ramp_long binary32 switches 1 [] h hlt
  refine ⟨?noFrames, fun hcnt hs => run_off binary32 switches hcnt hs, fun hs => ?sustain,
    fun hs hlt => hs ▸ hlong (.inl hs) hlt, fun hs h0 hle => ?attackShort, fun hs h0 hcnt => ?attackPending,
    fun hs hlt => hs ▸ hlong (.inr hs) hlt, fun hs h0 hle => ?releaseShort, fun hs h0 hcnt => ?releasePending⟩
  case noFrames =>
    rintro rfl
    exact run_zero binary32 switches v
  case sustain =>
    rw [hgains, hlevel, ← hs]
    exact loop_sustain binary32 switches 1 [] hs
  case attackShort =>
    simp only [hgains, hlevel]
    exact loop_attack_short binary32 switches 0 [] hs h0 hle
  case attackPending =>
    rw [← gainsOf_of_fixed binary32 switches nextLevel_one cnt]
    have hrun := loop_attack_pending binary32 switches 0 [] hs h0 hcnt
    rwa [binary32_zero, binary32_one, levelAfter_of_fixed binary32 switches nextLevel_one] at hrun
  case releaseShort =>
    rw [hgains]
    exact loop_release_short binary32 switches 1 [] hs h0 hle
  case releasePending => exact loop_release_pending binary32 switches 1 [] hs h0 hcnt

end Sys2Proof.Machine.Voice
end

section
/-! PROOFS. The note commands and their messages (41_envelope.md sections 1 to 3): every form of `TRIGGER`, of `RELEASE`
and of `ALLOFF` does the one operation on the state, whose result is written out once. -/

namespace Sys2Proof.Machine

/-! ### The operations, written out -/

namespace State

/-- R151, R152: a nonzero velocity on an Off voice. -/
theorem triggerNote_off {s : State} {n : Note} {vel : Velocity} (hvel : vel ≠ 0#7) (h : (s.voice n).stage = .off) :
    s.triggerNote n vel = { s with
      env := s.env.set n.toNat ((s.voice n).startAttack binary32 s.attackSamples) n.toNat_lt
      al := n :: s.al
      activeCount := s.activeCount + 1#8
      events := s.events ++ [.oscInit n, .oscNote n vel] } := by
  rw [triggerNote, if_neg hvel, if_pos h, List.append_cons s.events]
  rfl

/-- R151, R154: a nonzero velocity on a sounding voice. -/
theorem triggerNote_sounding {s : State} {n : Note} {vel : Velocity} (hvel : vel ≠ 0#7)
    (h : (s.voice n).stage ≠ .off) :
    s.triggerNote n vel = { s with
      env := s.env.set n.toNat ((s.voice n).startAttack binary32 s.attackSamples) n.toNat_lt
      events := s.events ++ [.oscNote n vel] } := by
  rw [triggerNote, if_neg hvel, if_neg h]
  rfl

/-- R155. -/
@[simp] theorem triggerNote_zero (n : Note) (s : State) : s.triggerNote n 0#7 = s.releaseNote n := if_pos rfl

/-- R157: a release of a voice in Attack or Sustain. -/
theorem releaseNote_live {s : State} {n : Note} (h : (s.voice n).stage = .attack ∨ (s.voice n).stage = .sustain) :
    s.releaseNote n = { s with
      env := s.env.set n.toNat ⟨.release, (s.voice n).level,
        if s.releaseSamples = 0#32 then 0#32
          else F32.div (F32.neg (s.voice n).level) (F32.ofNat s.releaseSamples.toNat),
        s.releaseSamples⟩ n.toNat_lt } := by
  rw [releaseNote, Voice.startRelease_live binary32 _ h]
  rfl

end State

/-! ### The forms of one operation -/

section
variable (s : State) (n : Note) (vel : Velocity) (x : Byte) (chan : BitVec 4)

theorem exec_trigger_setWidth : exec (.trigger (n.setWidth 8) (vel.setWidth 8)) s =
    .next (s.whenInited (s.triggerNote n vel)) := by
  change execTrigger _ _ s = _
  rw [execTrigger, noteOperand_setWidth, velOperand_setWidth]

theorem exec_release_setWidth : exec (.release (n.setWidth 8)) s = .next (s.whenInited (s.releaseNote n)) := by
  change execRelease _ s = _
  rw [execRelease, noteOperand_setWidth]

theorem exec_noteOn : exec (.noteOn chan n vel) s = .next (s.whenInited (s.triggerNote n vel)) := rfl

theorem exec_noteOff : exec (.noteOff chan n x) s = .next (s.whenInited (s.releaseNote n)) := rfl

/-- The `MIDI` command of a note-on message (R203). -/
theorem exec_midiOn : exec (.midi 3#8 (0x9#4 ++ chan) (n.setWidth 8) (vel.setWidth 8)) s =
    .next (s.whenInited (s.triggerNote n vel)) := by
  rw [exec_midi, if_pos rfl, State.midiMessage, statusNibble_packMessage, highNibble_append, getLsbD_15_packMessage,
    getLsbD_7_packMessage, clear_setWidth, clear_setWidth, note_packMessage, vel_packMessage, low7_setWidth,
    low7_setWidth, if_neg (by decide), if_pos ⟨rfl, rfl, rfl⟩]

/-- The `MIDI` command of a note-off message (R203). -/
theorem exec_midiOff : exec (.midi 3#8 (0x8#4 ++ chan) (n.setWidth 8) x) s =
    .next (s.whenInited (s.releaseNote n)) := by
  rw [exec_midi, if_pos rfl, State.midiMessage, statusNibble_packMessage, highNibble_append, getLsbD_15_packMessage,
    clear_setWidth, note_packMessage, low7_setWidth, if_pos ⟨rfl, rfl⟩]

/-- The `MIDI` command of an all-notes-off message (R203). -/
theorem exec_midiCc : exec (.midi 3#8 (0xB#4 ++ chan) 123#8 x) s = .next (s.whenInited s.allNotesOff) := by
  have hcontroller : (packMessage (0xB#4 ++ chan) 123#8 x).extractLsb' 8 8 = 123#8 := byte1_packMessage ..
  rw [exec_midi, if_pos rfl, State.midiMessage, statusNibble_packMessage, highNibble_append, hcontroller,
    if_neg (fun h => absurd h.1 (by decide)), if_neg (fun h => absurd h.1 (by decide)), if_pos ⟨rfl, rfl⟩]

/-- Every form of `TRIGGER` is `Trigger(n, vel)` (R150, R203). -/
theorem exec_triggerForms : ∀ i ∈ [Instr.trigger (n.setWidth 8) (vel.setWidth 8), Instr.noteOn chan n vel,
    Instr.midi 3#8 (0x9#4 ++ chan) (n.setWidth 8) (vel.setWidth 8)],
    exec i s = .next (s.whenInited (s.triggerNote n vel)) := by
  simp only [List.forall_mem_cons]
  exact ⟨exec_trigger_setWidth s n vel, exec_noteOn s n vel chan, exec_midiOn s n vel chan, List.forall_mem_nil _⟩

/-- Every form of `RELEASE` is `Release(n)` (R155, R156, R203). -/
theorem exec_releaseForms : ∀ i ∈ [Instr.release (n.setWidth 8), Instr.trigger (n.setWidth 8) 0#8,
    Instr.noteOff chan n x, Instr.noteOn chan n 0#7, Instr.midi 3#8 (0x8#4 ++ chan) (n.setWidth 8) x,
    Instr.midi 3#8 (0x9#4 ++ chan) (n.setWidth 8) 0#8],
    exec i s = .next (s.whenInited (s.releaseNote n)) := by
  have hzero := exec_triggerForms s n 0#7 chan
  simp only [State.triggerNote_zero, BitVec.setWidth_zero, List.forall_mem_cons] at hzero
  obtain ⟨htrigger, hnoteOn, hmidiOn, hnil⟩ := hzero
  simp only [List.forall_mem_cons]
  exact ⟨exec_release_setWidth s n, htrigger, exec_noteOff s n x chan, hnoteOn, exec_midiOff s n x chan, hmidiOn,
    hnil⟩

/-- Every form of `ALLOFF` has its body (R160, R203). -/
theorem exec_alloffForms : ∀ i ∈ [Instr.alloff, Instr.ccAlloff chan x, Instr.midi 3#8 (0xB#4 ++ chan) 123#8 x],
    exec i s = .next (s.whenInited s.allNotesOff) := by
  simp only [List.forall_mem_cons]
  exact ⟨rfl, rfl, exec_midiCc s x chan, List.forall_mem_nil _⟩

end

/-! ### Out of range, not initialised -/

section
variable {s : State} {note vel : Byte}

/-- R95, R96. -/
theorem exec_trigger_outOfRange (hinit : s.inited = true) (hbad : 127 < note.toNat ∨ 127 < vel.toNat) :
    exec (.trigger note vel) s = .next (s.raise .range) := by
  change execTrigger note vel s = _
  rw [execTrigger, State.whenInited_pos hinit]
  rcases hbad with hnote | hvel
  · rw [noteOperand_none hnote]
  · rw [velOperand_none hvel]
    cases noteOperand note <;> rfl

/-- R95. -/
theorem exec_release_outOfRange (hinit : s.inited = true) (hbad : 127 < note.toNat) :
    exec (.release note) s = .next (s.raise .range) := by
  change execRelease note s = _
  rw [execRelease, State.whenInited_pos hinit, noteOperand_none hbad]

/-- R190. -/
theorem exec_trigger_notInited (hinit : s.inited = false) : exec (.trigger note vel) s = .next (s.raise .noInit) :=
  congrArg Host.Outcome.next (State.whenInited_neg hinit _)

/-- R190. -/
theorem exec_release_notInited (hinit : s.inited = false) : exec (.release note) s = .next (s.raise .noInit) :=
  congrArg Host.Outcome.next (State.whenInited_neg hinit _)

end

/-! ### The three statements -/

/-- Settles O37: every form is `Trigger(n, vel)`, by whether the voice was Off. -/
theorem triggerResult : Obligations.TriggerResult := by
  refine ⟨fun s n vel chan hinit hvel i hi => ?legal, fun s n => ?velocityZero,
    fun s note vel hinit hbad => exec_trigger_outOfRange hinit hbad,
    fun s note vel hinit => exec_trigger_notInited hinit⟩
  case legal =>
    rw [exec_triggerForms s n vel chan i hi, State.whenInited_pos hinit]
    exact ⟨fun hoff => congrArg Host.Outcome.next (State.triggerNote_off hvel hoff),
      fun hsounding => congrArg Host.Outcome.next (State.triggerNote_sounding hvel hsounding)⟩
  case velocityZero =>
    rw [exec_release_setWidth, ← State.triggerNote_zero]
    exact exec_trigger_setWidth s n 0#7

/-- Settles O38: every form is `Release(n)`, by whether the voice has a release to begin. -/
theorem releaseResult : Obligations.ReleaseResult := by
  refine ⟨fun s n x chan hinit i hi => ?_, fun s note hinit hbad => exec_release_outOfRange hinit hbad,
    fun s note hinit => exec_release_notInited hinit⟩
  rw [exec_releaseForms s n x chan i hi, State.whenInited_pos hinit]
  exact ⟨fun hlive => congrArg Host.Outcome.next (State.releaseNote_live hlive),
    fun hidle => congrArg Host.Outcome.next (State.releaseNote_idle hidle)⟩

/-- Settles O39: every form has the body of `ALLOFF`, which is the record of R160. -/
theorem allOffResult : Obligations.AllOffResult := by
  intro s x chan i hi
  rw [exec_alloffForms s x chan i hi]
  exact ⟨fun hinit => congrArg Host.Outcome.next (State.whenInited_pos hinit _),
    fun hinit => congrArg Host.Outcome.next (State.whenInited_neg hinit _)⟩

end Sys2Proof.Machine
end

section
/-! PROOFS. `PROCESS` (42_block_and_system.md section 3) as a full next state: steps 1 and 2 written out once, then the
traversal of a list without repetition, of no frames, and of no entries; and every command before `INIT`. -/

namespace Sys2Proof.Machine

/-- Settles O14: the first check of every command but `INIT` fails, and a read then responds 0. -/
theorem ignoredBeforeInit : Obligations.IgnoredBeforeInit := by
  intro i s hinit hi
  cases i with
  | init chan rate => exact absurd rfl (hi chan rate)
  | smStep | smGetui | pGet => exact congrArg Host.Outcome.next (State.whenInitedRead_neg hinit _)
  | reset | destroy | trigger | release | alloff | process | midi | smSetimm | smRamp | smSetui | pSetimm | pSet | pRamp
  | noteOff | noteOn | ccAlloff => exact congrArg Host.Outcome.next (State.whenInited_neg hinit _)

/-- R194: initialised, `PROCESS` of a region that does not fit only raises `F_RANGE`. -/
theorem exec_process_of_not_fits {s : State} {frames offset : Count} (hinit : s.inited = true)
    (hwraps : 2 ^ 32 < offset.toNat + frames.toNat) : exec (.process frames offset) s = .next (s.raise .range) := by
  change execProcess frames offset s = _
  rw [execProcess, State.whenInited_pos hinit, if_neg ((blockFits_iff _ _).not.2 (not_le.2 hwraps))]

namespace State

/-! ### Steps 1 and 2 (R195, R196) -/

section
variable (frames offset : Count) (s : State)

/-- The block before its voices run, written out. -/
theorem openBlock_eq : s.openBlock frames offset = { s with
    sm := s.sm.map (Smoother.advance binary32)
    gp := s.sm.map fun m => m.cur
    attackSamples := binary32.toCount (F32.mul s.sm[3].cur s.sampleRate)
    releaseSamples := binary32.toCount (F32.mul s.sm[4].cur s.sampleRate)
    freshReset := false
    events := s.events ++ [.blockBegin frames offset] } := by
  apply ext_files
  case smoother => intro i; rw [openBlock_smoother]; simp [smoother]
  case param => intro i; rw [openBlock_param]; simp [param, smoother]
  case voice => intro n; exact openBlock_voice frames offset s n
  case attackSamples => exact openBlock_attackSamples frames offset s
  case releaseSamples => exact openBlock_releaseSamples frames offset s
  all_goals simp

/-- The snapshot the voices run with holds the values before the step. -/
theorem openBlock_snapshot : (s.openBlock frames offset).snapshot =
    ⟨s.sm[0].cur, s.sm[1].cur, s.sm[2].cur, s.sm[5].cur, s.sm[6].cur⟩ := by
  simp only [snapshot, openBlock_param]
  rfl

end

/-! ### The traversal (R197), written out -/

/-- A list without repetition: every entry finds its voice as it stood. -/
theorem foldl_runVoice_eq (cnt : Nat) {l : List Note} (hl : l.Nodup) (s : State) :
    l.foldl (runVoice cnt) s = { s with
      env := Vector.ofFn fun k : Fin 128 =>
        if BitVec.ofNat 7 k.val ∈ l then ((s.voice (BitVec.ofNat 7 k.val)).run binary32 switches cnt).voice
        else s.env[k.val]
      al := s.al.filter fun m => !(decide (m ∈ l) && ((s.voice m).run binary32 switches cnt).ended)
      activeCount :=
        s.activeCount - BitVec.ofNat 8 (l.countP fun n => ((s.voice n).run binary32 switches cnt).ended)
      flags := if l.any (fun n => ((s.voice n).run binary32 switches cnt).defect) then Flag.invariant.set s.flags
        else s.flags
      events := s.events ++
        l.flatMap fun n => entryEvents s.snapshot ((s.voice n).run binary32 switches cnt) n } := by
  apply ext_files
  case voice => intro n; rw [foldl_runVoice_voice cnt hl]; simp [voice]
  case smoother => intro i; simp [smoother]
  case param => intro i; simp [param]
  case al => exact foldl_runVoice_al cnt hl s
  case activeCount => exact foldl_runVoice_activeCount cnt hl s
  case flags => exact foldl_runVoice_flags cnt hl s
  case events => exact foldl_runVoice_events cnt hl s
  all_goals simp

/-- R199: a run of no frames does nothing. -/
theorem voiceRun_zero (n : Note) (s : State) : s.voiceRun n 0 = s := by
  simp [voiceRun, gainEvents]

theorem runVoice_zero (s : State) (n : Note) : s.runVoice 0 n = s.emit (.oscParams n s.snapshot) :=
  voiceRun_zero n _

/-- R199: over no frames the traversal of any list, repeated entries included, only emits. -/
theorem foldl_runVoice_zero (l : List Note) (s : State) :
    l.foldl (runVoice 0) s = { s with events := s.events ++ l.map fun n => .oscParams n s.snapshot } := by
  induction l generalizing s with
  | nil => simp
  | cons n l ih =>
    rw [List.foldl_cons, runVoice_zero, ih, List.map_cons, List.append_cons]
    rfl

/-- The events of one entry, the gains numbered from 0 (R163, R197). -/
theorem entryEvents_eq (p : Snapshot) (r : VoiceRun F32) (n : Note) :
    entryEvents p r n = [.oscParams n p] ++ r.gains.mapIdx (fun k g => .gain n k g) ++
      if r.ended = true then [.oscDestroy n] else [] := by
  rw [entryEvents, gainEvents, List.mapIdx_eq_zipIdx_map]
  rfl

end State

/-! ### The three statements -/

/-- Settles O48: steps 1 and 2, and a traversal of no entries. -/
theorem emptyBlock : Obligations.EmptyBlock := by
  intro s frames offset hinit hal hfits
  rw [exec_process_of_fits hinit hfits, State.processBlock_eq, hal, List.foldl_nil, State.openBlock_eq, hal,
    List.append_cons s.events (.blockBegin frames offset) [.blockEnd]]
  rfl

/-- Settles O49: steps 1 and 2, and a traversal that only emits. -/
theorem zeroFrameBlock : Obligations.ZeroFrameBlock := by
  intro s offset hinit p
  have hfits : offset.toNat + (0#32 : Count).toNat ≤ 2 ^ 32 := offset.isLt.le
  rw [exec_process_of_fits hinit hfits, State.processBlock_eq, BitVec.toNat_zero, State.foldl_runVoice_zero,
    State.openBlock_snapshot, State.openBlock_eq]
  rfl

/-- Settles O47: steps 1 and 2, then the traversal of the active list, which has no repetition. -/
theorem processResult : Obligations.ProcessResult := by
  intro s frames offset
  refine ⟨fun hinit => ignoredBeforeInit _ s hinit nofun, fun hinit hwraps => exec_process_of_not_fits hinit hwraps,
    fun hinit hfits hnodup => ?_⟩
  intro run p
  have hal : (s.al.filter fun n => !(decide (n ∈ s.al) && (run n).ended)) = s.al.filter fun n => !(run n).ended :=
    List.filter_congr fun n hn => by simp [hn]
  rw [exec_process_of_fits hinit hfits, State.processBlock_eq, State.foldl_runVoice_eq _ hnodup,
    State.openBlock_snapshot]
  simp only [State.openBlock_voice, State.entryEvents_eq]
  rw [State.openBlock_eq, ← hal]
  rfl

end Sys2Proof.Machine
end

section
/-! PROOFS. The causes of `F_RANGE` (R221): every operand on the list raises it and does nothing else; any other operand
leaves the bit alone. -/

namespace Sys2Proof.Machine

/-- R191: an illegal rate, initialised or not. -/
theorem exec_init_outOfRange {s : State} {chan : Byte} {rate : Word}
    (hbad : ¬(F32.isFinite rate = true ∧ F32.lt 0#32 rate = true)) :
    exec (.init chan rate) s = .next (s.raise .range) := by
  change execInit chan rate s = _
  rw [execInit, rateOperand_none hbad]

/-- R97, R98: an illegal address or value of a smoother write. -/
theorem exec_addressedWrite_outOfRange {i : Instr} {s : State} {addr : Byte} {v : Word} {body : Param → F32 → State}
    (hexec : exec i s = .next (s.addressedWrite addr v body)) (hinit : s.inited = true)
    (hbad : 6 < addr.toNat ∨ F32.isFinite v = false) : exec i s = .next (s.raise .range) := by
  obtain ⟨-, hrange, -⟩ := exec_addressedWrite hexec
  exact hrange hinit hbad

/-- R97, R105: an illegal address of a smoother read. -/
theorem exec_addressedRead_outOfRange {i : Instr} {s : State} {addr : Byte} {body : Param → State}
    (hexec : exec i s = .next (s.addressedRead addr body)) (hinit : s.inited = true) (hbad : 6 < addr.toNat) :
    exec i s = .next s.badRead := by
  obtain ⟨-, hrange, -⟩ := exec_addressedRead hexec
  exact hrange hinit hbad

/-- R221: in an initialised block every listed cause raises `F_RANGE` and does nothing else; a read responds 0. -/
theorem exec_of_outOfRange {i : Instr} {s : State} (hinit : s.inited = true) (hbad : outOfRange i) :
    exec i s = .next { s with
      flags := s.flags ||| 0b0001#4
      rsp := if isRead i = true then some 0#32 else s.rsp } := by
  cases i with
  | init => exact exec_init_outOfRange hbad
  | trigger => exact exec_trigger_outOfRange hinit hbad
  | release => exact exec_release_outOfRange hinit hbad
  | process => exact exec_process_of_not_fits hinit hbad
  | smSetimm addr v => exact exec_addressedWrite_outOfRange (exec_smSetimm s addr v) hinit hbad
  | smRamp addr v dur => exact exec_addressedWrite_outOfRange (exec_smRamp s addr v dur) hinit hbad
  | smSetui addr v => exact exec_addressedWrite_outOfRange (exec_smSetui s addr v) hinit hbad
  | pSetimm addr v => exact exec_addressedWrite_outOfRange (exec_pSetimm s addr v) hinit hbad
  | pSet addr v => exact exec_addressedWrite_outOfRange (exec_pSet s addr v) hinit hbad
  | pRamp addr v dur => exact exec_addressedWrite_outOfRange (exec_pRamp s addr v dur) hinit hbad
  | smStep addr => exact exec_addressedRead_outOfRange (exec_smStep s addr) hinit hbad
  | smGetui addr => exact exec_addressedRead_outOfRange (exec_smGetui s addr) hinit hbad
  | pGet addr => exact exec_addressedRead_outOfRange (exec_pGet s addr) hinit hbad
  | reset | destroy | alloff | midi | noteOff | noteOn | ccAlloff => exact hbad.elim

/-- R221, R224: a command that is neither uninitialised nor out of range sets no flag but a block's `F_INVARIANT`. -/
theorem Runs.flags_of_legal {i : Instr} {s t : State} (h : Runs s i t)
    (hinit : s.inited = true ∨ ∃ chan rate, i = .init chan rate) (hlegal : ¬outOfRange i) :
    t.flags = s.flags ∨ t.flags = Flag.invariant.set s.flags := by
  cases h with
  | notInited _ hs hi => simp [hs, hi] at hinit
  | notInitedRead _ hs hr =>
    obtain ⟨chan, rate, rfl⟩ := hinit.resolve_left (by simp [hs])
    cases hr
  | bad _ _ hbad | badRead _ _ hbad => exact absurd hbad hlegal
  | process _ frames offset => exact State.processBlock_flags_cases frames offset s
  | trigger | noteOn | midiOn => exact .inl (State.triggerNote_flags ..)
  | init | reset | destroy | release | noteOff | midiOff | alloff | ccAlloff | midiCc | midiIdle | smSetimm | smRamp
  | smStep | smGetui | smSetui | pSetimm | pSet | pGet | pRamp => exact .inl rfl

/-- Raising `F_INVARIANT` leaves the bit of `F_RANGE` alone. -/
theorem Flag.invariant_set_and_range (flags : BitVec 4) :
    Flag.invariant.set flags &&& 0b0001#4 = flags &&& 0b0001#4 := by
  revert flags
  decide

/-- Settles O15: each listed cause ends in its command's range check; without one, only a block's `F_INVARIANT` can be
set. -/
theorem rangeFlagCauses : Obligations.RangeFlagCauses := by
  refine fun i s hinit => ⟨fun hbad => ?cause, fun t hlegal h => ?noCause⟩
  case cause =>
    obtain hinited | ⟨chan, rate, rfl⟩ := hinit
    · exact exec_of_outOfRange hinited hbad
    · exact exec_init_outOfRange hbad
  case noCause =>
    obtain hflags | hflags := (exec_runs h).flags_of_legal hinit hlegal <;> rw [hflags]
    exact Flag.invariant_set_and_range s.flags

end Sys2Proof.Machine
end

section
/-! PROOFS. Decoding and encoding agree (R92, R94, R99, R100): the rows of the first level by their fields, the messages
of the second by their bits. -/

namespace Sys2Proof

/-! ### Messages as the encoder writes them -/

/-- A field of a message, bit by bit. -/
theorem extractLsb'_eq {m : Message} {lo width : Nat} {x : BitVec width}
    (h : ∀ i < width, m.getLsbD (lo + i) = x.getLsbD i) : m.extractLsb' lo width = x :=
  BitVec.eq_of_getLsbD_eq fun i hi => by rw [BitVec.getLsbD_extractLsb', h i hi, decide_eq_true hi, Bool.true_and]

section
variable (chan : BitVec 4) (note : Note) (vel : Velocity) (b2 : Byte)

theorem decodeMessage_encodedNoteOff :
    decodeMessage (0x8#4 ++ chan ++ 0#1 ++ note ++ b2 : Message) = some (.noteOff chan note b2) := by
  have hbit := getLsbD_noteOff chan note b2
  generalize (0x8#4 ++ chan ++ 0#1 ++ note ++ b2 : Message) = m at hbit
  have hstatus : m.extractLsb' 20 4 = 0x8#4 := extractLsb'_eq fun i hi => by grind
  have hchan : m.extractLsb' 16 4 = chan := extractLsb'_eq fun i hi => by grind
  have hnote : m.extractLsb' 8 7 = note := extractLsb'_eq fun i hi => by grind
  have hb2 : m.extractLsb' 0 8 = b2 := extractLsb'_eq fun i hi => by grind
  rw [decodeMessage_of_noteOff ((isNoteOff_iff m).2 ⟨hstatus, hbit 15⟩), hchan, hnote, hb2]

theorem decodeMessage_encodedNoteOn :
    decodeMessage (0x9#4 ++ chan ++ 0#1 ++ note ++ 0#1 ++ vel : Message) = some (.noteOn chan note vel) := by
  have hbit := getLsbD_noteOn chan note vel
  generalize (0x9#4 ++ chan ++ 0#1 ++ note ++ 0#1 ++ vel : Message) = m at hbit
  have hstatus : m.extractLsb' 20 4 = 0x9#4 := extractLsb'_eq fun i hi => by grind
  have hchan : m.extractLsb' 16 4 = chan := extractLsb'_eq fun i hi => by grind
  have hnote : m.extractLsb' 8 7 = note := extractLsb'_eq fun i hi => by grind
  have hvel : m.extractLsb' 0 7 = vel := extractLsb'_eq fun i hi => by grind
  rw [decodeMessage_of_noteOn ((isNoteOn_iff m).2 ⟨hstatus, hbit 15, hbit 7⟩), hchan, hnote, hvel]

theorem decodeMessage_encodedCcAlloff :
    decodeMessage (0xB#4 ++ chan ++ 0x7B#8 ++ b2 : Message) = some (.ccAlloff chan b2) := by
  have hbit := getLsbD_ccAlloff chan b2
  generalize (0xB#4 ++ chan ++ 0x7B#8 ++ b2 : Message) = m at hbit
  have hstatus : m.extractLsb' 20 4 = 0xB#4 := extractLsb'_eq fun i hi => by grind
  have hcontroller : m.extractLsb' 8 8 = 123#8 := extractLsb'_eq fun i hi => by grind
  have hchan : m.extractLsb' 16 4 = chan := extractLsb'_eq fun i hi => by grind
  have hb2 : m.extractLsb' 0 8 = b2 := extractLsb'_eq fun i hi => by grind
  rw [decodeMessage_of_ccAlloff ((isCcAlloff_iff m).2 ⟨hstatus, hcontroller⟩), hchan, hb2]

end

/-! ### The two levels -/

theorem decode_packMidi (len : Byte) (m : Message) : decode (packMidi len m) = .instr (decodeMidi len m) := by
  rw [decode_midiWord (opField_packMidi len m), aField_packMidi, messageField_packMidi]

/-- A message of three bytes that a row of R100 matches is decoded to that row's instruction. -/
theorem decodeMidi_of_some {m : Message} {i : Instr} (h : decodeMessage m = some i) : decodeMidi 3#8 m = i := by
  rw [decodeMidi, if_pos rfl, h]

/-- Any other message is carried as raw bytes (R104). -/
theorem decodeMidi_of_none {len : Byte} {m : Message} (h : len = 3#8 → decodeMessage m = none) :
    decodeMidi len m = .midi len (byte0 m) (byte1 m) (byte2 m) := by
  unfold decodeMidi
  split_ifs with hlen
  · rw [h hlen]
  · rfl

/-- A `midi` term is well-formed when no row takes its message. -/
theorem wellFormed_midi_iff (len b0 b1 b2 : Byte) :
    (Instr.midi len b0 b1 b2).wellFormed = true ↔ (len = 3#8 → decodeMessage (packMessage b0 b1 b2) = none) := by
  simp [Instr.wellFormed, Classical.or_iff_not_imp_left]

/-- Settles O5: each row of R94 is decoded from its fields; a `MIDI` word carries a message of a row, which decodes to
that row, or one of none, which decodes to its bytes. -/
theorem decodeOfEncode : Obligations.DecodeOfEncode := by
  intro i hwf
  cases i with
  | midi len b0 b1 b2 =>
    rw [encode, decode_packMidi, decodeMidi_of_none ((wellFormed_midi_iff len b0 b1 b2).1 hwf), byte0_packMessage,
      byte1_packMessage, byte2_packMessage]
  | noteOff chan note b2 =>
    exact (decode_packMidi 3#8 _).trans
      (congrArg _ (decodeMidi_of_some (decodeMessage_encodedNoteOff chan note b2)))
  | noteOn chan note vel =>
    exact (decode_packMidi 3#8 _).trans
      (congrArg _ (decodeMidi_of_some (decodeMessage_encodedNoteOn chan note vel)))
  | ccAlloff chan b2 =>
    exact (decode_packMidi 3#8 _).trans (congrArg _ (decodeMidi_of_some (decodeMessage_encodedCcAlloff chan b2)))
  | init | reset | destroy | trigger | release | alloff | process | smSetimm | smRamp | smStep | smGetui | smSetui
  | pSetimm | pSet | pGet | pRamp => simp [encode, decode]

/-- The decoder keeps the raw `midi` term for what no row takes. -/
theorem wellFormed_decodeMidi (len : Byte) (m : Message) : (decodeMidi len m).wellFormed = true := by
  by_cases h : len = 3#8 → decodeMessage m = none
  · rw [decodeMidi_of_none h, wellFormed_midi_iff, packMessage_bytes]
    exact h
  · obtain ⟨rfl, hrow⟩ := Classical.not_imp.1 h
    obtain ⟨-, hi⟩ | ⟨-, hi⟩ | ⟨-, hi⟩ | ⟨-, -, -, hnone⟩ := decodeMessage_cases m
    · rw [decodeMidi_of_some hi]; rfl
    · rw [decodeMidi_of_some hi]; rfl
    · rw [decodeMidi_of_some hi]; rfl
    · exact absurd hnone hrow

/-- Settles O6: every row but `MIDI` answers a term that is well-formed by its constructor, and a well-formed term
survives the round trip. -/
theorem decodedIsWellFormed : Obligations.DecodedIsWellFormed := by
  intro w i h
  suffices hwf : i.wellFormed = true from ⟨hwf, decodeOfEncode i hwf⟩
  unfold decode at h
  split at h
  case h_8 =>
    obtain rfl := Decoded.instr.inj h
    exact wellFormed_decodeMidi _ _
  case h_18 => cases h
  all_goals
    obtain rfl := Decoded.instr.inj h
    rfl

/-- Settles O4: the rows' bit conditions are their matches under their masks, and the decoder answers row by row. -/
theorem midiMessageDecoding : Obligations.MidiMessageDecoding := by
  intro len b rsv top val m cnt w off on cc
  have hoff : isNoteOff m = true ↔ off := isNoteOff_iff m
  have hon : isNoteOn m = true ↔ on := isNoteOn_iff m
  have hcc : isCcAlloff m = true ↔ cc := isCcAlloff_iff m
  have hdecode : decode w = .instr (decodeMidi len m) := decode_midi_fields len b rsv top val m
  rw [hdecode]
  refine ⟨hoff.symm.trans beq_iff_eq, hon.symm.trans beq_iff_eq, hcc.symm.trans beq_iff_eq,
    fun ⟨h1, h2⟩ => ?offOn, fun ⟨h1, h2⟩ => ?offCc, fun ⟨h1, h2⟩ => ?onCc, ?isOff, ?isOn, ?isCc, fun h => ?raw⟩
  case offOn => exact absurd (hon.2 h2) (by simp [isNoteOn_of_isNoteOff (hoff.2 h1)])
  case offCc => exact absurd (hcc.2 h2) (by simp [isCcAlloff_of_isNoteOff (hoff.2 h1)])
  case onCc => exact absurd (hcc.2 h2) (by simp [isCcAlloff_of_isNoteOn (hon.2 h1)])
  case isOff => rintro rfl h; rw [decodeMidi_of_some (decodeMessage_of_noteOff (hoff.2 h))]
  case isOn => rintro rfl h; rw [decodeMidi_of_some (decodeMessage_of_noteOn (hon.2 h))]
  case isCc => rintro rfl h; rw [decodeMidi_of_some (decodeMessage_of_ccAlloff (hcc.2 h))]
  case raw =>
    rw [decodeMidi_of_none fun hlen => ?_]
    · rfl
    obtain ⟨h1, h2, h3⟩ := h.resolve_left (not_not.2 hlen)
    obtain ⟨hrow, -⟩ | ⟨hrow, -⟩ | ⟨hrow, -⟩ | ⟨-, -, -, hnone⟩ := decodeMessage_cases m
    · exact absurd (hoff.1 hrow) h1
    · exact absurd (hon.1 hrow) h2
    · exact absurd (hcc.1 hrow) h3
    · exact hnone

/-- Settles O1: six concrete words, each evaluated both ways. -/
theorem workedEncodings : Obligations.WorkedEncodings := by
  unfold Obligations.WorkedEncodings
  decide +kernel

end Sys2Proof
end

section
/-! PROOFS. The invariant `Inv` (R27, R30, R33, R35, R224): its clauses fall into groups, one per register file, and
each group is kept by every effect of a command. -/

namespace Sys2Proof.Machine

/-! ### The groups of clauses -/

/-- I3 and I4 of R27 for one voice. -/
structure VoiceOk (v : Voice F32) : Prop where
  off_clear : v.stage = .off → v = Voice.cleared
  sustain_still : v.stage = .sustain → v.ramp = 0#32 ∧ v.slope = 0#32

/-- I1 to I4 of R27, of the voice file, the active list and its count; the bound of I2 follows from `nodup`. -/
structure VoicesOk (voice : Note → Voice F32) (al : List Note) (activeCount : BitVec 8) : Prop where
  active_iff : ∀ n, n ∈ al ↔ (voice n).stage ≠ .off
  nodup : al.Nodup
  count : activeCount.toNat = al.length
  ok : ∀ n, VoiceOk (voice n)

/-- R33 and R35. -/
structure BankOk (s : State) : Prop where
  rate_legal : s.inited = true → F32.isFinite s.sampleRate = true ∧ F32.lt 0#32 s.sampleRate = true
  counts_derived : s.inited = true →
    s.attackSamples = durationCount (s.param 3) s.sampleRate ∧
      s.releaseSamples = durationCount (s.param 4) s.sampleRate

theorem faultOf_eq_none_iff (s : State) : s.faultOf = none ↔ s.flagged .invariant = false := by
  simp [State.faultOf]

theorem inv_iff (s : State) :
    Inv s ↔ VoicesOk s.voice s.al s.activeCount ∧ (∀ i, (s.smoother i).Pinned binary32) ∧ BankOk s ∧
      s.flagged .invariant = false ∧ s.world.buf.wf = true := by
  rw [← faultOf_eq_none_iff]
  constructor
  · intro h
    exact ⟨⟨h.active_iff, h.active_nodup, h.active_count, fun n => ⟨h.off_clear n, h.sustain_still n⟩⟩,
      h.smoother_pinned, ⟨h.rate_legal, h.counts_derived⟩, h.no_defect, h.buffer_canonical⟩
  · rintro ⟨hvoices, hpinned, hbank, hfault, hbuf⟩
    exact ⟨hvoices.active_iff, hvoices.nodup, hvoices.count, State.nodup_length_le hvoices.nodup,
      fun n => (hvoices.ok n).off_clear, fun n => (hvoices.ok n).sustain_still, hpinned, hbank.rate_legal,
      hbank.counts_derived, hbuf, hfault⟩

/-! ### One voice -/

theorem voiceOk_cleared : VoiceOk Voice.cleared := ⟨fun _ => rfl, nofun⟩

/-- A voice that ramps has no clause to meet. -/
theorem voiceOk_of_ramping {v : Voice F32} (h : v.stage = .attack ∨ v.stage = .release) : VoiceOk v :=
  ⟨fun hs => by simp [hs] at h, fun hs => by simp [hs] at h⟩

theorem VoiceOk.startRelease {v : Voice F32} (h : VoiceOk v) (c : Count) : VoiceOk (v.startRelease binary32 c) := by
  by_cases hlive : v.stage = .attack ∨ v.stage = .sustain
  · rw [Voice.startRelease_live binary32 c hlive]
    exact voiceOk_of_ramping (.inr rfl)
  · rw [Voice.startRelease, if_neg hlive]
    exact h

/-- A run that completes a release leaves the voice cleared, one that completes an attack still (R168, R174). -/
theorem VoiceOk.run {v : Voice F32} (h : VoiceOk v) (cnt : Nat) : VoiceOk (v.run binary32 switches cnt).voice := by
  obtain ⟨-, hr⟩ | ⟨-, -, hr⟩ | ⟨hs, hr⟩ | ⟨hs, -, hr⟩ | ⟨-, -, -, hr⟩ | ⟨-, -, -, hr⟩ | ⟨-, -, -, hr⟩ |
    ⟨-, -, -, hr⟩ := Voice.run_cases binary32 switches cnt v <;> rw [hr]
  · exact h
  · exact h
  · exact ⟨fun hoff => absurd (hs.symm.trans hoff) (by decide), fun _ => h.sustain_still hs⟩
  · exact voiceOk_of_ramping hs
  · exact ⟨nofun, fun _ => ⟨rfl, rfl⟩⟩
  · exact ⟨nofun, fun _ => ⟨rfl, rfl⟩⟩
  · exact voiceOk_cleared
  · exact voiceOk_cleared

/-- A sounding voice goes Off exactly when its release completes. -/
theorem Voice.run_ended_iff {R : Type} (N : Num R) (sw : Switches) {v : Voice R} (h : v.stage ≠ .off) (cnt : Nat) :
    (v.run N sw cnt).ended = true ↔ (v.run N sw cnt).voice.stage = .off := by
  obtain ⟨-, hr⟩ | ⟨-, hs, -⟩ | ⟨hs, hr⟩ | ⟨hs, -, hr⟩ | ⟨-, -, -, hr⟩ | ⟨-, -, -, hr⟩ | ⟨-, -, -, hr⟩ |
    ⟨-, -, -, hr⟩ := Voice.run_cases N sw cnt v
  · simp [hr, h]
  · exact absurd hs h
  · simp [hr, h]
  · simp [hr, h]
  all_goals simp [hr, Voice.goOff]

/-! ### The voice file -/

namespace VoicesOk

variable {voice voice' : Note → Voice F32} {al : List Note} {activeCount : BitVec 8}

/-- Voices replaced by voices as Off as they were: the active list stands. -/
theorem of_off_iff (h : VoicesOk voice al activeCount) (hoff : ∀ n, (voice' n).stage = .off ↔ (voice n).stage = .off)
    (hok : ∀ n, VoiceOk (voice' n)) : VoicesOk voice' al activeCount :=
  ⟨fun n => (h.active_iff n).trans (hoff n).not.symm, h.nodup, h.count, hok⟩

theorem cleared : VoicesOk (fun _ => Voice.cleared) [] 0#8 :=
  ⟨fun n => by simp [Voice.cleared], List.nodup_nil, rfl, fun _ => voiceOk_cleared⟩

/-- R152: an Off voice begins its attack at the head of the active list. -/
theorem activate (h : VoicesOk voice al activeCount) {n : Note} (hoff : (voice n).stage = .off)
    (hattack : (voice' n).stage = .attack) (hother : ∀ m, m ≠ n → voice' m = voice m) :
    VoicesOk voice' (n :: al) (activeCount + 1#8) where
  active_iff m := by
    by_cases hm : m = n
    · simp [hm, hattack]
    · simp [hm, hother m hm, h.active_iff m]
  nodup := List.nodup_cons.2 ⟨fun hn => (h.active_iff n).1 hn hoff, h.nodup⟩
  count := by
    have hbound := State.nodup_length_le h.nodup
    have hcount := h.count
    rw [List.length_cons]
    bv_omega
  ok m := by
    by_cases hm : m = n
    · exact voiceOk_of_ramping (.inl (hm ▸ hattack))
    · exact hother m hm ▸ h.ok m

/-- R164, R174: the active voices have run; those whose release completed are off the list. -/
theorem run (h : VoicesOk voice al activeCount) (cnt : Nat)
    (hvoice : ∀ n, voice' n = if n ∈ al then ((voice n).run binary32 switches cnt).voice else voice n) :
    VoicesOk voice' (al.filter fun n => !((voice n).run binary32 switches cnt).ended)
      (activeCount - BitVec.ofNat 8 (al.countP fun n => ((voice n).run binary32 switches cnt).ended)) where
  active_iff n := by
    rw [List.mem_filter, hvoice]
    by_cases hn : n ∈ al
    · simp [hn, ← Voice.run_ended_iff binary32 switches ((h.active_iff n).1 hn) cnt]
    · simpa [hn] using (h.active_iff n).not.1 hn
  nodup := h.nodup.filter _
  count := by
    have hbound := State.nodup_length_le h.nodup
    have hcount := h.count
    have hsplit := List.length_eq_countP_add_countP (fun n => ((voice n).run binary32 switches cnt).ended) (l := al)
    simp only [Bool.not_eq_true, Bool.decide_eq_false] at hsplit
    rw [← List.countP_eq_length_filter]
    bv_omega
  ok n := by
    rw [hvoice]
    split_ifs
    · exact (h.ok n).run cnt
    · exact h.ok n

end VoicesOk

/-! ### The voice file after each operation -/

namespace State

theorem voicesOk_releaseNote {s : State} (h : VoicesOk s.voice s.al s.activeCount) (n : Note) :
    VoicesOk (s.releaseNote n).voice (s.releaseNote n).al (s.releaseNote n).activeCount := by
  refine h.of_off_iff (fun m => ?_) fun m => ?_ <;> rw [releaseNote_voice] <;> split_ifs with hm
  · rw [hm, Voice.startRelease_off_iff]
  · rfl
  · exact (h.ok n).startRelease _
  · exact h.ok m

theorem voicesOk_triggerNote {s : State} (h : VoicesOk s.voice s.al s.activeCount) (n : Note) (vel : Velocity) :
    VoicesOk (s.triggerNote n vel).voice (s.triggerNote n vel).al (s.triggerNote n vel).activeCount := by
  by_cases hvel : vel = 0#7
  · rw [hvel, triggerNote_zero]
    exact voicesOk_releaseNote h n
  have hvoice := triggerNote_voice n vel s hvel
  by_cases hoff : (s.voice n).stage = .off
  · have hactivate := h.activate (voice' := (s.triggerNote n vel).voice) hoff (by rw [hvoice, if_pos rfl]; rfl)
      fun m hm => by rw [hvoice, if_neg hm]
    rwa [triggerNote_off hvel hoff] at hactivate ⊢
  · have hsame := h.of_off_iff (voice' := (s.triggerNote n vel).voice) (fun m => ?_) fun m => ?_
    · rwa [triggerNote_sounding hvel hoff] at hsame ⊢
    all_goals rw [hvoice]; split_ifs with hm
    · simp [hm, hoff]
    · rfl
    · exact voiceOk_of_ramping (.inl rfl)
    · exact h.ok m

/-- A trigger writes voices, the active list and its count, and emits (R151). -/
theorem triggerNote_frame (n : Note) (vel : Velocity) (s : State) :
    s.triggerNote n vel = { s with
      env := (s.triggerNote n vel).env
      al := (s.triggerNote n vel).al
      activeCount := (s.triggerNote n vel).activeCount
      events := (s.triggerNote n vel).events } := by
  obtain ⟨-, h⟩ | ⟨-, -, h⟩ | ⟨-, -, h⟩ := triggerNote_cases n vel s <;> rw [h] <;> rfl

theorem voicesOk_allNotesOff (s : State) :
    VoicesOk s.allNotesOff.voice s.allNotesOff.al s.allNotesOff.activeCount := by
  rw [show s.allNotesOff.voice = fun _ => Voice.cleared from funext (allNotesOff_voice s)]
  exact .cleared

section
variable {s : State} (hnodup : s.al.Nodup) (frames offset : Count)
include hnodup

/-- R197: every voice of the list has run once, from where it stood. -/
theorem processBlock_voice (n : Note) : (s.processBlock frames offset).voice n =
    if n ∈ s.al then ((s.voice n).run binary32 switches frames.toNat).voice else s.voice n := by
  rw [processBlock_eq, emit_voice, foldl_runVoice_voice _ hnodup, openBlock_voice]

theorem processBlock_al : (s.processBlock frames offset).al =
    s.al.filter fun n => !((s.voice n).run binary32 switches frames.toNat).ended := by
  rw [processBlock_eq, emit_al, foldl_runVoice_al _ hnodup, openBlock_al]
  exact List.filter_congr fun n hn => by simp [hn]

theorem processBlock_activeCount : (s.processBlock frames offset).activeCount =
    s.activeCount -
      BitVec.ofNat 8 (s.al.countP fun n => ((s.voice n).run binary32 switches frames.toNat).ended) := by
  rw [processBlock_eq, emit_activeCount, foldl_runVoice_activeCount _ hnodup, openBlock_activeCount]
  simp only [openBlock_voice]

/-- R173: a list of sounding voices raises no flag. -/
theorem processBlock_flags (hactive : ∀ n ∈ s.al, (s.voice n).stage ≠ .off) :
    (s.processBlock frames offset).flags = s.flags := by
  rw [processBlock_eq, emit_flags, foldl_runVoice_flags _ hnodup, openBlock_flags, if_neg]
  rw [List.any_eq_true]
  rintro ⟨n, hn, hdefect⟩
  rw [openBlock_voice] at hdefect
  exact hactive n hn (Voice.run_of_defect _ _ hdefect).2.1

end

theorem voicesOk_processBlock {s : State} (h : VoicesOk s.voice s.al s.activeCount) (frames offset : Count) :
    VoicesOk (s.processBlock frames offset).voice (s.processBlock frames offset).al
      (s.processBlock frames offset).activeCount := by
  rw [processBlock_al h.nodup, processBlock_activeCount h.nodup]
  exact h.run frames.toNat (processBlock_voice h.nodup frames offset)

/-! ### The smoothers and the bank after a construction -/

section
variable (dflt : Param → F32) (s : State) (chan : Byte) (rate : F32)

theorem softReset_smoother (i : Param) : (s.softReset dflt).smoother i = Smoother.setImm binary32 (dflt i) := by
  fin_cases i <;> rfl

theorem construct_smoother (i : Param) : (s.construct dflt).smoother i = Smoother.setImm binary32 (dflt i) := by
  fin_cases i <;> rfl

theorem initialise_smoother (i : Param) :
    (s.initialise dflt chan rate).smoother i = Smoother.setImm binary32 (dflt i) :=
  construct_smoother dflt s i

end

theorem smoothersPinned_set {s : State} (h : ∀ i, (s.smoother i).Pinned binary32) {i : Param} {x : Smoother F32}
    (hx : x.Pinned binary32) (j : Param) : ((s.setSmoother i x).smoother j).Pinned binary32 := by
  rw [setSmoother_smoother]
  split_ifs
  · exact hx
  · exact h j

/-- A flag other than `F_INVARIANT` is no defect. -/
theorem raise_not_invariant {s : State} (h : s.flagged .invariant = false) {f : Flag}
    (hf : f = .range ∨ f = .noInit ∨ f = .rsvd) : (s.raise f).flagged .invariant = false := by
  rw [raise_flagged, h]
  rcases hf with rfl | rfl | rfl <;> rfl

theorem inv_raise {s : State} (h : Inv s) {f : Flag} (hf : f = .range ∨ f = .noInit ∨ f = .rsvd) :
    Inv (s.raise f) := by
  obtain ⟨hvoices, hpinned, hbank, hflag, hbuf⟩ := (inv_iff s).1 h
  exact (inv_iff _).2 ⟨hvoices, hpinned, ⟨hbank.rate_legal, hbank.counts_derived⟩, raise_not_invariant hflag hf, hbuf⟩

theorem inv_respond {s : State} (h : Inv s) (v : F32) : Inv (s.respond v) := by
  obtain ⟨hvoices, hpinned, hbank, hflag, hbuf⟩ := (inv_iff s).1 h
  exact (inv_iff _).2 ⟨hvoices, hpinned, ⟨hbank.rate_legal, hbank.counts_derived⟩, hflag, hbuf⟩

theorem inv_setSmoother {s : State} (h : Inv s) (i : Param) {x : Smoother F32} (hx : x.Pinned binary32) :
    Inv (s.setSmoother i x) := by
  obtain ⟨hvoices, hpinned, hbank, hflag, hbuf⟩ := (inv_iff s).1 h
  exact (inv_iff _).2
    ⟨hvoices, smoothersPinned_set hpinned hx, ⟨hbank.rate_legal, hbank.counts_derived⟩, hflag, hbuf⟩

/-- R33, R35 after a block: the rate stands, and the counts come from the values just latched. -/
theorem bankOk_processBlock {s : State} (h : BankOk s) (frames offset : Count) :
    BankOk (s.processBlock frames offset) where
  rate_legal hinit := by
    rw [processBlock_inited] at hinit
    rw [processBlock_sampleRate]
    exact h.rate_legal hinit
  counts_derived _ := by simp

theorem inv_processBlock {s : State} (h : Inv s) (frames offset : Count) : Inv (s.processBlock frames offset) := by
  obtain ⟨hvoices, hpinned, hbank, hflag, hbuf⟩ := (inv_iff s).1 h
  refine (inv_iff _).2 ⟨voicesOk_processBlock hvoices frames offset, fun i => ?_,
    bankOk_processBlock hbank frames offset, ?_, by rwa [processBlock_world]⟩
  · rw [processBlock_smoother]
    exact Smoother.pinned_advance binary32 (hpinned i)
  · rw [flagged, processBlock_flags hvoices.nodup frames offset fun n hn => (hvoices.active_iff n).1 hn]
    exact hflag

theorem inv_initialise {s : State} (h : Inv s) (chan : Byte) {rate : F32}
    (hrate : F32.isFinite rate = true ∧ F32.lt 0#32 rate = true) : Inv (s.initialise paramDefault chan rate) := by
  obtain ⟨-, -, -, hflag, hbuf⟩ := (inv_iff s).1 h
  refine (inv_iff _).2 ⟨voicesOk_allNotesOff s, fun i => ?_, ⟨fun _ => hrate, fun _ => ⟨rfl, rfl⟩⟩, hflag, hbuf⟩
  rw [initialise_smoother]
  exact Smoother.pinned_setImm binary32 _

theorem inv_softReset {s : State} (h : Inv s) : Inv (s.softReset paramDefault) := by
  obtain ⟨-, -, hbank, hflag, hbuf⟩ := (inv_iff s).1 h
  refine (inv_iff _).2
    ⟨voicesOk_allNotesOff s, fun i => ?_, ⟨hbank.rate_legal, hbank.counts_derived⟩, hflag, hbuf⟩
  rw [softReset_smoother]
  exact Smoother.pinned_setImm binary32 _

end State

/-! ### Every effect, every step -/

/-- R27, R30, R33, R35: a command keeps the invariant. -/
theorem Effect.inv {s t : State} (heffect : Effect s t) (h : Inv s) : Inv t := by
  obtain ⟨hvoices, hpinned, hbank, hflag, hbuf⟩ := (inv_iff s).1 h
  cases heffect with
  | idle => exact h
  | ignored f hf => exact State.inv_raise h (hf.imp_right .inl)
  | ignoredRead f hf => exact State.inv_respond (State.inv_raise h (hf.imp_right .inl)) _
  | read _ v => exact State.inv_respond h v
  | setSmoother _ i x hx => exact State.inv_setSmoother h i hx
  | setUi _ i v => exact State.inv_setSmoother h i (Smoother.pinned_setUi binary32 (hpinned i) v)
  | stepSmoother _ i =>
    exact State.inv_respond (State.inv_setSmoother h i (Smoother.pinned_advance binary32 (hpinned i))) _
  | release _ n =>
    exact (inv_iff _).2 ⟨State.voicesOk_releaseNote hvoices n, hpinned,
      ⟨hbank.rate_legal, hbank.counts_derived⟩, hflag, hbuf⟩
  | trigger _ n vel =>
    rw [State.triggerNote_frame]
    exact (inv_iff _).2 ⟨State.voicesOk_triggerNote hvoices n vel, hpinned,
      ⟨hbank.rate_legal, hbank.counts_derived⟩, hflag, hbuf⟩
  | allOff =>
    exact (inv_iff _).2 ⟨State.voicesOk_allNotesOff s, hpinned, ⟨hbank.rate_legal, hbank.counts_derived⟩, hflag, hbuf⟩
  | block _ frames offset => exact State.inv_processBlock h frames offset
  | init chan rate hrate => exact State.inv_initialise h chan hrate
  | reset => exact State.inv_softReset h
  | destroy => exact (inv_iff _).2 ⟨hvoices, hpinned, ⟨nofun, nofun⟩, hflag, hbuf⟩

theorem runWord_inv {w : Command} {s t : State} (hrun : runWord w s = .next t) (h : Inv s) : Inv t := by
  obtain ⟨i, -, hexec⟩ | ⟨op, -, rfl⟩ := runWord_cases hrun
  · exact (exec_effect hexec).inv h
  · exact State.inv_raise h (.inr (.inr rfl))

theorem State.inv_accept {s : State} (h : Inv s) (rest : List HostInput) : Inv (s.accept rest) := by
  obtain ⟨hvoices, hpinned, hbank, hflag, hbuf⟩ := (inv_iff s).1 h
  exact (inv_iff _).2 ⟨hvoices, hpinned, ⟨hbank.rate_legal, hbank.counts_derived⟩, hflag, hbuf⟩

theorem World.absorbAll_wf {w : World} (h : w.buf.wf = true) (events : List Event) :
    (w.absorbAll events).buf.wf = true := by
  induction events generalizing w with
  | nil => exact h
  | cons e events ih => exact ih (World.absorb_wf h e)

theorem State.inv_deliver {s : State} (h : Inv s) : Inv s.deliver := by
  obtain ⟨hvoices, hpinned, hbank, hflag, hbuf⟩ := (inv_iff s).1 h
  exact (inv_iff _).2
    ⟨hvoices, hpinned, ⟨hbank.rate_legal, hbank.counts_derived⟩, hflag, World.absorbAll_wf hbuf _⟩

/-- The state after a hardware reset meets the invariant, whatever the environment received (R50, R250). -/
theorem State.inv_hardReset (rest : List HostInput) {w : World} (h : w.buf.wf = true) :
    Inv (State.hardReset rest w) := by
  refine (inv_iff _).2 ⟨?_, fun i => ?_, ⟨nofun, nofun⟩, (by decide : (0#4).getLsbD 2 = false), h⟩
  · have hvoice : (State.hardReset rest w).voice = fun _ => Voice.cleared := funext reset_voice
    rw [hvoice]
    exact .cleared
  · rw [show (State.hardReset rest w).smoother i = Smoother.atDefault i from reset_smoother i]
    exact fun _ => ⟨rfl, rfl⟩

/-- Settles O10: the state after a hardware reset with nothing presented and an environment nothing has reached. -/
theorem resetMeetsInvariant : Obligations.ResetMeetsInvariant := State.inv_hardReset [] (w := World.initial) rfl

/-- Settles O11: a command's effect keeps every group of clauses, the environment keeps the canonical form, and a pulse
leaves the reset state. -/
theorem stepKeepsInvariant : Obligations.StepKeepsInvariant := by
  intro s t h hstep
  obtain ⟨-, rfl⟩ | ⟨w, rest, u, -, hu, rfl⟩ | ⟨rest, -, rfl⟩ | ⟨w, k, rest, u, -, -, rfl⟩ := step_cases hstep
  · exact h
  · exact State.inv_deliver (runWord_inv hu (State.inv_accept h rest))
  · exact State.inv_hardReset rest h.buffer_canonical
  · exact State.inv_hardReset rest (World.absorbAll_wf h.buffer_canonical _)

end Sys2Proof.Machine
end

section
/-! PROOFS. Information flow (R34, R39, R45, R260): an operation that cannot tell apart two states that a projection
identifies, and the steps made of such operations. -/

namespace Sys2Proof.Machine

/-- The operation keeps states that differ only in what `drop` forgets from differing in more. -/
def Respects (drop f : State → State) : Prop := ∀ s s', drop s = drop s' → drop (f s) = drop (f s')

/-- What is left of the result is a function of what is left of the state. -/
theorem Respects.of_factors {drop f : State → State} (g : State → State) (h : ∀ s, drop (f s) = g (drop s)) :
    Respects drop f := fun s s' e => by rw [h s, e, ← h s']

theorem Respects.comp {drop f g : State → State} (hg : Respects drop g) (hf : Respects drop f) :
    Respects drop fun s => g (f s) := fun s s' e => hg _ _ (hf s s' e)

theorem Respects.foldl {α : Type} {drop : State → State} {f : State → α → State}
    (h : ∀ a, Respects drop fun s => f s a) (l : List α) : Respects drop fun s => l.foldl f s := by
  induction l with
  | nil => exact fun s s' e => e
  | cons a l ih => exact ih.comp (h a)

/-- What a projection leaves alone, and the elementary operations that cannot see what it forgets. -/
structure Forgets (drop : State → State) : Prop where
  voice : ∀ s n, (drop s).voice n = s.voice n
  snapshot : ∀ s, (drop s).snapshot = s.snapshot
  al : ∀ s, (drop s).al = s.al
  inited : ∀ s, (drop s).inited = s.inited
  attackSamples : ∀ s, (drop s).attackSamples = s.attackSamples
  releaseSamples : ∀ s, (drop s).releaseSamples = s.releaseSamples
  host : ∀ s, (drop s).host = s.host
  events : ∀ s, (drop s).events = s.events
  world : ∀ s, (drop s).world = s.world
  raise : ∀ f, Respects drop (State.raise f)
  badRead : ∀ f, Respects drop fun s => (s.raise f).respond 0#32
  emit : ∀ e, Respects drop (State.emit e)
  emitAll : ∀ l, Respects drop fun s => { s with events := s.events ++ l }
  setVoice : ∀ n v, Respects drop (State.setVoice n v)
  activate : ∀ n, Respects drop (State.activate n)
  retire : ∀ n, Respects drop (State.retire n)
  allNotesOff : Respects drop State.allNotesOff
  openBlock : ∀ frames offset, Respects drop (State.openBlock frames offset)
  setSmoother : ∀ i x, Respects drop (State.setSmoother i x)
  startRamp : ∀ i t d, Respects drop fun s => s.setSmoother i ((s.smoother i).startRamp binary32 t d)
  setUi : ∀ i v, Respects drop fun s => s.setSmoother i ((s.smoother i).setUi v)
  advance : ∀ i, Respects drop fun s =>
    (s.setSmoother i ((s.smoother i).advance binary32)).respond (s.smoother i).cur
  readUi : ∀ i, Respects drop fun s => s.respond (s.smoother i).ui
  initialise : ∀ chan rate, Respects drop (State.initialise paramDefault chan rate)
  softReset : Respects drop (State.softReset paramDefault)
  destroy : Respects drop fun s => { s with inited := false }
  accept : ∀ rest, Respects drop (State.accept rest)
  deliver : Respects drop State.deliver

namespace Forgets

variable {drop : State → State} (hd : Forgets drop)
include hd

/-! ### The first check and the operands (R102) -/

theorem whenInited {body : State → State} (h : Respects drop body) : Respects drop fun s => s.whenInited (body s) := by
  intro s s' e
  have hinit : s.inited = s'.inited := by rw [← hd.inited, e, hd.inited]
  cases hs : s.inited with
  | true =>
    simp only [State.whenInited_pos hs, State.whenInited_pos (hinit.symm.trans hs)]
    exact h s s' e
  | false =>
    simp only [State.whenInited_neg hs, State.whenInited_neg (hinit.symm.trans hs)]
    exact hd.raise _ s s' e

theorem whenInitedRead {body : State → State} (h : Respects drop body) :
    Respects drop fun s => s.whenInitedRead (body s) := by
  intro s s' e
  have hinit : s.inited = s'.inited := by rw [← hd.inited, e, hd.inited]
  cases hs : s.inited with
  | true =>
    simp only [State.whenInitedRead_pos hs, State.whenInitedRead_pos (hinit.symm.trans hs)]
    exact h s s' e
  | false =>
    simp only [State.whenInitedRead_neg hs, State.whenInitedRead_neg (hinit.symm.trans hs)]
    exact hd.badRead _ s s' e

theorem addressedWrite {body : Param → F32 → State → State} (h : ∀ i x, Respects drop (body i x)) (addr : Byte)
    (v : Word) : Respects drop fun s => s.addressedWrite addr v fun i x => body i x s := by
  refine hd.whenInited ?_
  cases addrOperand addr with
  | none => exact hd.raise _
  | some i =>
    cases realOperand v with
    | none => exact hd.raise _
    | some x => exact h i x

theorem addressedRead {body : Param → State → State} (h : ∀ i, Respects drop (body i)) (addr : Byte) :
    Respects drop fun s => s.addressedRead addr fun i => body i s := by
  refine hd.whenInitedRead ?_
  cases addrOperand addr with
  | none => exact hd.badRead _
  | some i => exact h i

/-! ### Notes and blocks -/

theorem releaseNote (n : Note) : Respects drop (State.releaseNote n) := by
  intro s s' e
  have hvoice : s.voice n = s'.voice n := by rw [← hd.voice, e, hd.voice]
  have hcount : s.releaseSamples = s'.releaseSamples := by rw [← hd.releaseSamples, e, hd.releaseSamples]
  rw [State.releaseNote, State.releaseNote, hvoice, hcount]
  exact hd.setVoice _ _ s s' e

theorem triggerNote (n : Note) (vel : Velocity) : Respects drop (State.triggerNote n vel) := by
  intro s s' e
  have hvoice : s.voice n = s'.voice n := by rw [← hd.voice, e, hd.voice]
  have hcount : s.attackSamples = s'.attackSamples := by rw [← hd.attackSamples, e, hd.attackSamples]
  rw [State.triggerNote, State.triggerNote, hvoice, hcount]
  split_ifs
  · exact hd.releaseNote n s s' e
  · exact ((hd.setVoice _ _).comp ((hd.emit _).comp (hd.activate n))) s s' e
  · exact ((hd.setVoice _ _).comp (hd.emit _)) s s' e

theorem voiceRun (n : Note) (cnt : Nat) : Respects drop (State.voiceRun n cnt) := by
  intro s s' e
  have hvoice : s.voice n = s'.voice n := by rw [← hd.voice, e, hd.voice]
  simp only [State.voiceRun, hvoice]
  split_ifs
  · exact hd.raise _ s s' e
  · exact ((hd.retire n).comp ((hd.setVoice _ _).comp (hd.emitAll _))) s s' e
  · exact ((hd.setVoice _ _).comp (hd.emitAll _)) s s' e

theorem runVoice (cnt : Nat) (n : Note) : Respects drop fun s => s.runVoice cnt n := by
  intro s s' e
  have hsnapshot : s.snapshot = s'.snapshot := by rw [← hd.snapshot, e, hd.snapshot]
  simp only [State.runVoice, hsnapshot]
  exact ((hd.voiceRun n cnt).comp (hd.emit _)) s s' e

theorem processBlock (frames offset : Count) : Respects drop (State.processBlock frames offset) := by
  intro s s' e
  have hal : s.al = s'.al := by rw [← hd.al, e, hd.al]
  rw [State.processBlock_eq, State.processBlock_eq, hal]
  exact ((hd.emit _).comp ((Respects.foldl (hd.runVoice frames.toNat) s'.al).comp (hd.openBlock frames offset))) s s' e

/-! ### Every instruction, every word, every step -/

theorem midiMessage (m : Message) : Respects drop (State.midiMessage m) := by
  unfold State.midiMessage
  split_ifs
  · exact hd.releaseNote _
  · exact hd.triggerNote _ _
  · exact hd.allNotesOff
  · exact fun s s' e => e

/-- Every instruction is a total operation that cannot see what is forgotten. -/
theorem exec (i : Instr) : ∃ f, (∀ s, exec i s = .next (f s)) ∧ Respects drop f := by
  cases i with
  | init chan rate =>
    refine ⟨_, fun s => rfl, ?_⟩
    cases rateOperand rate with
    | none => exact hd.raise _
    | some r => exact hd.initialise chan r
  | reset => exact ⟨_, fun s => rfl, hd.whenInited hd.softReset⟩
  | destroy => exact ⟨_, fun s => rfl, hd.whenInited hd.destroy⟩
  | trigger note vel =>
    refine ⟨_, fun s => rfl, hd.whenInited ?_⟩
    cases noteOperand note with
    | none => exact hd.raise _
    | some n =>
      cases velOperand vel with
      | none => exact hd.raise _
      | some v => exact hd.triggerNote n v
  | release note =>
    refine ⟨_, fun s => rfl, hd.whenInited ?_⟩
    cases noteOperand note with
    | none => exact hd.raise _
    | some n => exact hd.releaseNote n
  | alloff => exact ⟨_, fun s => rfl, hd.whenInited hd.allNotesOff⟩
  | process frames offset =>
    refine ⟨_, fun s => rfl, hd.whenInited ?_⟩
    cases blockFits frames offset with
    | false => exact hd.raise _
    | true => exact hd.processBlock frames offset
  | midi len b0 b1 b2 =>
    refine ⟨_, fun s => rfl, hd.whenInited ?_⟩
    split_ifs
    · exact hd.midiMessage _
    · exact fun s s' e => e
  | smSetimm addr v => exact ⟨_, (exec_smSetimm · addr v), hd.addressedWrite (fun i x => hd.setSmoother i _) addr v⟩
  | smRamp addr v dur => exact ⟨_, (exec_smRamp · addr v dur), hd.addressedWrite (fun i x => hd.startRamp i _ _) addr v⟩
  | smStep addr => exact ⟨_, (exec_smStep · addr), hd.addressedRead hd.advance addr⟩
  | smGetui addr => exact ⟨_, (exec_smGetui · addr), hd.addressedRead hd.readUi addr⟩
  | smSetui addr v => exact ⟨_, (exec_smSetui · addr v), hd.addressedWrite (fun i x => hd.setUi i _) addr v⟩
  | pSetimm addr v => exact ⟨_, (exec_pSetimm · addr v), hd.addressedWrite (fun i x => hd.setSmoother i _) addr v⟩
  | pSet addr v => exact ⟨_, (exec_pSet · addr v), hd.addressedWrite (fun i x => hd.setUi i _) addr v⟩
  | pGet addr => exact ⟨_, (exec_pGet · addr), hd.addressedRead hd.readUi addr⟩
  | pRamp addr v dur => exact ⟨_, (exec_pRamp · addr v dur), hd.addressedWrite (fun i x => hd.startRamp i _ _) addr v⟩
  | noteOff chan note b2 => exact ⟨_, fun s => rfl, hd.whenInited (hd.releaseNote note)⟩
  | noteOn chan note vel => exact ⟨_, fun s => rfl, hd.whenInited (hd.triggerNote note vel)⟩
  | ccAlloff chan b2 => exact ⟨_, fun s => rfl, hd.whenInited hd.allNotesOff⟩

theorem runWord (w : Command) : ∃ f, (∀ s, runWord w s = .next (f s)) ∧ Respects drop f := by
  unfold Machine.runWord
  cases decode w with
  | instr i => exact hd.exec i
  | reserved op => exact ⟨_, fun s => rfl, hd.raise _⟩

/-- What a command word does from two states that `drop` identifies. -/
theorem runWord_eq {s s' t t' : State} (e : drop s = drop s') {w : Command} (ht : Machine.runWord w s = .next t)
    (ht' : Machine.runWord w s' = .next t') : drop t = drop t' := by
  obtain ⟨f, hf, hrespects⟩ := hd.runWord w
  rw [hf] at ht ht'
  cases ht
  cases ht'
  exact hrespects s s' e

/-- Steps from two states that `drop` identifies lead to such states: the input is the same, and so is what the
environment receives. -/
theorem step_eq {s s' t t' : State} (e : drop s = drop s') (ht : step s = .next t) (ht' : step s' = .next t') :
    drop t = drop t' := by
  have hhost : s.host = s'.host := by rw [← hd.host, e, hd.host]
  have hworld : s.world = s'.world := by rw [← hd.world, e, hd.world]
  obtain ⟨hh, rfl⟩ | ⟨w, rest, u, hh, hu, rfl⟩ | ⟨rest, hh, rfl⟩ | ⟨w, k, rest, u, hh, hu, rfl⟩ := step_cases ht <;>
    obtain ⟨hh', rfl⟩ | ⟨w', rest', u', hh', hu', rfl⟩ | ⟨rest', hh', rfl⟩ | ⟨w', k', rest', u', hh', hu', rfl⟩ :=
      step_cases ht' <;>
    rw [hhost, hh'] at hh <;> cases hh
  case inl => exact e
  case inr.inl => exact hd.deliver _ _ (hd.runWord_eq (hd.accept rest s s' e) hu hu')
  case inr.inr.inl => rw [hworld]
  case inr.inr.inr =>
    have hu := hd.runWord_eq (hd.accept rest s s' e) hu hu'
    have hevents : u.events = u'.events := by rw [← hd.events, hu, hd.events]
    rw [hworld, hevents]

end Forgets

/-! ### The UI values (R260) -/

/-- A smoother without its UI value. -/
def Smoother.dropUi (m : Smoother F32) : Smoother F32 := { m with ui := 0#32 }

theorem Smoother.dropUi_dropUi (m : Smoother F32) : m.dropUi.dropUi = m.dropUi := rfl

theorem Smoother.dropUi_setUi (m : Smoother F32) (v : F32) : (m.setUi v).dropUi = m.dropUi := rfl

theorem Smoother.dropUi_advance (m : Smoother F32) :
    (m.advance binary32).dropUi = (m.dropUi.advance binary32).dropUi := by
  unfold Smoother.advance
  rw [show m.dropUi.rem = m.rem from rfl]
  split_ifs <;> rfl

theorem Smoother.dropUi_startRamp (m : Smoother F32) (t : F32) (d : Count) :
    (m.startRamp binary32 t d).dropUi = (m.dropUi.startRamp binary32 t d).dropUi := by
  unfold Smoother.startRamp
  split_ifs <;> rfl

namespace State

theorem dropUi_eq (s : State) : s.dropUi = { s with sm := s.sm.map Smoother.dropUi, rsp := none } := rfl

theorem dropUi_smoother (s : State) (i : Param) : s.dropUi.smoother i = (s.smoother i).dropUi := by
  simp [dropUi_eq, smoother]

theorem dropUi_setSmoother (s : State) (i : Param) (x : Smoother F32) :
    (s.setSmoother i x).dropUi = s.dropUi.setSmoother i x.dropUi := by
  simp only [dropUi_eq, setSmoother, Vector.map_set]

/-- Steps 1 and 2 of a block read no UI value. -/
theorem dropUi_openBlock (frames offset : Count) (s : State) :
    (s.openBlock frames offset).dropUi = (s.dropUi.openBlock frames offset).dropUi := by
  have hadvance : Smoother.dropUi ∘ Smoother.advance binary32 =
      Smoother.dropUi ∘ Smoother.advance binary32 ∘ Smoother.dropUi := funext Smoother.dropUi_advance
  rw [openBlock_eq, openBlock_eq]
  simp only [dropUi_eq, Vector.map_map, Vector.getElem_map, ← hadvance]
  rfl

end State

theorem forgets_dropUi : Forgets State.dropUi where
  voice _ _ := rfl
  snapshot _ := rfl
  al _ := rfl
  inited _ := rfl
  attackSamples _ := rfl
  releaseSamples _ := rfl
  host _ := rfl
  events _ := rfl
  world _ := rfl
  raise f := .of_factors (State.raise f) fun _ => rfl
  badRead f := .of_factors (State.raise f) fun _ => rfl
  emit e := .of_factors (State.emit e) fun _ => rfl
  emitAll l := .of_factors (fun s => { s with events := s.events ++ l }) fun _ => rfl
  setVoice n v := .of_factors (State.setVoice n v) fun _ => rfl
  activate n := .of_factors (State.activate n) fun _ => rfl
  retire n := .of_factors (State.retire n) fun _ => rfl
  allNotesOff := .of_factors State.allNotesOff fun _ => rfl
  openBlock frames offset :=
    .of_factors (fun s => (s.openBlock frames offset).dropUi) (State.dropUi_openBlock frames offset)
  setSmoother i x := .of_factors (State.setSmoother i x.dropUi) fun s => s.dropUi_setSmoother i x
  startRamp i t d :=
    .of_factors (fun s => s.setSmoother i ((s.smoother i).startRamp binary32 t d).dropUi) fun s => by
      rw [s.dropUi_setSmoother, Smoother.dropUi_startRamp, ← s.dropUi_smoother]
  setUi i v := .of_factors (fun s => s.setSmoother i (s.smoother i).dropUi) fun s => by
    rw [s.dropUi_setSmoother, s.dropUi_smoother, Smoother.dropUi_dropUi, Smoother.dropUi_setUi]
  advance i := .of_factors (fun s => s.setSmoother i ((s.smoother i).advance binary32).dropUi) fun s => by
    rw [s.dropUi_smoother, ← Smoother.dropUi_advance]
    exact s.dropUi_setSmoother i _
  readUi i := .of_factors id fun _ => rfl
  initialise chan rate := .of_factors (fun s => (s.initialise paramDefault chan rate).dropUi) fun _ => rfl
  softReset := .of_factors (fun s => (s.softReset paramDefault).dropUi) fun _ => rfl
  destroy := .of_factors (fun s => { s with inited := false }) fun _ => rfl
  accept rest := .of_factors (State.accept rest) fun _ => rfl
  deliver := .of_factors State.deliver fun _ => rfl

/-- R128, R135: the UI write itself. -/
theorem State.dropUi_setUi (s : State) (i : Param) (v : F32) :
    (s.setSmoother i ((s.smoother i).setUi v)).dropUi = s.dropUi := by
  rw [s.dropUi_setSmoother, Smoother.dropUi_setUi, ← s.dropUi_smoother, State.setSmoother_self]

/-- Settles O35: every operation factors through the projection, and a UI write is invisible in it. -/
theorem uiWritesAreSilent : Obligations.UiWritesAreSilent := by
  refine ⟨fun s s' t t' e ht ht' => forgets_dropUi.step_eq e ht ht', ?_⟩
  rintro s t i addr v (rfl | rfl) hinit hlegal hexec
  all_goals
    cases exec_runs hexec
    case notInited hs _ _ => simp [hs] at hinit
    case notInitedRead hr => cases hr
    case bad hbad _ => exact absurd hbad hlegal
    case badRead hbad _ => exact absurd hbad hlegal
    exact s.dropUi_setUi _ _

/-! ### The registers that no rule reads (R34, R39, R45) -/

theorem forgets_dropUnread : Forgets State.dropUnread where
  voice _ _ := rfl
  snapshot _ := rfl
  al _ := rfl
  inited _ := rfl
  attackSamples _ := rfl
  releaseSamples _ := rfl
  host _ := rfl
  events _ := rfl
  world _ := rfl
  raise _ := .of_factors id fun _ => rfl
  badRead _ := .of_factors (State.respond 0#32) fun _ => rfl
  emit e := .of_factors (State.emit e) fun _ => rfl
  emitAll l := .of_factors (fun s => { s with events := s.events ++ l }) fun _ => rfl
  setVoice n v := .of_factors (State.setVoice n v) fun _ => rfl
  activate n := .of_factors (State.activate n) fun _ => rfl
  retire n := .of_factors (State.retire n) fun _ => rfl
  allNotesOff := .of_factors State.allNotesOff fun _ => rfl
  openBlock frames offset := .of_factors (State.openBlock frames offset) fun _ => rfl
  setSmoother i x := .of_factors (State.setSmoother i x) fun _ => rfl
  startRamp i t d := .of_factors (fun s => s.setSmoother i ((s.smoother i).startRamp binary32 t d)) fun _ => rfl
  setUi i v := .of_factors (fun s => s.setSmoother i ((s.smoother i).setUi v)) fun _ => rfl
  advance i := .of_factors
    (fun s => (s.setSmoother i ((s.smoother i).advance binary32)).respond (s.smoother i).cur) fun _ => rfl
  readUi i := .of_factors (fun s => s.respond (s.smoother i).ui) fun _ => rfl
  initialise chan rate := .of_factors (fun s => (s.initialise paramDefault chan rate).dropUnread) fun _ => rfl
  softReset := .of_factors (fun s => (s.softReset paramDefault).dropUnread) fun _ => rfl
  destroy := .of_factors (fun s => { s with inited := false }) fun _ => rfl
  accept rest := .of_factors (State.accept rest) fun _ => rfl
  deliver := .of_factors State.deliver fun _ => rfl

/-- Settles O36: every operation factors through the projection. -/
theorem unreadRegisters : Obligations.UnreadRegisters :=
  fun _ _ _ _ e ht ht' => forgets_dropUnread.step_eq e ht ht'

end Sys2Proof.Machine
end

section
/-! PROOFS. The block's arithmetic (R7, R11): every operation on finite operands is the exact result rounded, `lt` is
the order of the values, and `clamp` and the parameter ranges follow (R133, R225, R6). -/

namespace Sys2Proof.F32

/-! ### The operations (R7) -/

/-- The sign of a value, as a factor. -/
def signFactor (s : Bool) : Rat := if s = true then -1 else 1

theorem signFactor_bne (s t : Bool) : signFactor (s != t) = signFactor s * signFactor t := by
  cases s <;> cases t <;> simp [signFactor]

theorem signFactor_div (s t : Bool) : signFactor s / signFactor t = signFactor s * signFactor t := by
  cases s <;> cases t <;> simp [signFactor]

theorem value_eq_signFactor (x : F32) : value x = signFactor (sign x) * ((units x : Rat) / 2 ^ 149) :=
  value_of_units x

/-- What `round` is the rounding of. -/
theorem rounded_round_of_eq {s : Bool} {p q : Nat} {x : Rat} (hq : 0 < q)
    (hx : x = signFactor s * ((p : Rat) / q / 2 ^ 149)) : Machine.Rounded (round s p q) x := by
  rw [hx]
  exact rounded_round s hq

/-- `n / q` as a number of units of 2^-149. -/
theorem scaled_div (n q : Nat) : ((n * 2 ^ 149 : Nat) : Rat) / q / 2 ^ 149 = n / q := by
  rw [Nat.cast_mul, Nat.cast_pow, Nat.cast_ofNat, div_right_comm, mul_div_cancel_right₀ _ (by positivity)]

section
variable {a b : F32} (ha : isFinite a = true) (hb : isFinite b = true)
include ha hb

theorem mul_of_finite : mul a b = round (sign a != sign b) (units a * units b) (2 ^ 149) := by
  simp [mul, isNan_of_isFinite ha, isNan_of_isFinite hb, isInf_of_isFinite ha, isInf_of_isFinite hb]

theorem div_of_finite (h0 : units b ≠ 0) :
    div a b = round (sign a != sign b) (units a * 2 ^ 149) (units b) := by
  simp [div, isNan_of_isFinite ha, isNan_of_isFinite hb, isInf_of_isFinite ha, isInf_of_isFinite hb, h0]

theorem rounded_add : Machine.Rounded (add a b) (value a + value b) := by
  rw [add, sum_of_finite _ ha hb]
  exact rounded_addFinite a b

theorem rounded_sub : Machine.Rounded (sub a b) (value a - value b) := by
  rw [sub, sum_of_finite _ ha ((isFinite_neg b).trans hb), sub_eq_add_neg, ← value_neg]
  exact rounded_addFinite a (neg b)

theorem rounded_mul : Machine.Rounded (mul a b) (value a * value b) := by
  rw [mul_of_finite ha hb]
  refine rounded_round_of_eq (by positivity) ?_
  rw [value_eq_signFactor a, value_eq_signFactor b, signFactor_bne]
  push_cast
  ring

theorem rounded_div (h0 : value b ≠ 0) : Machine.Rounded (div a b) (value a / value b) := by
  have hunits : units b ≠ 0 := fun h => h0 (by simp [value_eq_signFactor, h])
  rw [div_of_finite ha hb hunits]
  refine rounded_round_of_eq (Nat.pos_of_ne_zero hunits) ?_
  rw [scaled_div, value_eq_signFactor a, value_eq_signFactor b, signFactor_bne, mul_div_mul_comm,
    div_div_div_cancel_right₀ (by positivity), signFactor_div]

end

theorem rounded_ofNat (n : Nat) : Machine.Rounded (ofNat n) n :=
  rounded_round_of_eq Nat.one_pos (by rw [scaled_div]; simp [signFactor])

theorem rounded_lit (n : Int) {d : Nat} (hd : 0 < d) : Machine.Rounded (lit n d) (n / d) := by
  refine rounded_round_of_eq hd ?_
  rw [scaled_div, Nat.cast_natAbs]
  by_cases hn : n < 0
  · simp [signFactor, hn, abs_of_neg hn, neg_div]
  · simp [signFactor, hn, abs_of_nonneg (not_lt.1 hn)]

/-- R225: a nonzero count lies as near to its rounding as to 1, so the rounding is positive. -/
theorem ofNat_pos {n : Nat} (hpos : 0 < n) (hlt : n < 2 ^ 32) :
    isFinite (ofNat n) = true ∧ 0 < value (ofNat n) := by
  have hone : (1 : Rat) ≤ n := by exact_mod_cast hpos
  have hbound : (n : Rat) < 2 ^ 32 := by exact_mod_cast hlt
  obtain ⟨hfinite, hnearest, -⟩ := rounded_ofNat n
  have hfin : isFinite (ofNat n) = true :=
    hfinite.2 (by rw [abs_of_nonneg (by positivity)]; exact hbound.trans (by norm_num))
  refine ⟨hfin, ?_⟩
  by_contra hneg
  obtain ⟨hdist, -⟩ := hnearest hfin 0x3F800000#32 (by decide)
  have hvalue : value 0x3F800000#32 = 1 := by decide +kernel
  rw [hvalue, abs_of_nonpos (by linarith), abs_of_nonpos (by linarith)] at hdist
  linarith

end Sys2Proof.F32

namespace Sys2Proof.Machine

/-- Settles O57: on finite operands each operation is a `round` of exact integers; negation flips the sign bit. -/
theorem operationsRounded : Obligations.OperationsRounded :=
  ⟨fun a _ ha hb => ⟨F32.rounded_add ha hb, F32.rounded_sub ha hb, F32.rounded_mul ha hb, F32.rounded_div ha hb,
    (F32.isFinite_neg a).trans ha, F32.value_neg a⟩, F32.rounded_ofNat, fun n _ hd => F32.rounded_lit n hd⟩

/-- Settles O60: a count is a natural number below 2^32. -/
theorem divisorsArePositive : Obligations.DivisorsArePositive :=
  fun c hc => F32.ofNat_pos (Nat.pos_of_ne_zero fun h => hc (BitVec.eq_of_toNat_eq h)) c.isLt

/-! ### Order and clamp (R7, R11) -/

section
variable {v lo hi : F32} (hv : F32.isFinite v = true) (hlo : F32.isFinite lo = true) (hhi : F32.isFinite hi = true)
include hv hlo hhi

/-- R11 on finite values, by their order. -/
theorem clamp_of_finite : binary32.clamp v lo hi =
    if F32.value v < F32.value lo then lo else if F32.value hi < F32.value v then hi else v := by
  simp only [Num.clamp, hv, if_true, F32.lt_iff_value_lt hv hlo, F32.lt_iff_value_lt hhi hv]

theorem clamp_below (h : F32.value v < F32.value lo) : binary32.clamp v lo hi = lo := by
  rw [clamp_of_finite hv hlo hhi, if_pos h]

theorem clamp_above (hle : F32.value lo ≤ F32.value hi) (h : F32.value hi < F32.value v) :
    binary32.clamp v lo hi = hi := by
  rw [clamp_of_finite hv hlo hhi, if_neg (not_lt.2 (hle.trans h.le)), if_pos h]

theorem clamp_inside (h1 : F32.value lo ≤ F32.value v) (h2 : F32.value v ≤ F32.value hi) :
    binary32.clamp v lo hi = v := by
  rw [clamp_of_finite hv hlo hhi, if_neg (not_lt.2 h1), if_neg (not_lt.2 h2)]

end

/-- Settles O58: `lt` orders signed magnitudes as the values, and `clamp` compares by `lt`. -/
theorem orderAndClamp : Obligations.OrderAndClamp :=
  ⟨fun _ _ ha hb => F32.lt_iff_value_lt ha hb, fun _ _ _ hv hlo hhi hle =>
    ⟨clamp_below hv hlo hhi, clamp_above hv hlo hhi hle, clamp_inside hv hlo hhi⟩⟩

/-! ### The parameter ranges (R133) -/

theorem rounded_rangeLo (i : Param) : Rounded (rangeLo binary32 i) (rangeLo exactNum i) := by
  unfold rangeLo
  split <;> exact F32.rounded_lit _ (by decide)

theorem rounded_rangeHi (i : Param) : Rounded (rangeHi binary32 i) (rangeHi exactNum i) := by
  unfold rangeHi
  split <;> exact F32.rounded_lit _ (by decide)

theorem range_exact (i : Param) : (rangeLo exactNum i, rangeHi exactNum i) =
    #v[((0 : Rat), (1000 : Rat)), (0, 1000), (0, 1000), (0, 10), (0, 100), (-1000, 1000),
      (9 / 10, 111 / 100)][i.val] := by
  fin_cases i <;> simp [rangeLo, rangeHi]

theorem value_rangeLo_le (i : Param) : F32.value (rangeLo binary32 i) ≤ F32.value (rangeHi binary32 i) := by
  obtain ⟨hlo, hhi, hlt, -⟩ := range_ordered i
  rw [← not_lt, ← F32.lt_iff_value_lt hhi hlo, hlt]
  decide

/-- A value that is finite and between the bounds of its parameter (R133). -/
def InRange (i : Param) (v : F32) : Prop :=
  F32.isFinite v = true ∧ F32.value (rangeLo binary32 i) ≤ F32.value v ∧ F32.value v ≤ F32.value (rangeHi binary32 i)

/-- R134: a clamped finite value is in range. -/
theorem inRange_clampParam (i : Param) {v : F32} (hv : F32.isFinite v = true) :
    InRange i (clampParam binary32 i v) := by
  obtain ⟨hlo, hhi, -⟩ := range_ordered i
  have hle := value_rangeLo_le i
  rw [clampParam, clamp_of_finite hv hlo hhi]
  split_ifs with h1 h2
  · exact ⟨hlo, le_refl _, hle⟩
  · exact ⟨hhi, hle, le_refl _⟩
  · exact ⟨hv, not_lt.1 h1, not_lt.1 h2⟩

theorem inRange_paramDefault (i : Param) : InRange i (paramDefault i) := by
  unfold paramDefault
  split_ifs with h
  · exact inRange_clampParam i h
  · exact ⟨(range_ordered i).1, le_refl _, value_rangeLo_le i⟩

/-- Settles O26: the bounds are evaluated, as literals they are rounded, and the clamp is R11's between them. -/
theorem parameterRanges : Obligations.ParameterRanges := by
  refine ⟨range_exact, by decide +kernel, fun i => ⟨rounded_rangeLo i, rounded_rangeHi i⟩, fun i v hv => ?_⟩
  obtain ⟨hlo, hhi, -⟩ := range_ordered i
  exact ⟨clamp_below hv hlo hhi, clamp_above hv hlo hhi (value_rangeLo_le i), clamp_inside hv hlo hhi⟩

/-- Settles O27: a finite raw default is clamped, any other is replaced by the lower bound. -/
theorem defaultsInRange : Obligations.DefaultsInRange := inRange_paramDefault

end Sys2Proof.Machine
end

section
/-! PROOFS. Steps, hardware reset, and the three commands of 42_block_and_system.md sections 2 and 4. -/

namespace Sys2Proof.Machine

/-! ### Every command completes (R220, R232) -/

theorem exec_completes (i : Instr) (s : State) : ∃ t, exec i s = .next t := by
  cases i <;> exact ⟨_, rfl⟩

theorem runWord_completes (w : Command) (s : State) : ∃ t, runWord w s = .next t := by
  unfold runWord
  cases decode w with
  | instr i => exact exec_completes i s
  | reserved op => exact ⟨_, rfl⟩

/-! ### A step, by the input the host presents -/

section
variable {s t : State} {w : Command} {rest : List HostInput}

theorem step_idle (h : s.host = []) : step s = .next s := by
  rw [step, h]

theorem step_cmd (h : s.host = .cmd w :: rest) (hrun : runWord w (s.accept rest) = .next t) :
    step s = .next t.deliver := by
  rw [step, h]
  simp only [hrun]

theorem step_rst (h : s.host = .rst :: rest) : step s = .next (State.hardReset rest s.world) := by
  rw [step, h]

theorem step_rstDuring {k : Nat} (h : s.host = .rstDuring w k :: rest)
    (hrun : runWord w (s.accept rest) = .next t) :
    step s = .next (State.hardReset rest (s.world.absorbAll (t.events.take k)).abandonRun) := by
  rw [step, h]
  simp only [hrun]

theorem runWord_of_reserved {op : Byte} (h : decode w = .reserved op) (s : State) :
    runWord w s = .next (s.raise .rsvd) := by
  rw [runWord, h]

end

theorem decodeTableWord_eq_some {nbits w : Nat} {i : Instr} (h : decodeTableWord nbits w = some i) :
    decode (tableCommand nbits w) = .instr i := by
  unfold decodeTableWord at h
  split at h
  · rename_i j hdecode
    rw [hdecode, Option.some.inj h]
  · cases h

/-- Settles O8: no arm of `exec`, no word and no input has another outcome. -/
theorem everyCommandCompletes : Obligations.EveryCommandCompletes := by
  refine ⟨exec_completes, runWord_completes, fun s => ?_⟩
  cases hhost : s.host with
  | nil => exact ⟨_, step_idle hhost⟩
  | cons input rest =>
    cases input with
    | cmd w => exact (runWord_completes w (s.accept rest)).imp' State.deliver fun t hrun => step_cmd hhost hrun
    | rst => exact ⟨_, step_rst hhost⟩
    | rstDuring w k =>
      obtain ⟨t, hrun⟩ := runWord_completes w (s.accept rest)
      exact ⟨_, step_rstDuring hhost hrun⟩

/-- Settles O7: the command's word is run from the accepted state, and its events are delivered; a word placed by
`withFetchWord` is the host's next command. -/
theorem stepRunsDecodedCommand : Obligations.StepRunsDecodedCommand := by
  refine ⟨fun s t w rest i hhost hdecode hexec => step_of_instr hhost hdecode hexec,
    fun s w rest op hhost hdecode => step_cmd hhost (runWord_of_reserved hdecode _),
    fun s t nbits w i hdecode hexec => ?_, fun s => step_idle, World.absorbAll_nil, World.absorbAll_cons⟩
  exact step_of_instr (s := s.withFetchWord nbits w) rfl (decodeTableWord_eq_some hdecode) hexec

/-- Settles O9: the table of R50 entry by entry; a pulse replaces all but the host's queue and the environment. -/
theorem hardwareReset : Obligations.HardwareReset := by
  refine ⟨State.reset_voice, State.reset_smoother, State.reset_param, rfl, rfl, rfl, rfl, rfl, rfl, rfl, rfl, rfl, rfl,
    rfl, fun s rest hhost => step_rst hhost, fun s w k rest hhost => ?_⟩
  obtain ⟨t, hrun⟩ := runWord_completes w (s.accept rest)
  exact ⟨t, hrun, step_rstDuring hhost hrun⟩

/-! ### `INIT`, `RESET`, `DESTROY` -/

theorem defaultSmoothers_eq (dflt : Param → F32) :
    defaultSmoothers dflt = Vector.ofFn fun i => ⟨dflt i, dflt i, dflt i, 0#32, 0#32⟩ := by
  ext i hi
  interval_cases i <;> rfl

theorem defaultParams_eq (dflt : Param → F32) :
    (#v[dflt 0, dflt 1, dflt 2, dflt 3, dflt 4, dflt 5, dflt 6] : Vector F32 7) = Vector.ofFn dflt := by
  ext i hi
  interval_cases i <;> rfl

/-- R191: a legal rate, initialised or not. -/
theorem exec_init_of_legal {s : State} {chan : Byte} {rate : Word}
    (hrate : F32.isFinite rate = true ∧ F32.lt 0#32 rate = true) :
    exec (.init chan rate) s = .next (s.initialise paramDefault chan rate) := by
  change execInit chan rate s = _
  rw [execInit, rateOperand_eq_some.2 ⟨hrate, rfl⟩]

/-- Settles O16: the construction, written out; the two counts are those of R35 from the defaults. -/
theorem initResult : Obligations.InitResult := by
  refine fun s chan rate => ⟨fun hrate => ?_, fun hbad => exec_init_outOfRange hbad⟩
  rw [exec_init_of_legal hrate, ← defaultSmoothers_eq, ← defaultParams_eq]
  rfl

/-- Settles O17: the body of `RESET`, written out, behind the first check. -/
theorem resetResult : Obligations.ResetResult := by
  refine fun s => ⟨fun hinit => ?_, fun hinit => congrArg Host.Outcome.next (State.whenInited_neg hinit _)⟩
  rw [← defaultSmoothers_eq]
  exact congrArg Host.Outcome.next (State.whenInited_pos hinit _)

/-- Settles O18: `DESTROY` behind the first check. -/
theorem destroyResult : Obligations.DestroyResult :=
  fun _ => ⟨fun hinit => congrArg Host.Outcome.next (State.whenInited_pos hinit _),
    fun hinit => congrArg Host.Outcome.next (State.whenInited_neg hinit _)⟩

end Sys2Proof.Machine
end

section
/-! PROOFS. Who writes what (R26, R31 to R40): each register's writers, instruction by instruction, from the one account
`Runs` gives of every command. -/

namespace Sys2Proof.Machine

section
variable {s t : State} {i : Instr}

/-! ### The bank registers (R32 to R40) -/

/-- R33, R34. -/
theorem Runs.sampleRate_chanCount (h : Runs s i t) :
    (t.sampleRate = s.sampleRate ∧ t.chanCount = s.chanCount) ∨ ∃ chan rate, i = .init chan rate := by
  cases h
  case init chan rate _ => exact .inr ⟨chan, rate, rfl⟩
  case process => simp
  case trigger | noteOn | midiOn => simp
  all_goals exact .inl ⟨rfl, rfl⟩

/-- R35, R36. -/
theorem Runs.gp_counts (h : Runs s i t) :
    (t.gp = s.gp ∧ t.attackSamples = s.attackSamples ∧ t.releaseSamples = s.releaseSamples) ∨
      (∃ chan rate, i = .init chan rate) ∨ ∃ frames offset, i = .process frames offset := by
  cases h
  case init chan rate _ => exact .inr (.inl ⟨chan, rate, rfl⟩)
  case process _ frames offset _ => exact .inr (.inr ⟨frames, offset, rfl⟩)
  case trigger | noteOn | midiOn => simp
  all_goals exact .inl ⟨rfl, rfl, rfl⟩

/-- R32. -/
theorem Runs.inited_cases (h : Runs s i t) :
    t.inited = s.inited ∨ (t.inited = true ∧ ∃ chan rate, i = .init chan rate) ∨
      (t.inited = false ∧ i = .destroy) := by
  cases h
  case init chan rate _ => exact .inr (.inl ⟨rfl, chan, rate, rfl⟩)
  case destroy => exact .inr (.inr ⟨rfl, rfl⟩)
  case process => simp
  case trigger | noteOn | midiOn => simp
  all_goals exact .inl rfl

/-- R39. -/
theorem Runs.freshReset_cases (h : Runs s i t) :
    t.freshReset = s.freshReset ∨
      (t.freshReset = true ∧ ((∃ chan rate, i = .init chan rate) ∨ i = .reset)) ∨
      (t.freshReset = false ∧ ∃ frames offset, i = .process frames offset) := by
  cases h
  case init chan rate _ => exact .inr (.inl ⟨rfl, .inl ⟨chan, rate, rfl⟩⟩)
  case reset => exact .inr (.inl ⟨rfl, .inr rfl⟩)
  case process _ frames offset _ => exact .inr (.inr ⟨State.processBlock_freshReset .., frames, offset, rfl⟩)
  case trigger | noteOn | midiOn => simp
  all_goals exact .inl rfl

/-- R37, R38: a trigger that finds its voice sounding, or is a release, leaves the active list. -/
theorem State.triggerNote_al_cases (n : Note) (vel : Velocity) (s : State) :
    ((s.triggerNote n vel).al = s.al ∧ (s.triggerNote n vel).activeCount = s.activeCount) ∨
      (vel ≠ 0#7 ∧ (s.voice n).stage = .off ∧ (s.triggerNote n vel).al = n :: s.al ∧
        (s.triggerNote n vel).activeCount = s.activeCount + 1#8) := by
  obtain ⟨-, h⟩ | ⟨hvel, hoff, h⟩ | ⟨-, -, h⟩ := triggerNote_cases n vel s <;> rw [h]
  · exact .inl ⟨rfl, rfl⟩
  · exact .inr ⟨hvel, hoff, rfl, rfl⟩
  · exact .inl ⟨rfl, rfl⟩

/-- R37, R38. -/
theorem Runs.al_cases (h : Runs s i t) :
    (t.al = s.al ∧ t.activeCount = s.activeCount) ∨
      (∃ n vel, isTriggerOf n vel i ∧ (s.voice n).stage = .off ∧ t.al = n :: s.al ∧
        t.activeCount = s.activeCount + 1#8) ∨
      (∃ frames offset, i = .process frames offset) ∨
      (isSilencing i ∧ t.al = [] ∧ t.activeCount = 0#8) := by
  have activates : ∀ {n : Note} {vel : Velocity}, (vel ≠ 0#7 → isTriggerOf n vel i) →
      ((s.triggerNote n vel).al = s.al ∧ (s.triggerNote n vel).activeCount = s.activeCount) ∨
        (∃ n' vel', isTriggerOf n' vel' i ∧ (s.voice n').stage = .off ∧ (s.triggerNote n vel).al = n' :: s.al ∧
          (s.triggerNote n vel).activeCount = s.activeCount + 1#8) ∨
        (∃ frames offset, i = .process frames offset) ∨
        (isSilencing i ∧ (s.triggerNote n vel).al = [] ∧ (s.triggerNote n vel).activeCount = 0#8) := by
    intro n vel hform
    exact (s.triggerNote_al_cases n vel).imp_right fun ⟨hvel, hoff⟩ => .inl ⟨n, vel, hform hvel, hoff⟩
  cases h
  case trigger => exact activates fun hvel => ⟨hvel, .inl rfl⟩
  case noteOn _ chan n vel => exact activates fun hvel => ⟨hvel, .inr (.inl ⟨chan, rfl⟩)⟩
  case midiOn _ chan n vel => exact activates fun hvel => ⟨hvel, .inr (.inr ⟨chan, rfl⟩)⟩
  case process _ frames offset _ => exact .inr (.inr (.inl ⟨frames, offset, rfl⟩))
  case alloff => exact .inr (.inr (.inr ⟨.inl rfl, rfl, rfl⟩))
  case ccAlloff _ chan x => exact .inr (.inr (.inr ⟨.inr (.inl ⟨chan, x, rfl⟩), rfl, rfl⟩))
  case midiCc _ chan x => exact .inr (.inr (.inr ⟨.inr (.inr (.inl ⟨chan, x, rfl⟩)), rfl, rfl⟩))
  case reset => exact .inr (.inr (.inr ⟨.inr (.inr (.inr (.inl rfl))), rfl, rfl⟩))
  case init chan rate _ => exact .inr (.inr (.inr ⟨.inr (.inr (.inr (.inr ⟨chan, rate, rfl⟩))), rfl, rfl⟩))
  all_goals exact .inl ⟨rfl, rfl⟩

/-- R40, with the cause of each flag (R221, R222, R224). -/
theorem Runs.flags_cases (h : Runs s i t) :
    t.flags = s.flags ∨ (t.flags = s.flags ||| 0b0001#4 ∧ outOfRange i) ∨
      (t.flags = s.flags ||| 0b0010#4 ∧ s.inited = false ∧ ∀ chan rate, i ≠ .init chan rate) ∨
      (t.flags = s.flags ||| 0b0100#4 ∧ ∃ frames offset, i = .process frames offset) := by
  cases h
  case bad _ hbad _ => exact .inr (.inl ⟨rfl, hbad⟩)
  case badRead _ hbad _ => exact .inr (.inl ⟨rfl, hbad⟩)
  case notInited hinit hne _ => exact .inr (.inr (.inl ⟨rfl, hinit, hne⟩))
  case notInitedRead hinit hread =>
    exact .inr (.inr (.inl ⟨rfl, hinit, fun chan rate hi => by rw [hi] at hread; cases hread⟩))
  case process _ frames offset _ =>
    exact (State.processBlock_flags_cases frames offset s).imp_right fun h => .inr (.inr ⟨h, frames, offset, rfl⟩)
  case trigger | noteOn | midiOn => exact .inl (State.triggerNote_flags ..)
  all_goals exact .inl rfl

/-- Log 1, log 18. -/
theorem Runs.host_world (h : Runs s i t) : t.host = s.host ∧ t.world = s.world := by
  cases h
  case process => simp
  case trigger | noteOn | midiOn => simp
  all_goals exact ⟨rfl, rfl⟩

/-- Settles O19: the writers of each register are those its own account names. -/
theorem bankRegisterWriters : Obligations.BankRegisterWriters := by
  intro i s t hexec
  have h := exec_runs hexec
  refine ⟨fun hne => h.sampleRate_chanCount.resolve_left ?_, fun hne => h.gp_counts.resolve_left ?_,
    h.inited_cases.resolve_left, h.freshReset_cases.resolve_left, fun hne => h.al_cases.resolve_left ?_,
    h.flags_cases.resolve_left, h.host_world⟩
  all_goals tauto

/-! ### The register files (R26, R31) -/

/-- The state after a command that addresses a smoother: that smoother, the flags and the response. -/
def OneSmootherWritten (addr : Byte) (s t : State) : Prop :=
  t = { s with sm := t.sm, flags := t.flags, rsp := t.rsp } ∧
    ∀ j : Param, j.val ≠ addr.toNat → t.smoother j = s.smoother j

theorem oneSmootherWritten_setSmoother {addr : Byte} {j : Param} (haddr : addr.toNat = j.val) (x : Smoother F32)
    (s : State) : OneSmootherWritten addr s (s.setSmoother j x) := by
  refine ⟨rfl, fun k hk => ?_⟩
  rw [State.setSmoother_smoother, if_neg]
  rintro rfl
  exact hk haddr.symm

theorem OneSmootherWritten.respond {addr : Byte} (h : OneSmootherWritten addr s t) (v : F32) :
    OneSmootherWritten addr s (t.respond v) :=
  ⟨congrArg (State.respond v) h.1, h.2⟩

theorem Runs.oneSmootherWritten (h : Runs s i t) {addr : Byte} (haddr : smootherAddress i = some addr) :
    OneSmootherWritten addr s t := by
  cases h
  case smSetimm ha _ | smRamp ha _ | smSetui ha _ | pSetimm ha _ | pSet ha _ | pRamp ha _ =>
    obtain rfl := Option.some.inj haddr
    exact oneSmootherWritten_setSmoother ha _ s
  case smStep ha =>
    obtain rfl := Option.some.inj haddr
    exact (oneSmootherWritten_setSmoother ha _ s).respond _
  case notInited | notInitedRead | bad | badRead | smGetui | pGet => exact ⟨rfl, fun _ _ => rfl⟩
  all_goals cases haddr

theorem isRead_of_isNoteCommand (h : isNoteCommand i = true) : isRead i = false := by
  cases i <;> first | rfl | cases h

theorem Runs.noteFrame (h : Runs s i t) (hnote : isNoteCommand i = true) :
    t = { s with env := t.env, al := t.al, activeCount := t.activeCount, flags := t.flags, events := t.events } := by
  cases h
  case trigger | noteOn | midiOn =>
    rw [State.triggerNote_frame]
  case notInited | bad | release | noteOff | midiOff | alloff | ccAlloff | midiCc | midiIdle => rfl
  case notInitedRead hread | badRead hread => simp [isRead_of_isNoteCommand hnote] at hread
  all_goals cases hnote

theorem State.triggerNote_voice_other {n m : Note} (hm : m ≠ n) (vel : Velocity) (s : State) :
    (s.triggerNote n vel).voice m = s.voice m := by
  by_cases hvel : vel = 0#7
  · rw [hvel, triggerNote_zero, releaseNote_voice, if_neg hm]
  · rw [triggerNote_voice n vel s hvel, if_neg hm]

/-- A note is told apart by the operand that names it. -/
theorem ne_of_toNat_ne_setWidth {m n : Note} (h : m.toNat ≠ (n.setWidth 8 : Byte).toNat) : m ≠ n := by
  rintro rfl
  have := m.toNat_lt
  exact h (by rw [BitVec.toNat_setWidth, Nat.mod_eq_of_lt (by omega)])

theorem Runs.voice_other (h : Runs s i t) {note vel : Byte} (hi : i = .trigger note vel ∨ i = .release note) {m : Note}
    (hm : m.toNat ≠ note.toNat) : t.voice m = s.voice m := by
  cases h
  case trigger _ n vel' =>
    obtain ⟨rfl, -⟩ := Instr.trigger.inj (hi.resolve_right nofun)
    exact State.triggerNote_voice_other (ne_of_toNat_ne_setWidth hm) vel' s
  case release _ n =>
    obtain rfl := Instr.release.inj (hi.resolve_left nofun)
    rw [State.releaseNote_voice, if_neg (ne_of_toNat_ne_setWidth hm)]
  case notInited | notInitedRead | bad | badRead => rfl
  all_goals simp at hi

/-- Settles O20: each family's frame, and the one voice a trigger or a release names. -/
theorem registerFileWriters : Obligations.RegisterFileWriters :=
  fun _ _ _ hexec => ⟨fun _ => (exec_runs hexec).oneSmootherWritten, (exec_runs hexec).noteFrame,
    fun _ _ hi _ => (exec_runs hexec).voice_other hi⟩

end

end Sys2Proof.Machine
end

section
/-! PROOFS. The smoother file (R30, R126, R138): what a command does to one smoother, said once; the calls of one ramp;
and the exact ramp between two values. -/

namespace Sys2Proof.Machine

/-! ### The calls of one ramp (R126) -/

namespace Smoother

section
variable {R : Type} (N : Num R) (m : Smoother R) (t : R) {d : Count} (hd : d ≠ 0#32)
include hd

/-- R126 (c): after `j` of the `d` steps the value is the start with the step added `j` times; then it is the target. -/
theorem advance_iterate_startRamp (j : Nat) : ((Smoother.advance N)^[j] (m.startRamp N t d)).cur =
    if j < d.toNat then (fun x => N.add x (N.div (N.sub t m.cur) (N.ofNat d.toNat)))^[j] m.cur else t := by
  rw [startRamp_of_ne N hd]
  split_ifs with hj
  · rw [advance_iterate N _ hj]
  · rw [advance_iterate_done N hd (not_lt.1 hj)]

end

theorem iterate_add (step x : Rat) (j : Nat) : (fun x => exactNum.add x step)^[j] x = x + j * step := by
  induction j with
  | zero => simp
  | succ j ih =>
    rw [Function.iterate_succ_apply', ih]
    push_cast
    ring

/-- R126 (d): under exact arithmetic the value after `j` steps lies on the line from the start to the target. -/
theorem exact_call (m : Smoother Rat) (t : Rat) {d : Count} (hd : d ≠ 0#32) (j : Nat) :
    ((Smoother.advance exactNum)^[j] (m.startRamp exactNum t d)).cur =
      m.cur + (min j d.toNat : Nat) * ((t - m.cur) / d.toNat) := by
  have hpos : (0 : Rat) < d.toNat := by exact_mod_cast Voice.ramp_pos (v := ⟨.off, m.cur, m.cur, d⟩) hd
  rw [advance_iterate_startRamp exactNum m t hd]
  split_ifs with hj
  · rw [iterate_add, Nat.min_eq_left hj.le]
  · rw [Nat.min_eq_right (not_lt.1 hj), mul_div_cancel₀ _ hpos.ne']
    ring

end Smoother

/-- A fraction of a nonnegative distance. -/
theorem fraction_le {x : Rat} (hx : 0 ≤ x) {k d : Nat} (hk : k ≤ d) : (k : Rat) * (x / d) ≤ x := by
  rcases Nat.eq_zero_or_pos d with rfl | hd
  · obtain rfl : k = 0 := by omega
    simpa using hx
  · have hd' : (0 : Rat) < d := by exact_mod_cast hd
    have hk' : (k : Rat) ≤ d := by exact_mod_cast hk
    rw [← mul_div_assoc, div_le_iff₀ hd', mul_comm x]
    exact mul_le_mul_of_nonneg_right hk' hx

/-- Settles O32: the cases of an advance, their iteration, and a line under exact arithmetic. -/
theorem rampCalls : Obligations.RampCalls := by
  refine ⟨fun R N m h => Smoother.advance_idle N h, fun R N m h => by rw [Smoother.advance_last N h],
    fun R N m t d j hd => Smoother.advance_iterate_startRamp N m t hd j, fun m t d j hj => ?value,
    fun m t d j hd => ?monotone⟩
  case value =>
    have hd : d ≠ 0#32 := fun h => by simp [h] at hj
    rw [Smoother.exact_call m t hd, Nat.min_eq_left hj.le]
  case monotone =>
    intro call
    have hcall (k : Nat) : call k = m.cur + (min k d.toNat : Nat) * ((t - m.cur) / d.toNat) :=
      Smoother.exact_call m t hd k
    have hnext : ((min j d.toNat : Nat) : Rat) ≤ (min (j + 1) d.toNat : Nat) := by
      exact_mod_cast min_le_min_right _ (Nat.le_succ j)
    rw [hcall, hcall]
    refine ⟨fun hle => ?_, fun hle => ?_⟩
    · have hslope : 0 ≤ (t - m.cur) / (d.toNat : Rat) := div_nonneg (by linarith) (by positivity)
      have hstep := mul_le_mul_of_nonneg_right hnext hslope
      have hstart := mul_nonneg (Nat.cast_nonneg (α := Rat) (min j d.toNat)) hslope
      have hend := fraction_le (sub_nonneg.2 hle) (Nat.min_le_right j d.toNat)
      exact ⟨by linarith, by linarith, by linarith⟩
    · have hslope : (t - m.cur) / (d.toNat : Rat) = -((m.cur - t) / d.toNat) := by rw [← neg_div, neg_sub]
      have hslope' : 0 ≤ (m.cur - t) / (d.toNat : Rat) := div_nonneg (by linarith) (by positivity)
      have hstep := mul_le_mul_of_nonneg_right hnext hslope'
      have hstart := mul_nonneg (Nat.cast_nonneg (α := Rat) (min j d.toNat)) hslope'
      have hend := fraction_le (sub_nonneg.2 hle) (Nat.min_le_right j d.toNat)
      rw [hslope, mul_neg, mul_neg]
      exact ⟨by linarith, by linarith, by linarith⟩

/-! ### What a command does to one smoother -/

/-- The command is `SM_SETIMM` or `SM_RAMP` to parameter `j`: the two that take a target as it comes. -/
def SetsUnclamped (j : Param) (i : Instr) : Prop :=
  (∃ addr v, i = .smSetimm addr v ∧ addr.toNat = j.val) ∨ ∃ addr v dur, i = .smRamp addr v dur ∧ addr.toNat = j.val

/-- Everything an instruction can do to smoother `j`. -/
inductive SmootherChange (j : Param) (i : Instr) (m : Smoother F32) : Smoother F32 → Prop
  | same : SmootherChange j i m m
  | advance : SmootherChange j i m (m.advance binary32)
  | setUi (addr : Byte) (v : Word) (hi : i = .smSetui addr v ∨ i = .pSet addr v) (ha : addr.toNat = j.val) (x : F32) :
      SmootherChange j i m (m.setUi x)
  | setImm (x : F32) (hx : InRange j x ∨ SetsUnclamped j i) : SmootherChange j i m (Smoother.setImm binary32 x)
  | ramp (x : F32) (d : Count) (hx : InRange j x ∨ SetsUnclamped j i) :
      SmootherChange j i m (m.startRamp binary32 x d)

/-- A write to smoother `k` is a change of smoother `j`, or leaves it alone. -/
theorem SmootherChange.of_setSmoother {j k : Param} {i : Instr} {s : State} {x : Smoother F32}
    (h : j = k → SmootherChange j i (s.smoother j) x) :
    SmootherChange j i (s.smoother j) ((s.setSmoother k x).smoother j) := by
  rw [State.setSmoother_smoother]
  split_ifs with hj
  · exact h hj
  · exact .same

theorem Runs.smootherChange {s t : State} {i : Instr} (h : Runs s i t) (j : Param) :
    SmootherChange j i (s.smoother j) (t.smoother j) := by
  cases h
  case init =>
    rw [State.initialise_smoother]
    exact .setImm _ (.inl (inRange_paramDefault j))
  case reset =>
    rw [State.softReset_smoother]
    exact .setImm _ (.inl (inRange_paramDefault j))
  case process =>
    rw [State.processBlock_smoother]
    exact .advance
  case smSetimm addr v k ha hv =>
    exact .of_setSmoother fun hj => .setImm v (.inr (.inl ⟨addr, v, rfl, hj ▸ ha⟩))
  case smRamp addr v dur k ha hv =>
    exact .of_setSmoother fun hj => hj ▸ .ramp v dur (.inr (.inr ⟨addr, v, dur, rfl, hj ▸ ha⟩))
  case pSetimm v k ha hv =>
    exact .of_setSmoother fun hj => hj ▸ .setImm _ (.inl (inRange_clampParam _ hv))
  case pRamp v dur k ha hv =>
    exact .of_setSmoother fun hj => hj ▸ .ramp _ dur (.inl (inRange_clampParam _ hv))
  case smSetui addr v k ha hv =>
    exact .of_setSmoother fun hj => hj ▸ .setUi addr v (.inl rfl) (hj ▸ ha) v
  case pSet addr v k ha hv =>
    exact .of_setSmoother fun hj => hj ▸ .setUi addr v (.inr rfl) (hj ▸ ha) _
  case smStep =>
    exact .of_setSmoother fun hj => hj ▸ .advance
  case trigger | noteOn | midiOn =>
    rw [State.triggerNote_frame]
    exact .same
  all_goals exact .same

/-- S1 of R30 survives every change. -/
theorem SmootherChange.pinned {j : Param} {i : Instr} {m m' : Smoother F32} (h : SmootherChange j i m m')
    (hm : m.Pinned binary32) : m'.Pinned binary32 := by
  cases h with
  | same => exact hm
  | advance => exact Smoother.pinned_advance binary32 hm
  | setUi _ _ _ _ x => exact Smoother.pinned_setUi binary32 hm x
  | setImm x => exact Smoother.pinned_setImm binary32 x
  | ramp x d => exact Smoother.pinned_startRamp binary32 x d m

/-- S2 of R30 survives every change but a UI write. -/
theorem SmootherChange.ui_eq_tgt {j : Param} {i : Instr} {m m' : Smoother F32} (h : SmootherChange j i m m')
    (hm : m.ui = m.tgt) (hne : ∀ addr v, (i = .smSetui addr v ∨ i = .pSet addr v) → addr.toNat ≠ j.val) :
    m'.ui = m'.tgt := by
  cases h with
  | same => exact hm
  | advance => simpa using hm
  | setUi addr v hi ha => exact absurd ha (hne addr v hi)
  | setImm => rfl
  | ramp => simp

/-- R138: a target in range stays there unless it is set unclamped. -/
theorem SmootherChange.inRange_tgt {j : Param} {i : Instr} {m m' : Smoother F32} (h : SmootherChange j i m m')
    (hm : InRange j m.tgt) (hne : ¬SetsUnclamped j i) : InRange j m'.tgt := by
  cases h with
  | same | setUi => exact hm
  | advance => simpa using hm
  | setImm x hx => exact hx.resolve_right hne
  | ramp x d hx => simpa using hx.resolve_right hne

/-- A legal write of the family to parameter `j`, read back. -/
theorem smoother_of_addressedWrite {instr : Instr} {s t : State} {addr : Byte} {v : Word} {j : Param}
    {f : Param → F32 → Smoother F32} (hexec : exec instr s = .next t)
    (hwrite : exec instr s = .next (s.addressedWrite addr v fun i x => s.setSmoother i (f i x)))
    (ha : addr.toNat = j.val) (hv : F32.isFinite v = true) (hinit : s.inited = true) : t.smoother j = f j v := by
  obtain ⟨hlegal, -⟩ := exec_addressedWrite hwrite
  rw [hlegal j hinit ha hv] at hexec
  cases hexec
  exact State.setSmoother_smoother_same j _ s

/-- R201: an accepted `RESET`, read back. -/
theorem smoother_of_reset {s t : State} (hexec : exec .reset s = .next t) (hinit : s.inited = true) (j : Param) :
    t.smoother j = Smoother.setImm binary32 (paramDefault j) := by
  have hreset : exec .reset s = .next (s.softReset paramDefault) :=
    congrArg Host.Outcome.next (State.whenInited_pos hinit _)
  rw [hreset] at hexec
  cases hexec
  exact State.softReset_smoother paramDefault s j

/-- R191, R192: an accepted `INIT`, read back. -/
theorem smoother_of_init {s t : State} {chan : Byte} {rate : Word} (hexec : exec (.init chan rate) s = .next t)
    (hlegal : ¬outOfRange (.init chan rate)) (j : Param) :
    t.smoother j = Smoother.setImm binary32 (paramDefault j) := by
  rw [exec_init_of_legal (not_not.1 hlegal)] at hexec
  cases hexec
  exact State.initialise_smoother paramDefault s chan rate j

/-- Settles O33: each change of a smoother keeps S1 and, but for a UI write, S2; the four setters, `RESET` and `INIT`
make S2 true. -/
theorem smootherInvariants : Obligations.SmootherInvariants := by
  refine ⟨fun j => ?_, fun i s t hexec => ⟨fun j => ?_, fun j => ?_, ?setters, ?reset, ?init⟩⟩
  · rw [State.reset_smoother]
    exact ⟨rfl, rfl, rfl⟩
  · exact ((exec_runs hexec).smootherChange j).pinned
  · exact ((exec_runs hexec).smootherChange j).ui_eq_tgt
  case setters =>
    rintro j addr v dur (rfl | rfl | rfl | rfl) ha hv hinit
    · rw [smoother_of_addressedWrite hexec (exec_smSetimm s addr v) ha hv hinit]; simp
    · rw [smoother_of_addressedWrite hexec (exec_smRamp s addr v dur) ha hv hinit]; simp
    · rw [smoother_of_addressedWrite hexec (exec_pSetimm s addr v) ha hv hinit]; simp
    · rw [smoother_of_addressedWrite hexec (exec_pRamp s addr v dur) ha hv hinit]; simp
  case reset =>
    rintro j rfl hinit
    rw [smoother_of_reset hexec hinit]; simp
  case init =>
    rintro j chan rate rfl hlegal
    rw [smoother_of_init hexec hlegal]; simp

/-! ### The surface under exact arithmetic (R138) -/

theorem rangeLo_le_rangeHi (i : Param) : rangeLo exactNum i ≤ rangeHi exactNum i := by
  have h := range_exact i
  fin_cases i <;> simp_all; norm_num

theorem clampParam_exact_mem (i : Param) (v : Rat) :
    clampParam exactNum i v ∈ Set.Icc (rangeLo exactNum i) (rangeHi exactNum i) := by
  have hle := rangeLo_le_rangeHi i
  rw [clampParam, exactNum_clamp hle]
  exact ⟨le_max_left _ _, max_le hle (min_le_right _ _)⟩

/-- Value and target lie between the bounds, and a ramp in flight reaches its target with its last step. -/
structure Smoother.OnCourse (lo hi : Rat) (m : Smoother Rat) : Prop where
  tgt_mem : m.tgt ∈ Set.Icc lo hi
  cur_mem : m.cur ∈ Set.Icc lo hi
  arrives : m.rem ≠ 0#32 → m.cur + m.rem.toNat * m.step = m.tgt

section
variable {lo hi : Rat}

theorem onCourse_setImm {v : Rat} (hv : v ∈ Set.Icc lo hi) : Smoother.OnCourse lo hi (Smoother.setImm exactNum v) :=
  ⟨hv, hv, fun h => absurd rfl h⟩

theorem Smoother.OnCourse.startRamp {m : Smoother Rat} (h : Smoother.OnCourse lo hi m) {t : Rat}
    (ht : t ∈ Set.Icc lo hi) (d : Count) : Smoother.OnCourse lo hi (m.startRamp exactNum t d) := by
  by_cases hd : d = 0#32
  · rw [hd, Smoother.startRamp_zero]
    exact onCourse_setImm ht
  · rw [Smoother.startRamp_of_ne exactNum hd]
    refine ⟨ht, h.cur_mem, fun _ => ?_⟩
    have hpos : (d.toNat : Rat) ≠ 0 := by simpa [← Voice.ramp_eq_zero_iff] using hd
    simp only [mul_div_cancel₀ _ hpos]
    ring

/-- The first of `k + 1` equal steps between two points of an interval stays in it. -/
theorem first_step_mem {cur tgt step k : Rat} (hk : 0 ≤ k) (hcur : cur ∈ Set.Icc lo hi) (htgt : tgt ∈ Set.Icc lo hi)
    (hcourse : cur + (k + 1) * step = tgt) : cur + step ∈ Set.Icc lo hi := by
  obtain ⟨hlo, hhi⟩ := hcur
  obtain ⟨htlo, hthi⟩ := htgt
  exact ⟨by nlinarith, by nlinarith⟩

/-- A step on a course of at least two goes a fraction of the way, so it stays between the bounds. -/
theorem Smoother.OnCourse.advance {m : Smoother Rat} (h : Smoother.OnCourse lo hi m) :
    Smoother.OnCourse lo hi (m.advance exactNum) := by
  by_cases h0 : m.rem = 0#32
  · rw [Smoother.advance_idle exactNum h0]
    exact h
  by_cases h1 : m.rem = 1#32
  · rw [Smoother.advance_last exactNum h1]
    exact ⟨h.tgt_mem, h.tgt_mem, fun h => absurd rfl h⟩
  rw [Smoother.advance_more exactNum h0 h1]
  have hrem : (m.rem - 1#32).toNat + 1 = m.rem.toNat := by bv_omega
  have hcourse : m.cur + ((m.rem - 1#32).toNat + 1) * m.step = m.tgt := by
    rw [← h.arrives h0, ← hrem]
    push_cast
    ring
  refine ⟨h.tgt_mem, first_step_mem (Nat.cast_nonneg _) h.cur_mem h.tgt_mem hcourse, fun _ => ?_⟩
  rw [← hcourse]
  ring

end

theorem onCourse_apply (i : Param) {m : Smoother Rat}
    (h : Smoother.OnCourse (rangeLo exactNum i) (rangeHi exactNum i) m) (op : SurfaceOp Rat) :
    Smoother.OnCourse (rangeLo exactNum i) (rangeHi exactNum i) (op.apply exactNum i m) := by
  cases op with
  | setImm v => exact onCourse_setImm (clampParam_exact_mem i v)
  | setUi v => exact ⟨h.tgt_mem, h.cur_mem, h.arrives⟩
  | ramp v d => exact h.startRamp (clampParam_exact_mem i v) d
  | step => exact h.advance

/-- Settles O34: a target is set clamped or to a default; and under exact arithmetic a value stays on its course. -/
theorem surfaceStaysInRange : Obligations.SurfaceStaysInRange := by
  refine ⟨fun i s t j hexec hsetimm hramp hs => ?kept, fun i s t j hexec hi => ?made, fun i dflt ops hlo hhi => ?exact⟩
  case kept =>
    refine ((exec_runs hexec).smootherChange j).inRange_tgt hs ?_
    rintro (⟨addr, v, hi, ha⟩ | ⟨addr, v, dur, hi, ha⟩)
    · exact hsetimm addr v hi ha
    · exact hramp addr v dur hi ha
  case made =>
    obtain ⟨⟨chan, rate, rfl⟩, hlegal⟩ | ⟨rfl, hinit⟩ := hi
    · rw [smoother_of_init hexec hlegal]
      exact inRange_paramDefault j
    · rw [smoother_of_reset hexec hinit]
      exact inRange_paramDefault j
  case exact =>
    intro m
    have hm : Smoother.OnCourse (rangeLo exactNum i) (rangeHi exactNum i) m :=
      List.foldlRecOn ops _ (onCourse_setImm ⟨hlo, hhi⟩) fun m hm op _ => onCourse_apply i hm op
    exact ⟨hm.tgt_mem, hm.cur_mem⟩

end Sys2Proof.Machine
end

section
/-! PROOFS. `VoiceRun` over any binding (R164, R169, R171, R175): its bounds, how it splits, exact trajectories. -/

namespace Sys2Proof.F32

/-- Adding +0 to a finite value other than -0 gives it back. -/
theorem add_zero_of_finite {x : F32} (hfin : isFinite x = true) (hne : x ≠ 0x80000000#32) :
    add x 0#32 = x := by
  have hexact : exact 0#32 = 0 := rfl
  have hmag := (isFinite_iff x).1 hfin
  rw [add, sum_of_finite _ hfin (by decide), addFinite, hexact, add_zero]
  have hx := ofBits_sign_mag x
  split_ifs with h0
  · have hunits : mag x = 0 := by
      have : units x = 0 := by
        unfold exact at h0
        split_ifs at h0 <;> omega
      exact unitsOfMag_strictMono.injective (this.trans rfl)
    rw [hunits] at hx
    cases hs : sign x with
    | true => rw [hs] at hx; exact absurd hx.symm hne
    | false => rw [hs] at hx; exact hx
  · have habs : (exact x).natAbs = units x := by
      unfold exact
      split_ifs <;> simp
    have hsign : decide (exact x < 0) = sign x := by
      unfold exact at h0 ⊢
      cases sign x <;> simp_all; omega
    rw [habs, hsign, round, units, roundUnits_of_holds (holds_unitsOfMag _),
      packMag_unitsOfMag hmag, hx]

end Sys2Proof.F32

namespace Sys2Proof.Machine.Voice

section
variable {R : Type} (N : Num R) (sw : Switches)

/-! ### Two passes, at most `cnt` gains, a countdown that falls (R171) -/

/-- More passes than two change nothing: a pass that does not end the run is followed by one in Sustain, or by none. -/
theorem loop_eq_run (passes cnt : Nat) (v : Voice R) : loop N sw (passes + 2) cnt [] v = v.run N sw cnt := by
  unfold run
  by_cases hc : cnt = 0
  · rw [hc, loop_done, loop_done]
  cases hs : v.stage with
  | off => rw [loop_off N sw (passes + 1) [] hs hc, loop_off N sw 1 [] hs hc]
  | sustain => rw [loop_sustain N sw (passes + 1) [] hs, loop_sustain N sw 1 [] hs]
  | attack =>
    by_cases h0 : v.ramp = 0#32
    · rw [loop_attack_pending N sw passes [] hs h0 hc, loop_attack_pending N sw 0 [] hs h0 hc]
    by_cases hlt : cnt < v.ramp.toNat
    · rw [loop_ramp_long N sw (passes + 1) [] (.inl hs) hlt, loop_ramp_long N sw 1 [] (.inl hs) hlt]
    · rw [loop_attack_short N sw passes [] hs h0 (not_lt.1 hlt), loop_attack_short N sw 0 [] hs h0 (not_lt.1 hlt)]
  | release =>
    by_cases h0 : v.ramp = 0#32
    · rw [loop_release_pending N sw (passes + 1) [] hs h0 hc, loop_release_pending N sw 1 [] hs h0 hc]
    by_cases hlt : cnt < v.ramp.toNat
    · rw [loop_ramp_long N sw (passes + 1) [] (.inr hs) hlt, loop_ramp_long N sw 1 [] (.inr hs) hlt]
    · rw [loop_release_short N sw (passes + 1) [] hs h0 (not_lt.1 hlt),
        loop_release_short N sw 1 [] hs h0 (not_lt.1 hlt)]

theorem run_gains_length_le (cnt : Nat) (v : Voice R) : (v.run N sw cnt).gains.length ≤ cnt := by
  obtain ⟨-, hr⟩ | ⟨-, -, hr⟩ | ⟨-, hr⟩ | ⟨-, -, hr⟩ | ⟨-, -, -, hr⟩ | ⟨-, -, hle, hr⟩ | ⟨-, -, -, hr⟩ |
    ⟨-, -, hle, hr⟩ := run_cases N sw cnt v <;> rw [hr] <;>
    simp only [List.length_nil, List.length_append, gainsOf_length] <;> omega

theorem run_ramp_le (cnt : Nat) (v : Voice R) : (v.run N sw cnt).voice.ramp.toNat ≤ v.ramp.toNat := by
  obtain ⟨-, hr⟩ | ⟨-, -, hr⟩ | ⟨-, hr⟩ | ⟨-, -, hr⟩ | ⟨-, -, -, hr⟩ | ⟨-, -, -, hr⟩ | ⟨-, -, -, hr⟩ | ⟨-, -, -, hr⟩ :=
    run_cases N sw cnt v <;> rw [hr]
  case inr.inr.inr.inl => exact (consume_ramp_toNat N sw cnt v).trans_le (Nat.sub_le _ _)
  all_goals simp [goOff]

/-! ### Splitting a run (R164) -/

/-- The clauses of `SplitBlock`: the run of `a + b` frames from its two parts. -/
def Splits (a b : Nat) (v : Voice R) : Prop :=
  ((v.run N sw a).ended = true → v.run N sw (a + b) = v.run N sw a) ∧
    ((v.run N sw a).ended = false → v.run N sw (a + b) =
      ⟨(v.run N sw a).gains ++ ((v.run N sw a).voice.run N sw b).gains, ((v.run N sw a).voice.run N sw b).voice,
        ((v.run N sw a).voice.run N sw b).ended, ((v.run N sw a).voice.run N sw b).defect⟩)

/-! Each closed form of the loop, as a run. -/

theorem run_sustain (cnt : Nat) {v : Voice R} (h : v.stage = .sustain) : v.run N sw cnt =
    ⟨gainsOf N sw v.slope cnt v.level, { v with level := levelAfter N sw v.slope cnt v.level }, false, false⟩ :=
  loop_sustain N sw 1 [] h

theorem run_ramp_long {cnt : Nat} {v : Voice R} (h : v.stage = .attack ∨ v.stage = .release)
    (hlt : cnt < v.ramp.toNat) :
    v.run N sw cnt = ⟨gainsOf N sw v.slope cnt v.level, v.consume N sw cnt, false, false⟩ :=
  loop_ramp_long N sw 1 [] h hlt

theorem run_attack_pending {cnt : Nat} {v : Voice R} (h : v.stage = .attack) (h0 : v.ramp = 0#32) (hc : cnt ≠ 0) :
    v.run N sw cnt =
      ⟨gainsOf N sw N.zero cnt N.one, ⟨.sustain, levelAfter N sw N.zero cnt N.one, N.zero, 0#32⟩, false, false⟩ :=
  loop_attack_pending N sw 0 [] h h0 hc

theorem run_attack_short {cnt : Nat} {v : Voice R} (h : v.stage = .attack) (h0 : v.ramp ≠ 0#32)
    (hle : v.ramp.toNat ≤ cnt) : v.run N sw cnt =
      ⟨gainsOf N sw v.slope v.ramp.toNat v.level ++
          gainsOf N sw N.zero (cnt - v.ramp.toNat) (levelAfter N sw v.slope v.ramp.toNat v.level),
        ⟨.sustain, levelAfter N sw N.zero (cnt - v.ramp.toNat) (levelAfter N sw v.slope v.ramp.toNat v.level),
          N.zero, 0#32⟩, false, false⟩ :=
  loop_attack_short N sw 0 [] h h0 hle

theorem run_release_pending {cnt : Nat} {v : Voice R} (h : v.stage = .release) (h0 : v.ramp = 0#32) (hc : cnt ≠ 0) :
    v.run N sw cnt = ⟨[], v.goOff N sw, true, false⟩ :=
  loop_release_pending N sw 1 [] h h0 hc

theorem run_release_short {cnt : Nat} {v : Voice R} (h : v.stage = .release) (h0 : v.ramp ≠ 0#32)
    (hle : v.ramp.toNat ≤ cnt) : v.run N sw cnt =
      ⟨gainsOf N sw v.slope v.ramp.toNat v.level, (v.consume N sw v.ramp.toNat).goOff N sw, true, false⟩ :=
  loop_release_short N sw 1 [] h h0 hle

theorem consume_consume (a b : Nat) (v : Voice R) :
    (v.consume N sw a).consume N sw b = v.consume N sw (a + b) := by
  have htwice : (v.consume N sw a).consume N sw b = { v with
      level := levelAfter N sw v.slope b (levelAfter N sw v.slope a v.level)
      ramp := BitVec.ofNat 32 ((v.consume N sw a).ramp.toNat - b) } := rfl
  rw [htwice, consume_ramp_toNat, ← levelAfter_add, Nat.sub_sub]
  rfl

theorem splits_sustain (a b : Nat) {v : Voice R} (h : v.stage = .sustain) : Splits N sw a b v := by
  unfold Splits
  rw [run_sustain N sw (a + b) h, run_sustain N sw a h, run_sustain N sw b (by exact h), levelAfter_add, gainsOf_add]
  exact ⟨nofun, fun _ => rfl⟩

/-- A ramp longer than the first part goes on in the second as it would have. -/
theorem splits_ramp_long {a b : Nat} {v : Voice R} (h : v.stage = .attack ∨ v.stage = .release)
    (hlt : a < v.ramp.toNat) : Splits N sw a b v := by
  have hramp := consume_ramp_toNat N sw a v
  have h0 : v.ramp ≠ 0#32 := fun h0 => by rw [h0] at hlt; exact absurd hlt (Nat.not_lt_zero a)
  have h0' : (v.consume N sw a).ramp ≠ 0#32 := by rw [Ne, ramp_eq_zero_iff, hramp]; omega
  unfold Splits
  rw [run_ramp_long N sw h hlt]
  refine ⟨nofun, fun _ => ?_⟩
  by_cases hb : a + b < v.ramp.toNat
  · rw [run_ramp_long N sw h hb, run_ramp_long N sw (v := v.consume N sw a) h (by omega),
      consume_consume, gainsOf_add]
    rfl
  have hsplit : v.ramp.toNat = a + (v.consume N sw a).ramp.toNat := by omega
  have hgains : gainsOf N sw v.slope v.ramp.toNat v.level = gainsOf N sw v.slope a v.level ++
      gainsOf N sw (v.consume N sw a).slope (v.consume N sw a).ramp.toNat (v.consume N sw a).level := by
    rw [hsplit, gainsOf_add]
    rfl
  have hlevel : levelAfter N sw v.slope v.ramp.toNat v.level =
      levelAfter N sw (v.consume N sw a).slope (v.consume N sw a).ramp.toNat (v.consume N sw a).level := by
    rw [hsplit, levelAfter_add]
    rfl
  rcases h with h | h
  · rw [run_attack_short N sw h h0 (by omega), run_attack_short N sw (v := v.consume N sw a) h h0' (by omega), hgains,
      hlevel, show a + b - v.ramp.toNat = b - (v.consume N sw a).ramp.toNat by omega, List.append_assoc]
  · rw [run_release_short N sw h h0 (by omega), run_release_short N sw (v := v.consume N sw a) h h0' (by omega), hgains,
      consume_consume, ← hsplit]

/-- A pending attack jumps to Sustain in the first part that has a frame. -/
theorem splits_attack_pending {a b : Nat} {v : Voice R} (h : v.stage = .attack) (h0 : v.ramp = 0#32) (ha : a ≠ 0) :
    Splits N sw a b v := by
  unfold Splits
  rw [run_attack_pending N sw h h0 ha, run_attack_pending N sw h h0 (by omega), run_sustain N sw b rfl, levelAfter_add,
    gainsOf_add]
  exact ⟨nofun, fun _ => rfl⟩

/-- An attack that completes in the first part is followed by Sustain in both. -/
theorem splits_attack_short {a b : Nat} {v : Voice R} (h : v.stage = .attack) (h0 : v.ramp ≠ 0#32)
    (hle : v.ramp.toNat ≤ a) : Splits N sw a b v := by
  unfold Splits
  rw [run_attack_short N sw h h0 hle, run_attack_short N sw h h0 (by omega), run_sustain N sw b rfl,
    show a + b - v.ramp.toNat = a - v.ramp.toNat + b by omega, levelAfter_add, gainsOf_add, List.append_assoc]
  exact ⟨nofun, fun _ => rfl⟩

/-- A release that completes in the first part has no second (R170). -/
theorem splits_release_end {a b : Nat} {v : Voice R} (h : v.stage = .release) (ha : a ≠ 0) (hle : v.ramp.toNat ≤ a) :
    Splits N sw a b v := by
  unfold Splits
  by_cases h0 : v.ramp = 0#32
  · rw [run_release_pending N sw h h0 ha, run_release_pending N sw h h0 (by omega)]
    exact ⟨fun _ => rfl, nofun⟩
  · rw [run_release_short N sw h h0 hle, run_release_short N sw h h0 (by omega)]
    exact ⟨fun _ => rfl, nofun⟩

theorem splits (a b : Nat) {v : Voice R} (h : v.stage ≠ .off) : Splits N sw a b v := by
  by_cases ha : a = 0
  · simp [Splits, ha]
  cases hs : v.stage with
  | off => exact absurd hs h
  | sustain => exact splits_sustain N sw a b hs
  | attack =>
    by_cases hlt : a < v.ramp.toNat
    · exact splits_ramp_long N sw (.inl hs) hlt
    by_cases h0 : v.ramp = 0#32
    · exact splits_attack_pending N sw hs h0 ha
    · exact splits_attack_short N sw hs h0 (not_lt.1 hlt)
  | release =>
    by_cases hlt : a < v.ramp.toNat
    · exact splits_ramp_long N sw (.inr hs) hlt
    · exact splits_release_end N sw hs ha (not_lt.1 hlt)

end

/-- Settles O42: the loop's closed forms hold for two passes or more, and each emits and counts within its bounds. -/
theorem voiceRunBounds : Obligations.VoiceRunBounds :=
  fun _ N sw v cnt passes => ⟨loop_eq_run N sw passes cnt v, run_gains_length_le N sw cnt v, run_ramp_le N sw cnt v⟩

/-- Settles O45: by the stage, and by where the split falls in its ramp. -/
theorem splitBlock : Obligations.SplitBlock := fun _ N sw _ a b h => splits N sw a b h

/-! ### Sustain in binary32 (R169) -/

/-- Settles O44: the level is a fixed point of its step. -/
theorem sustainIsConstant : Obligations.SustainIsConstant := by
  intro v cnt hs hslope hfin hne
  have hfixed : nextLevel binary32 switches v.slope v.level = v.level := by
    rw [hslope]
    exact F32.add_zero_of_finite hfin hne
  rw [run_sustain binary32 switches cnt hs, gainsOf_of_fixed binary32 switches hfixed,
    levelAfter_of_fixed binary32 switches hfixed]

/-! ### Exact trajectories (R175) -/

/-- A point of a line between two points of an interval. -/
theorem line_mem {l slope lo hi : Rat} {j m : Nat} (hj : j ≤ m) (hl : l ∈ Set.Icc lo hi)
    (hm : l + m * slope ∈ Set.Icc lo hi) : l + j * slope ∈ Set.Icc lo hi := by
  have hj' : (j : Rat) ≤ m := by exact_mod_cast hj
  have hj0 : (0 : Rat) ≤ j := Nat.cast_nonneg j
  obtain ⟨hlo, hhi⟩ := hl
  obtain ⟨hmlo, hmhi⟩ := hm
  rcases le_total 0 slope with h | h
  · exact ⟨by nlinarith, by nlinarith⟩
  · exact ⟨by nlinarith, by nlinarith⟩

/-- Without the clamp the levels lie on a line. -/
theorem levelAfter_exact_switches (slope l : Rat) (m : Nat) :
    levelAfter exactNum switches slope m l = l + m * slope := by
  induction m with
  | zero => simp [levelAfter]
  | succ m ih =>
    rw [levelAfter_succ, ih, nextLevel, if_neg (by decide)]
    push_cast
    ring

theorem nextLevel_exact (sw : Switches) {slope l : Rat} (h : l + slope ∈ Set.Icc 0 1) :
    nextLevel exactNum sw slope l = l + slope := by
  obtain ⟨h0, h1⟩ := h
  unfold nextLevel
  split_ifs
  · rw [exactNum_zero, exactNum_one, exactNum_clamp zero_le_one, min_eq_left h1, max_eq_right h0]
  · rfl

section
variable (sw : Switches) {slope l : Rat} {m : Nat} (hl : l ∈ Set.Icc 0 1) (hm : l + m * slope ∈ Set.Icc 0 1)
include hl hm

/-- A line inside [0, 1] is the same in either setting of the clamp. -/
theorem levelAfter_exact {j : Nat} (hj : j ≤ m) : levelAfter exactNum sw slope j l = l + j * slope := by
  induction j with
  | zero => simp [levelAfter]
  | succ j ih =>
    have hnext : l + j * slope + slope = l + (j + 1 : Nat) * slope := by push_cast; ring
    rw [levelAfter_succ, ih (by omega), nextLevel_exact sw (hnext ▸ line_mem hj hl hm), hnext]

theorem levelAfter_exact_mem {j : Nat} (hj : j ≤ m) : levelAfter exactNum sw slope j l ∈ Set.Icc 0 1 := by
  rw [levelAfter_exact sw hl hm hj]
  exact line_mem hj hl hm

theorem gainsOf_exact_mem : ∀ g ∈ gainsOf exactNum sw slope m l, g ∈ Set.Icc 0 1 := by
  intro g hg
  rw [gainsOf_eq_map] at hg
  obtain ⟨j, hj, rfl⟩ := List.mem_map.1 hg
  exact levelAfter_exact_mem sw hl hm (List.mem_range.1 hj).le

end

/-- The level lies in [0, 1], and a ramp in flight reaches 1, or 0, with its last sample. -/
structure OnCourse (v : Voice Rat) : Prop where
  level_mem : v.level ∈ Set.Icc 0 1
  sustain : v.stage = .sustain → v.slope = 0
  attack : v.stage = .attack → v.ramp ≠ 0#32 → v.level + v.ramp.toNat * v.slope = 1
  release : v.stage = .release → v.ramp ≠ 0#32 → v.level + v.ramp.toNat * v.slope = 0

theorem onCourse_off {l : Rat} (hl : l ∈ Set.Icc 0 1) (c : Count) : OnCourse ⟨.off, l, 0, c⟩ :=
  ⟨hl, nofun, nofun, nofun⟩

theorem onCourse_sustain {l : Rat} (hl : l ∈ Set.Icc 0 1) (c : Count) : OnCourse ⟨.sustain, l, 0, c⟩ :=
  ⟨hl, fun _ => rfl, nofun, nofun⟩

/-- The slope of `c` samples to a target. -/
theorem mul_slope {c : Count} (hc : c ≠ 0#32) (x : Rat) : (c.toNat : Rat) * (x / c.toNat) = x :=
  mul_div_cancel₀ x (by simpa [← ramp_eq_zero_iff] using hc)

theorem startAttack_exact {c : Count} (hc : c ≠ 0#32) (v : Voice Rat) :
    v.startAttack exactNum c = ⟨.attack, v.level, (1 - v.level) / c.toNat, c⟩ := by
  simp [startAttack, hc]

theorem startRelease_exact {c : Count} (hc : c ≠ 0#32) {v : Voice Rat} (h : v.stage = .attack ∨ v.stage = .sustain) :
    v.startRelease exactNum c = ⟨.release, v.level, -v.level / c.toNat, c⟩ := by
  rw [startRelease_live exactNum c h, if_neg hc]

theorem OnCourse.startAttack {v : Voice Rat} (h : OnCourse v) (c : Count) : OnCourse (v.startAttack exactNum c) := by
  refine ⟨h.level_mem, nofun, fun _ (hc : c ≠ 0#32) => ?_, nofun⟩
  rw [startAttack_exact hc, mul_slope hc]
  ring

theorem OnCourse.startRelease {v : Voice Rat} (h : OnCourse v) (c : Count) :
    OnCourse (v.startRelease exactNum c) := by
  by_cases hlive : v.stage = .attack ∨ v.stage = .sustain
  · rw [startRelease_live exactNum c hlive]
    refine ⟨h.level_mem, nofun, nofun, fun _ hc => ?_⟩
    simp only [if_neg hc, mul_slope hc]
    ring
  · rw [startRelease_idle exactNum c (by cases hs : v.stage <;> simp_all)]
    exact h

/-- A ramp in flight ends inside [0, 1]. -/
theorem OnCourse.end_mem {v : Voice Rat} (h : OnCourse v) (hs : v.stage = .attack ∨ v.stage = .release)
    (h0 : v.ramp ≠ 0#32) : v.level + v.ramp.toNat * v.slope ∈ Set.Icc 0 1 := by
  rcases hs with hs | hs
  · rw [h.attack hs h0]
    exact ⟨zero_le_one, le_refl _⟩
  · rw [h.release hs h0]
    exact ⟨le_refl _, zero_le_one⟩

/-- A level that stays where it is. -/
theorem still_mem {l : Rat} (hl : l ∈ Set.Icc 0 1) (m : Nat) : l + m * 0 ∈ Set.Icc (0 : Rat) 1 := by
  rwa [mul_zero, add_zero]

theorem OnCourse.goOff (sw : Switches) {v : Voice Rat} (hl : v.level ∈ Set.Icc 0 1) :
    OnCourse (v.goOff exactNum sw) := by
  unfold Voice.goOff
  rw [exactNum_zero]
  split_ifs
  · exact onCourse_off ⟨le_refl _, zero_le_one⟩ _
  · exact onCourse_off hl _

/-- Part of a ramp in flight. -/
theorem OnCourse.consume (sw : Switches) {v : Voice Rat} (h : OnCourse v) (hs : v.stage = .attack ∨ v.stage = .release)
    {m : Nat} (hm : m < v.ramp.toNat) : OnCourse (v.consume exactNum sw m) := by
  have h0 : v.ramp ≠ 0#32 := fun h0 => by rw [h0] at hm; exact absurd hm (Nat.not_lt_zero m)
  have hend := h.end_mem hs h0
  have hrest : (v.consume exactNum sw m).level +
      (v.consume exactNum sw m).ramp.toNat * (v.consume exactNum sw m).slope = v.level + v.ramp.toNat * v.slope := by
    rw [consume_level, consume_ramp_toNat, consume_slope, levelAfter_exact sw h.level_mem hend hm.le,
      Nat.cast_sub hm.le]
    ring
  refine ⟨levelAfter_exact_mem sw h.level_mem hend hm.le, fun hsus => ?_, fun ha _ => ?_, fun hr _ => ?_⟩
  · rw [consume_stage] at hsus
    simp [hsus] at hs
  · rw [hrest, h.attack ha h0]
  · rw [hrest, h.release hr h0]

/-- R175: a run stays on its course, and so does every gain. -/
theorem OnCourse.run (sw : Switches) {v : Voice Rat} (h : OnCourse v) (cnt : Nat) :
    OnCourse (v.run exactNum sw cnt).voice ∧ ∀ g ∈ (v.run exactNum sw cnt).gains, g ∈ Set.Icc 0 1 := by
  have hone : (1 : Rat) ∈ Set.Icc (0 : Rat) 1 := ⟨zero_le_one, le_refl _⟩
  have hnone : ∀ g ∈ ([] : List Rat), g ∈ Set.Icc (0 : Rat) 1 := List.forall_mem_nil _
  obtain ⟨-, hr⟩ | ⟨-, -, hr⟩ | ⟨hs, hr⟩ | ⟨hs, hlt, hr⟩ | ⟨-, -, -, hr⟩ | ⟨hs, h0, hle, hr⟩ | ⟨-, -, -, hr⟩ |
      ⟨hs, h0, hle, hr⟩ := run_cases exactNum sw cnt v <;> rw [hr]
  case inl => exact ⟨h, hnone⟩
  case inr.inl => exact ⟨h, hnone⟩
  case inr.inr.inl =>
    have hstill := still_mem h.level_mem cnt
    rw [hs, h.sustain hs]
    exact ⟨onCourse_sustain (levelAfter_exact_mem sw h.level_mem hstill le_rfl) _,
      gainsOf_exact_mem sw h.level_mem hstill⟩
  case inr.inr.inr.inl =>
    have hend := h.end_mem hs fun h0 => by rw [h0] at hlt; exact absurd hlt (Nat.not_lt_zero cnt)
    exact ⟨h.consume sw hs hlt, gainsOf_exact_mem sw h.level_mem (line_mem hlt.le h.level_mem hend)⟩
  case inr.inr.inr.inr.inl =>
    have hstill := still_mem hone cnt
    rw [exactNum_zero, exactNum_one]
    exact ⟨onCourse_sustain (levelAfter_exact_mem sw hone hstill le_rfl) _, gainsOf_exact_mem sw hone hstill⟩
  case inr.inr.inr.inr.inr.inl =>
    have hend := h.end_mem (.inl hs) h0
    have htop := levelAfter_exact_mem sw h.level_mem hend le_rfl
    have hstill := still_mem htop (cnt - v.ramp.toNat)
    rw [exactNum_zero]
    exact ⟨onCourse_sustain (levelAfter_exact_mem sw htop hstill le_rfl) _, fun g hg =>
      (List.mem_append.1 hg).elim (gainsOf_exact_mem sw h.level_mem hend g) (gainsOf_exact_mem sw htop hstill g)⟩
  case inr.inr.inr.inr.inr.inr.inl => exact ⟨.goOff sw h.level_mem, hnone⟩
  case inr.inr.inr.inr.inr.inr.inr =>
    have hend := h.end_mem (.inr hs) h0
    exact ⟨.goOff sw (levelAfter_exact_mem sw h.level_mem hend le_rfl), gainsOf_exact_mem sw h.level_mem hend⟩

theorem OnCourse.apply (sw : Switches) {v : Voice Rat} (h : OnCourse v) (op : VoiceOp) :
    OnCourse (op.apply exactNum sw v) := by
  cases op with
  | attack c => exact h.startAttack c
  | release c => exact h.startRelease c
  | run frames => exact (h.run sw frames).1

/-- Settles O46: the levels of a ramp lie on a line that its last sample ends at 1, or at 0; every command keeps a voice
on such a course. -/
theorem exactTrajectories : Obligations.ExactTrajectories := by
  refine ⟨fun v a ha => ?attack, fun v b hb hlive => ?release, fun sw ops cnt => ?bounded⟩
  case attack =>
    rw [startAttack_exact ha, run_attack_short exactNum switches (v := ⟨.attack, v.level, _, a⟩) rfl ha le_rfl,
      Nat.sub_self]
    simp only [gainsOf_eq_map, levelAfter_exact_switches, mul_slope ha]
    simp
  case release =>
    rw [startRelease_exact hb hlive, run_release_short exactNum switches (v := ⟨.release, v.level, _, b⟩) rfl hb le_rfl]
    simp only [gainsOf_eq_map, levelAfter_exact_switches]
    simp [Voice.goOff, switches, neg_div, sub_eq_add_neg]
  case bounded =>
    intro v
    have hv : OnCourse v := List.foldlRecOn ops _ (onCourse_off ⟨le_refl _, zero_le_one⟩ _) fun v hv op _ =>
      hv.apply sw op
    exact ⟨hv.level_mem, (hv.run sw cnt).2⟩

end Sys2Proof.Machine.Voice
end

section
/-! PROOFS. The life of a voice, command by command (R27 I5, R162): what a command does to one voice, said once; and the
events of a block (R197, R200). -/

namespace Sys2Proof.Machine

/-! ### What a command does to one voice -/

/-- Everything an instruction can do to voice `n`, `v` before it. -/
inductive VoiceChange (s t : State) (n : Note) (i : Instr) : Prop
  | same (h : t.voice n = s.voice n)
  | attack (vel : Velocity) (hi : isTriggerOf n vel i)
      (h : t.voice n = (s.voice n).startAttack binary32 s.attackSamples)
  | release (hi : isReleaseOf n i) (h : t.voice n = (s.voice n).startRelease binary32 s.releaseSamples)
  | silence (hi : isSilencing i) (hal : t.al = []) (h : t.voice n = Voice.cleared)
  | block (frames offset : Count) (hi : i = .process frames offset) (h : t = s.processBlock frames offset)

/-- A form of `Trigger(m, vel)`, which is one of `Release(m)` when the velocity is 0. -/
theorem VoiceChange.of_triggerNote {s : State} {m : Note} {vel : Velocity} {i : Instr}
    (hrelease : vel = 0#7 → isReleaseOf m i) (htrigger : vel ≠ 0#7 → isTriggerOf m vel i) (n : Note) :
    VoiceChange s (s.triggerNote m vel) n i := by
  by_cases hn : n = m
  · subst hn
    by_cases hvel : vel = 0#7
    · refine .release (hrelease hvel) ?_
      rw [hvel, State.triggerNote_zero, State.releaseNote_voice, if_pos rfl]
    · refine .attack vel (htrigger hvel) ?_
      rw [State.triggerNote_voice n vel s hvel, if_pos rfl]
  · exact .same (State.triggerNote_voice_other hn vel s)

theorem VoiceChange.of_releaseNote {s : State} {m : Note} {i : Instr} (hi : isReleaseOf m i) (n : Note) :
    VoiceChange s (s.releaseNote m) n i := by
  by_cases hn : n = m
  · subst hn
    exact .release hi (by rw [State.releaseNote_voice, if_pos rfl])
  · exact .same (by rw [State.releaseNote_voice, if_neg hn])

theorem VoiceChange.of_allNotesOff {s t : State} {i : Instr} (hi : isSilencing i) (hal : t.al = s.allNotesOff.al)
    (henv : t.env = s.allNotesOff.env) (n : Note) : VoiceChange s t n i :=
  .silence hi hal ((congrArg (fun env => env[n.toNat]'n.toNat_lt) henv).trans (s.allNotesOff_voice n))

theorem Runs.voiceChange {s t : State} {i : Instr} (h : Runs s i t) (n : Note) : VoiceChange s t n i := by
  cases h
  case trigger _ m vel =>
    exact .of_triggerNote (fun hv => by subst hv; exact .inr (.inl rfl)) (fun hv => ⟨hv, .inl rfl⟩) n
  case noteOn _ chan m vel =>
    exact .of_triggerNote (fun hv => by subst hv; exact .inr (.inr (.inr (.inl ⟨chan, rfl⟩))))
      (fun hv => ⟨hv, .inr (.inl ⟨chan, rfl⟩)⟩) n
  case midiOn _ chan m vel =>
    exact .of_triggerNote (fun hv => by subst hv; exact .inr (.inr (.inr (.inr (.inr ⟨chan, rfl⟩)))))
      (fun hv => ⟨hv, .inr (.inr ⟨chan, rfl⟩)⟩) n
  case release => exact .of_releaseNote (.inl rfl) n
  case noteOff _ chan m x => exact .of_releaseNote (.inr (.inr (.inl ⟨chan, x, rfl⟩))) n
  case midiOff _ chan m x => exact .of_releaseNote (.inr (.inr (.inr (.inr (.inl ⟨chan, x, rfl⟩))))) n
  case alloff => exact .of_allNotesOff (.inl rfl) rfl rfl n
  case ccAlloff _ chan x => exact .of_allNotesOff (.inr (.inl ⟨chan, x, rfl⟩)) rfl rfl n
  case midiCc _ chan x => exact .of_allNotesOff (.inr (.inr (.inl ⟨chan, x, rfl⟩))) rfl rfl n
  case reset => exact .of_allNotesOff (s := s) (t := s.softReset paramDefault) (.inr (.inr (.inr (.inl rfl)))) rfl rfl n
  case init chan rate _ =>
    exact .of_allNotesOff (s := s) (t := s.initialise paramDefault chan rate)
      (.inr (.inr (.inr (.inr ⟨chan, rate, rfl⟩)))) rfl rfl n
  case process _ frames offset _ => exact .block frames offset rfl rfl
  all_goals exact .same rfl

/-! ### Stages (R162) -/

/-- What a block can do to a stage, however often its voice is run. -/
def BlockStage (before after : Stage) : Prop :=
  after = before ∨ (before = .attack ∧ after = .sustain) ∨ (before = .release ∧ after = .off)

theorem BlockStage.trans {a b c : Stage} (hab : BlockStage a b) (hbc : BlockStage b c) : BlockStage a c := by
  unfold BlockStage at *
  grind

/-- R162 for a block, from every state: also where the list has repetitions. -/
theorem State.processBlock_stage (frames offset : Count) (s : State) (n : Note) :
    BlockStage (s.voice n).stage ((s.processBlock frames offset).voice n).stage := by
  rw [processBlock_eq, emit_voice]
  refine foldl_runVoice_keeps (P := fun t => BlockStage (s.voice n).stage (t.voice n).stage) _
    (fun t m h => h.trans ?_) s.al (.inl (by rw [openBlock_voice]))
  rw [runVoice_voice]
  split_ifs with hn
  · rw [hn]
    exact Voice.run_stage binary32 switches _ _
  · exact .inl rfl

/-- A release begins in Attack or Sustain, with the countdown at its count; elsewhere it does nothing (R157, R158). -/
theorem Voice.startRelease_cases {R : Type} (N : Num R) (c : Count) (v : Voice R) :
    v.startRelease N c = v ∨ ((v.stage = .attack ∨ v.stage = .sustain) ∧
      (v.startRelease N c).stage = .release ∧ (v.startRelease N c).ramp = c) := by
  by_cases hlive : v.stage = .attack ∨ v.stage = .sustain
  · rw [startRelease_live N c hlive]
    exact .inr ⟨hlive, rfl, rfl⟩
  · exact .inl (if_neg hlive)

/-- Settles O41: each kind of change of a voice moves its stage as the table says. -/
theorem stageTransitions : Obligations.StageTransitions := by
  intro i s t n hexec before after hne
  cases (exec_runs hexec).voiceChange n with
  | same h => exact absurd (congrArg Voice.stage h).symm hne
  | attack vel hi h => exact .inl ⟨congrArg Voice.stage h, h, vel, hi⟩
  | release hi h =>
    obtain hsame | ⟨hlive, hs, -⟩ := Voice.startRelease_cases binary32 s.releaseSamples (s.voice n)
    · exact absurd (congrArg Voice.stage (h.trans hsame)).symm hne
    · exact .inr (.inl ⟨(congrArg Voice.stage h).trans hs, hlive, hi⟩)
  | silence hi hal h =>
    refine .inr (.inr (.inr (.inr ⟨congrArg Voice.stage h, hal, ?_⟩)))
    rcases hi with hi | hi | hi | hi | hi
    · exact .inl hi
    · exact .inr (.inr (.inr (.inl hi)))
    · exact .inr (.inr (.inr (.inr hi)))
    · exact .inr (.inl hi)
    · exact .inr (.inr (.inl hi))
  | block frames offset hi h =>
    subst h
    obtain hs | ⟨hb, ha⟩ | ⟨hb, ha⟩ := State.processBlock_stage frames offset s n
    · exact absurd hs.symm hne
    · exact .inr (.inr (.inl ⟨hb, ha, frames, offset, hi⟩))
    · exact .inr (.inr (.inr (.inl ⟨hb, ha, frames, offset, hi⟩)))

/-! ### Pending zero-length ramps (R27 I5) -/

/-- After a run with a frame no ramp is pending: one longer than the run has samples left, any other has ended. -/
theorem Voice.run_not_pending {R : Type} (N : Num R) (sw : Switches) {cnt : Nat} (hc : cnt ≠ 0) (v : Voice R)
    (hs : (v.run N sw cnt).voice.stage = .attack ∨ (v.run N sw cnt).voice.stage = .release) :
    (v.run N sw cnt).voice.ramp ≠ 0#32 := by
  obtain ⟨h0, -⟩ | ⟨-, hoff, hr⟩ | ⟨hsus, hr⟩ | ⟨-, hlt, hr⟩ | ⟨-, -, -, hr⟩ | ⟨-, -, -, hr⟩ | ⟨-, -, -, hr⟩ |
    ⟨-, -, -, hr⟩ := Voice.run_cases N sw cnt v
  · exact absurd h0 hc
  · simp [hr, hoff] at hs
  · simp [hr, hsus] at hs
  · rw [hr, Ne, ramp_eq_zero_iff, consume_ramp_toNat]
    omega
  all_goals simp [hr, goOff] at hs

section
variable {s : State} (h : Inv s) (frames offset : Count) (n : Note)
include h

/-- I5 for a block with a frame. -/
theorem Inv.processBlock_not_pending (hframes : frames ≠ 0#32)
    (hs : ((s.processBlock frames offset).voice n).stage = .attack ∨
      ((s.processBlock frames offset).voice n).stage = .release) :
    ((s.processBlock frames offset).voice n).ramp ≠ 0#32 := by
  have hcnt : frames.toNat ≠ 0 := fun h0 => hframes ((Voice.ramp_eq_zero_iff frames).2 h0)
  rw [State.processBlock_voice h.active_nodup] at hs ⊢
  split_ifs at hs ⊢ with hn
  · exact Voice.run_not_pending binary32 switches hcnt _ hs
  · have hoff : (s.voice n).stage = .off := not_not.1 ((h.active_iff n).not.1 hn)
    simp [hoff] at hs

/-- A ramp pending after a block was pending before it: the block had no frame, and so left every voice. -/
theorem Inv.pending_of_processBlock {stage : Stage} (hstage : stage = .attack ∨ stage = .release)
    (hs : ((s.processBlock frames offset).voice n).stage = stage)
    (hramp : ((s.processBlock frames offset).voice n).ramp = 0#32) :
    (s.voice n).stage = stage ∧ (s.voice n).ramp = 0#32 := by
  by_cases hframes : frames = 0#32
  · rw [hframes, State.processBlock_voice h.active_nodup, BitVec.toNat_zero, Voice.run_zero, ite_self] at hs hramp
    exact ⟨hs, hramp⟩
  · exact absurd hramp (h.processBlock_not_pending frames offset n hframes (hs ▸ hstage))

end

/-- Settles O51: a trigger and a release set the countdown to their count; a block with a frame leaves none pending. -/
theorem pendingZeroLengthRamps : Obligations.PendingZeroLengthRamps := by
  intro i s t hinv hexec
  have hchange := (exec_runs hexec).voiceChange
  refine ⟨fun n hs hramp => ?attack, fun n hs hramp => ?release, fun frames offset hi hframes hinit hlegal n => ?block⟩
  case attack =>
    cases hchange n with
    | same h => exact .inl (h ▸ ⟨hs, hramp⟩)
    | attack vel hi h => exact .inr ⟨by rwa [h] at hramp, vel, hi⟩
    | release hi h =>
      rw [h] at hs hramp
      obtain hsame | ⟨-, hs', -⟩ := Voice.startRelease_cases binary32 s.releaseSamples (s.voice n)
      · exact .inl (hsame ▸ ⟨hs, hramp⟩)
      · exact absurd (hs.symm.trans hs') nofun
    | silence hi hal h => rw [h] at hs; cases hs
    | block frames offset hi h =>
      subst h
      exact .inl (hinv.pending_of_processBlock frames offset n (.inl rfl) hs hramp)
  case release =>
    cases hchange n with
    | same h => exact .inl (h ▸ ⟨hs, hramp⟩)
    | attack vel hi h => rw [h] at hs; cases hs
    | release hi h =>
      rw [h] at hs hramp
      obtain hsame | ⟨hlive, -, hramp'⟩ := Voice.startRelease_cases binary32 s.releaseSamples (s.voice n)
      · exact .inl (hsame ▸ ⟨hs, hramp⟩)
      · exact .inr ⟨hramp'.symm.trans hramp, hi, hlive⟩
    | silence hi hal h => rw [h] at hs; cases hs
    | block frames offset hi h =>
      subst h
      exact .inl (hinv.pending_of_processBlock frames offset n (.inr rfl) hs hramp)
  case block =>
    subst hi
    rw [exec_process_of_fits hinit (not_lt.1 hlegal)] at hexec
    cases hexec
    exact hinv.processBlock_not_pending frames offset n hframes

end Sys2Proof.Machine
end

section
/-! PROOFS. The event trace of a command (R91, R163, R197, R200), and what its delivery does to the output buffer (R61,
R75 to R77). -/

namespace Sys2Proof.Machine

/-! ### The trace of a block -/

/-- The event is a gain. -/
def isGain : Event → Bool
  | .gain _ _ _ => true
  | _ => false

/-- What the traversal of a block of `cnt` frames may emit: parameters, an end, or the gain of one of its frames. -/
def InBlock (cnt : Nat) : Event → Prop
  | .gain _ k _ => k < cnt
  | .oscParams _ _ | .oscDestroy _ => True
  | .blockBegin _ _ | .blockEnd | .oscInit _ | .oscNote _ _ => False

theorem countP_isGain_gainEvents (n : Note) (gains : List F32) :
    (gainEvents n gains).countP isGain = gains.length := by
  rw [List.countP_eq_length.2, gainEvents, List.length_map, List.length_zipIdx]
  intro e he
  obtain ⟨p, -, rfl⟩ := List.mem_map.1 he
  rfl

theorem inBlock_gainEvents {n : Note} {gains : List F32} {cnt : Nat} (hlen : gains.length ≤ cnt) :
    ∀ e ∈ gainEvents n gains, InBlock cnt e := by
  intro e he
  obtain ⟨p, hp, rfl⟩ := List.mem_map.1 he
  have hk := (List.mem_zipIdx hp).2.1
  show p.2 < cnt
  omega

/-- One entry emits at most one gain per frame (R200). -/
theorem countP_isGain_entryEvents (p : Snapshot) (r : VoiceRun F32) (n : Note) :
    (State.entryEvents p r n).countP isGain = r.gains.length := by
  rw [State.entryEvents, List.cons_append, List.countP_cons_of_neg (by simp [isGain]), List.countP_append,
    countP_isGain_gainEvents]
  split_ifs <;> simp [isGain]

theorem inBlock_entryEvents (p : Snapshot) {r : VoiceRun F32} {cnt : Nat} (hlen : r.gains.length ≤ cnt) (n : Note) :
    ∀ e ∈ State.entryEvents p r n, InBlock cnt e := by
  intro e he
  rw [State.entryEvents, List.cons_append, List.mem_cons, List.mem_append] at he
  obtain rfl | he | he := he
  · trivial
  · exact inBlock_gainEvents hlen e he
  · split_ifs at he
    · obtain rfl := List.mem_singleton.1 he
      trivial
    · cases he

namespace State

/-- The traversal of any list, repeated entries included, emits entries of the block, at most `cnt` gains for each. -/
theorem foldl_runVoice_emits (cnt : Nat) (l : List Note) (s : State) :
    ∃ es, (l.foldl (runVoice cnt) s).events = s.events ++ es ∧ (∀ e ∈ es, InBlock cnt e) ∧
      es.countP isGain ≤ l.length * cnt := by
  induction l generalizing s with
  | nil => exact ⟨[], by simp⟩
  | cons n l ih =>
    have hlen := Voice.run_gains_length_le binary32 switches cnt (s.voice n)
    obtain ⟨es, hevents, hin, hcount⟩ := ih (s.runVoice cnt n)
    refine ⟨entryEvents s.snapshot ((s.voice n).run binary32 switches cnt) n ++ es, ?_, ?_, ?_⟩
    · rw [List.foldl_cons, hevents, runVoice_events, List.append_assoc]
    · exact fun e he => (List.mem_append.1 he).elim (inBlock_entryEvents _ hlen n e) (hin e)
    · rw [List.countP_append, countP_isGain_entryEvents, List.length_cons, Nat.succ_mul]
      omega

/-- R197: a block's trace, from every state. -/
theorem processBlock_emits (frames offset : Count) (s : State) :
    ∃ es, (s.processBlock frames offset).events = s.events ++ .blockBegin frames offset :: es ++ [.blockEnd] ∧
      (∀ e ∈ es, InBlock frames.toNat e) ∧ es.countP isGain ≤ s.al.length * frames.toNat := by
  obtain ⟨es, hevents, hin, hcount⟩ := foldl_runVoice_emits frames.toNat s.al (s.openBlock frames offset)
  refine ⟨es, ?_, hin, hcount⟩
  rw [processBlock_eq, emit_events, hevents, openBlock_events, List.append_assoc s.events]
  rfl

end State

/-- Settles O50: each entry of the active list emits at most one gain per frame. -/
theorem blockWorkBound : Obligations.BlockWorkBound := by
  intro s t frames offset hempty hexec
  change (t.events.filter isGain).length ≤ _
  rw [← List.countP_eq_length_filter]
  cases exec_runs hexec with
  | notInited | bad => simp [hempty]
  | notInitedRead _ _ hr | badRead _ _ _ hr => cases hr
  | process =>
    obtain ⟨es, hevents, -, hcount⟩ := s.processBlock_emits frames offset
    simpa [hevents, hempty, List.countP_cons, isGain] using hcount

/-! ### The trace of any other command -/

/-- What a trigger may emit (R151). -/
def IsNoteEvent : Event → Prop
  | .oscInit _ | .oscNote _ _ => True
  | .blockBegin _ _ | .blockEnd | .gain _ _ _ | .oscDestroy _ | .oscParams _ _ => False

theorem State.triggerNote_emits (n : Note) (vel : Velocity) (s : State) :
    ∃ es, (s.triggerNote n vel).events = s.events ++ es ∧ ∀ e ∈ es, IsNoteEvent e := by
  obtain ⟨-, h⟩ | ⟨-, -, h⟩ | ⟨-, -, h⟩ := triggerNote_cases n vel s <;> rw [h]
  · exact ⟨[], by simp⟩
  · exact ⟨[.oscInit n, .oscNote n vel], by simp [IsNoteEvent]⟩
  · exact ⟨[.oscNote n vel], by simp [IsNoteEvent]⟩

/-- Every command but a block that runs emits note events alone. -/
theorem Runs.emits {s t : State} {i : Instr} (h : Runs s i t) :
    (∃ frames offset, i = .process frames offset ∧ t = s.processBlock frames offset) ∨
      ∃ es, t.events = s.events ++ es ∧ ∀ e ∈ es, IsNoteEvent e := by
  cases h
  case process _ frames offset _ => exact .inl ⟨frames, offset, rfl, rfl⟩
  case trigger | noteOn | midiOn => exact .inr (State.triggerNote_emits ..)
  all_goals exact .inr ⟨[], (List.append_nil _).symm, List.forall_mem_nil _⟩

/-! ### What the environment receives in a step -/

/-- A step on a command word: the environment receives a block's trace, or note events alone. -/
theorem step_world {s t : State} {w : Command} {rest : List HostInput} (hhost : s.host = .cmd w :: rest)
    (hstep : step s = .next t) :
    (∃ frames offset es, decode w = .instr (.process frames offset) ∧
      t.world = s.world.absorbAll (.blockBegin frames offset :: es ++ [.blockEnd]) ∧
      ∀ e ∈ es, InBlock frames.toNat e) ∨
    ∃ es, t.world = s.world.absorbAll es ∧ ∀ e ∈ es, IsNoteEvent e := by
  obtain ⟨u, hu⟩ := runWord_completes w (s.accept rest)
  rw [step_cmd hhost hu] at hstep
  cases hstep
  obtain ⟨i, hdecode, hexec⟩ | ⟨op, -, rfl⟩ := runWord_cases hu
  · have hruns := exec_runs hexec
    obtain ⟨-, hworld⟩ := hruns.host_world
    obtain ⟨frames, offset, rfl, rfl⟩ | ⟨es, hevents, hnote⟩ := hruns.emits
    · obtain ⟨es, hevents, hin, -⟩ := (s.accept rest).processBlock_emits frames offset
      refine .inl ⟨frames, offset, es, hdecode, ?_, hin⟩
      rw [State.deliver_world, hworld, hevents]
      rfl
    · refine .inr ⟨es, ?_, hnote⟩
      rw [State.deliver_world, hworld, hevents]
      rfl
  · exact .inr ⟨[], rfl, List.forall_mem_nil _⟩

/-- A property of the environment that each event of a trace keeps, the trace keeps. -/
theorem World.absorbAll_keeps {P : World → Prop} {es : List Event} (h : ∀ e ∈ es, ∀ w, P w → P (w.absorb e)) {w : World}
    (hw : P w) : P (w.absorbAll es) := by
  induction es generalizing w with
  | nil => exact hw
  | cons e es ih => exact ih (fun e he => h e (List.mem_cons_of_mem _ he)) (h e (List.mem_cons_self ..) w hw)

/-! ### One channel of the buffer, event by event (R75 to R77) -/

section channel
variable {ch : Buffer → Samples} (hch : ch ∈ [Buffer.left, Buffer.right])
include hch

/-- The mono signal is stereo-doubled: both channels take the same change (R76). -/
theorem channel_both (f : Samples → Samples) (b : Buffer) : ch (b.both f) = f (ch b) := by
  obtain rfl | rfl : ch = Buffer.left ∨ ch = Buffer.right := by simpa using hch
  · rfl
  · rfl

theorem channel_wf {b : Buffer} (h : b.wf = true) : samplesWf (ch b) = true := by
  obtain ⟨hleft, hright⟩ := (Buffer.wf_iff b).1 h
  obtain rfl | rfl : ch = Buffer.left ∨ ch = Buffer.right := by simpa using hch
  · exact hleft
  · exact hright

variable (w : World)

theorem readSample_blockBegin (n o : Count) (j : Nat) : readSample (ch (w.absorb (.blockBegin n o)).buf) j =
    if o.toNat ≤ j ∧ j < o.toNat + n.toNat then 0#32 else readSample (ch w.buf) j := by
  simp only [World.absorb, channel_both hch, readSample_zeroRegion, inRegion_iff]
  rfl

variable {w}
variable (hwf : w.buf.wf = true)
include hwf

theorem readSample_gain (note : Note) (k : Nat) (g : F32) (j : Nat) :
    readSample (ch (w.absorb (.gain note k g)).buf) j =
      if j = w.offset.toNat + k then F32.add (readSample (ch w.buf) j) (F32.mul (Config.oracle w.draws) g)
      else readSample (ch w.buf) j := by
  simp only [World.absorb, channel_both hch, readSample_accumulate (channel_wf hch hwf)]

theorem readSample_blockEnd (j : Nat) : readSample (ch (w.absorb .blockEnd).buf) j =
    if w.offset.toNat ≤ j ∧ j < w.offset.toNat + w.frames.toNat then F32.mul (readSample (ch w.buf) j) 0x3F000000#32
    else readSample (ch w.buf) j := by
  have hgain : masterGain = 0x3F000000#32 := by decide +kernel
  simp only [World.absorb, channel_both hch, readSample_scaleRegion (channel_wf hch hwf), inRegion_iff, hgain]

end channel

/-- Settles O52: each event changes both channels by one operation on samples; `BlockBegin` alone names the region. -/
theorem datapathEvents : Obligations.DatapathEvents := by
  refine ⟨fun w hwf ch hch => ⟨readSample_blockBegin hch w, readSample_gain hch hwf, readSample_blockEnd hch hwf,
    fun _ _ _ => ⟨rfl, rfl, rfl, rfl⟩⟩, fun _ _ _ => ⟨rfl, rfl⟩, fun w n vel p k g => ?_⟩
  simp only [List.forall_mem_cons]
  exact ⟨⟨rfl, rfl⟩, ⟨rfl, rfl⟩, ⟨rfl, rfl⟩, ⟨rfl, rfl⟩, ⟨rfl, rfl⟩, ⟨rfl, rfl⟩, List.forall_mem_nil _⟩

/-! ### The region of a block (R61, R76) -/

/-- The environment inside a block of `frames` frames from `offset`. -/
structure InRegionOf (frames offset : Count) (w : World) : Prop where
  frames_eq : w.frames = frames
  offset_eq : w.offset = offset
  wf : w.buf.wf = true

theorem inRegionOf_blockBegin (frames offset : Count) {w : World} (hwf : w.buf.wf = true) :
    InRegionOf frames offset (w.absorb (.blockBegin frames offset)) :=
  ⟨rfl, rfl, World.absorb_wf hwf _⟩

theorem InRegionOf.absorb {frames offset : Count} {w : World} (h : InRegionOf frames offset w) {e : Event}
    (he : InBlock frames.toNat e) : InRegionOf frames offset (w.absorb e) := by
  refine ⟨?_, ?_, World.absorb_wf h.wf e⟩
  · cases e <;> first | exact h.frames_eq | exact he.elim
  · cases e <;> first | exact h.offset_eq | exact he.elim

/-- No event of a block reaches a frame outside its region. -/
theorem InRegionOf.readSample_outside {frames offset : Count} {w : World} (h : InRegionOf frames offset w)
    {ch : Buffer → Samples} (hch : ch ∈ [Buffer.left, Buffer.right]) {j : Nat}
    (hj : j < offset.toNat ∨ offset.toNat + frames.toNat ≤ j) {e : Event}
    (he : InBlock frames.toNat e ∨ e = .blockEnd) :
    readSample (ch (w.absorb e).buf) j = readSample (ch w.buf) j := by
  cases e with
  | gain n k g =>
    have hk : k < frames.toNat := he.resolve_right nofun
    rw [readSample_gain hch h.wf, if_neg (by rw [h.offset_eq]; omega)]
  | blockEnd => rw [readSample_blockEnd hch h.wf, if_neg (by rw [h.offset_eq, h.frames_eq]; omega)]
  | oscParams | oscDestroy => rfl
  | blockBegin | oscInit | oscNote => simp [InBlock] at he

/-- R61: a block leaves every frame outside its region. -/
theorem readSample_absorbAll_block {frames offset : Count} {es : List Event} (hes : ∀ e ∈ es, InBlock frames.toNat e)
    {w : World} (hwf : w.buf.wf = true) {ch : Buffer → Samples} (hch : ch ∈ [Buffer.left, Buffer.right]) {j : Nat}
    (hj : j < offset.toNat ∨ offset.toNat + frames.toNat ≤ j) :
    readSample (ch (w.absorbAll (.blockBegin frames offset :: es ++ [.blockEnd])).buf) j =
      readSample (ch w.buf) j := by
  have hbegin : readSample (ch (w.absorb (.blockBegin frames offset)).buf) j = readSample (ch w.buf) j := by
    rw [readSample_blockBegin hch, if_neg (by omega)]
  obtain ⟨hregion, hread⟩ := World.absorbAll_keeps
    (P := fun v => InRegionOf frames offset v ∧ readSample (ch v.buf) j = readSample (ch w.buf) j)
    (fun e he v ⟨hv, hvj⟩ => ⟨hv.absorb (hes e he), (hv.readSample_outside hch hj (.inl (hes e he))).trans hvj⟩)
    ⟨inRegionOf_blockBegin frames offset hwf, hbegin⟩
  rw [List.cons_append, World.absorbAll_cons, World.absorbAll_append]
  exact (hregion.readSample_outside hch hj (.inr rfl)).trans hread

theorem absorbAll_buf_of_noteEvents {es : List Event} (hes : ∀ e ∈ es, IsNoteEvent e) (w : World) :
    (w.absorbAll es).buf = w.buf :=
  World.absorbAll_keeps (P := fun v => v.buf = w.buf)
    (fun e he v hv => by cases e <;> first | exact hv | exact (hes _ he).elim) rfl

/-- Settles O54: a command that is no block, or a block that is ignored, delivers note events alone. -/
theorem outputRegion : Obligations.OutputRegion := by
  intro s t w rest hwf hhost hstep
  obtain ⟨frames, offset, es, hdecode, hworld, hes⟩ | ⟨es, hworld, hes⟩ := step_world hhost hstep <;> rw [hworld]
  · refine ⟨fun hne => absurd hdecode (hne frames offset), fun frames' offset' hdecode' ch hch j hj => ?_⟩
    rw [hdecode] at hdecode'
    cases hdecode'
    exact readSample_absorbAll_block hes hwf hch hj
  · rw [absorbAll_buf_of_noteEvents hes]
    exact ⟨fun _ => rfl, fun _ _ _ _ _ _ _ => rfl⟩

/-- Both channels hold the same at every frame of the region. -/
def StereoIn (frames offset : Count) (b : Buffer) : Prop :=
  ∀ j : Nat, offset.toNat ≤ j → j < offset.toNat + frames.toNat → readSample b.left j = readSample b.right j

theorem stereoIn_blockBegin (frames offset : Count) (w : World) :
    StereoIn frames offset (w.absorb (.blockBegin frames offset)).buf := by
  intro j h1 h2
  rw [readSample_blockBegin (ch := Buffer.left) (by simp), readSample_blockBegin (ch := Buffer.right) (by simp),
    if_pos ⟨h1, h2⟩, if_pos ⟨h1, h2⟩]

theorem StereoIn.absorb {frames offset : Count} {w : World} (h : StereoIn frames offset w.buf) (hwf : w.buf.wf = true)
    {e : Event} (he : InBlock frames.toNat e ∨ e = .blockEnd) : StereoIn frames offset (w.absorb e).buf := by
  intro j h1 h2
  cases e with
  | gain n k g =>
    rw [readSample_gain (ch := Buffer.left) (by simp) hwf, readSample_gain (ch := Buffer.right) (by simp) hwf,
      h j h1 h2]
  | blockEnd =>
    rw [readSample_blockEnd (ch := Buffer.left) (by simp) hwf, readSample_blockEnd (ch := Buffer.right) (by simp) hwf,
      h j h1 h2]
  | oscParams | oscDestroy => exact h j h1 h2
  | blockBegin | oscInit | oscNote => simp [InBlock] at he

/-- R76: `BlockBegin` makes the channels agree, and every later event of the block changes them alike. -/
theorem stereoIn_absorbAll_block {frames offset : Count} {es : List Event} (hes : ∀ e ∈ es, InBlock frames.toNat e)
    {w : World} (hwf : w.buf.wf = true) :
    StereoIn frames offset (w.absorbAll (.blockBegin frames offset :: es ++ [.blockEnd])).buf := by
  obtain ⟨hwf', hstereo⟩ := World.absorbAll_keeps (P := fun v => v.buf.wf = true ∧ StereoIn frames offset v.buf)
    (fun e he v ⟨hv, hvs⟩ => ⟨World.absorb_wf hv e, hvs.absorb hv (.inl (hes e he))⟩)
    ⟨World.absorb_wf hwf (.blockBegin frames offset), stereoIn_blockBegin frames offset w⟩
  rw [List.cons_append, World.absorbAll_cons, World.absorbAll_append]
  exact hstereo.absorb hwf' (.inr rfl)

/-- Settles O55: the step delivers a block's trace. -/
theorem stereoDoubled : Obligations.StereoDoubled := by
  intro s t w rest frames offset hwf hinit hhost hdecode hfits hstep
  have hexec := exec_process_of_fits (s := s.accept rest) hinit hfits
  rw [step_of_instr hhost hdecode hexec] at hstep
  cases hstep
  obtain ⟨es, hevents, hes, -⟩ := (s.accept rest).processBlock_emits frames offset
  rw [State.deliver_world, State.processBlock_world, hevents]
  exact stereoIn_absorbAll_block hes hwf

end Sys2Proof.Machine
end

section
/-! PROOFS. The environment's oscillators (R74, R78, R206): event by event, over a step, and the maps of R206 as
formulas. -/

namespace Sys2Proof.Machine

/-! ### The maps of R206 as formulas -/

/-- A finite value without a sign bit, in units of 2^-149. -/
theorem value_of_unsigned {x : F32} (h : F32.sign x = false) : F32.value x = (F32.units x : Rat) / 2 ^ 149 := by
  rw [F32.value_of_units, h]
  simp

/-- A bound on each side, in units of `1 / c`, is a distance of at most one part in 2^20. -/
theorem abs_sub_div_le {K : Type} [Field K] [LinearOrder K] [IsStrictOrderedRing K] {x u c : K} (hc : 0 < c)
    (hlo : u * (2 ^ 20 - 1 : Nat) ≤ x * c * (2 ^ 20 : Nat)) (hhi : x * c * (2 ^ 20 : Nat) ≤ u * (2 ^ 20 + 1 : Nat)) :
    |x - u / c| ≤ u / c / 2 ^ 20 := by
  obtain ⟨f, rfl⟩ : ∃ f, u = f * c := ⟨u / c, (div_mul_cancel₀ u hc.ne').symm⟩
  rw [mul_div_cancel_right₀ f hc.ne']
  have hlo' : f * (2 ^ 20 - 1 : Nat) ≤ x * (2 ^ 20 : Nat) :=
    le_of_mul_le_mul_right (by linarith) hc
  have hhi' : x * (2 ^ 20 : Nat) ≤ f * (2 ^ 20 + 1 : Nat) :=
    le_of_mul_le_mul_right (by linarith) hc
  norm_num at hlo' hhi'
  rw [abs_le]
  constructor <;> linarith

/-- Bounds on 12th powers of naturals are bounds on the real 12th root. -/
theorem root12_bounds {u lo hi k p : Nat} {y : Real} (hy : 0 ≤ y) (hroot : y ^ 12 = p)
    (hlo : (u * lo) ^ 12 ≤ p * k ^ 12) (hhi : p * k ^ 12 ≤ (u * hi) ^ 12) :
    (u : Real) * lo ≤ y * k ∧ y * k ≤ (u : Real) * hi := by
  have hpow : (y * k) ^ 12 = (p * k ^ 12 : Nat) := by
    rw [mul_pow, hroot]
    push_cast
    rfl
  constructor <;> rw [← pow_le_pow_iff_left₀ (by positivity) (by positivity) (n := 12) (by decide), hpow] <;>
    exact_mod_cast ‹_›

/-- The formula of R206 for a note's frequency. -/
noncomputable def pitchFormula (n : Note) : Real := 440 * (2 : Real) ^ (((n.toNat : Real) - 69) / 12)

theorem pitchFormula_nonneg (n : Note) : 0 ≤ pitchFormula n := by
  unfold pitchFormula
  positivity

/-- The 12th power of an equal-tempered interval is a whole number of octaves. -/
theorem two_rpow_pow_twelve (n : Nat) : ((2 : Real) ^ (((n : Real) - 69) / 12)) ^ 12 * 2 ^ 69 = 2 ^ n := by
  rw [← Real.rpow_natCast _ 12, ← Real.rpow_mul (by norm_num), ← Real.rpow_natCast 2 69,
    ← Real.rpow_add (by norm_num), ← Real.rpow_natCast 2 n]
  congr 1
  push_cast
  ring

/-- `pitchPower` is the 12th power of the formula in units of 2^-149. -/
theorem pitchFormula_pow (n : Note) : (pitchFormula n * 2 ^ 149) ^ 12 = (pitchPower n : Nat) := by
  have hroot := two_rpow_pow_twelve n.toNat
  have hunits : ((2 : Real) ^ 149) ^ 12 = 2 ^ 69 * 2 ^ 1719 := by rw [← pow_mul, ← pow_add]
  rw [pitchFormula, pitchPower, mul_pow, mul_pow, hunits]
  push_cast
  rw [pow_add, ← hroot]
  generalize (2 : Real) ^ 69 = a
  generalize (2 : Real) ^ 1719 = b
  ring

theorem isPitch_bound {n : Note} {f : F32} (h : isPitch n f = true) : F32.isFinite f = true ∧
    |pitchFormula n - (F32.value f : Real)| ≤ (F32.value f : Real) / 2 ^ 20 := by
  simp only [isPitch, Bool.and_eq_true, Bool.not_eq_true', decide_eq_true_eq] at h
  obtain ⟨⟨⟨hfin, hsign⟩, hlo⟩, hhi⟩ := h
  obtain ⟨hlo, hhi⟩ := root12_bounds (mul_nonneg (pitchFormula_nonneg n) (by positivity)) (pitchFormula_pow n) hlo hhi
  have hvalue : (F32.value f : Real) = (F32.units f : Real) / 2 ^ 149 := by
    rw [value_of_unsigned hsign]
    push_cast
    rfl
  rw [hvalue]
  exact ⟨hfin, abs_sub_div_le (by positivity) hlo hhi⟩

theorem isAmplitude_bound {v : Velocity} {a : F32} (h : isAmplitude v a = true) : F32.isFinite a = true ∧
    |((v.toNat : Rat) / 127) ^ 2 - F32.value a| ≤ F32.value a / 2 ^ 20 := by
  simp only [isAmplitude, Bool.and_eq_true, Bool.not_eq_true', decide_eq_true_eq] at h
  obtain ⟨⟨⟨hfin, hsign⟩, hlo⟩, hhi⟩ := h
  rw [value_of_unsigned hsign]
  have hsquare : ((v.toNat : Rat) / 127) ^ 2 * 127 ^ 2 = v.toNat ^ 2 := by ring
  refine ⟨hfin, abs_sub_div_le (by positivity) ?_ ?_⟩
  · refine le_of_mul_le_mul_right ?_ (show (0 : Rat) < 127 ^ 2 by norm_num)
    have hlo' := (Nat.cast_le (α := Rat)).2 hlo
    push_cast at hlo' ⊢
    linear_combination hlo' - 2 ^ 149 * 2 ^ 20 * hsquare
  · refine le_of_mul_le_mul_right ?_ (show (0 : Rat) < 127 ^ 2 by norm_num)
    have hhi' := (Nat.cast_le (α := Rat)).2 hhi
    push_cast at hhi' ⊢
    linear_combination hhi' + 2 ^ 149 * 2 ^ 20 * hsquare

/-- R206: the three exact notes and the exact velocity. -/
theorem maps_exact : F32.value (baseFreq 57#7) = 220 ∧ F32.value (baseFreq 69#7) = 440 ∧
    F32.value (baseFreq 81#7) = 880 ∧ F32.value (amplitude 127#7) = 1 := by decide +kernel

/-! ### The runs of the oscillators (R78) -/

/-- R78 and R11: the effective frequency of finite parts lies in `[0, 22050]`. -/
theorem value_effectiveFreq_bounds {b : F32} {p : Snapshot}
    (h : F32.isFinite (F32.add (F32.mul b p.detuneMult) p.detuneOffset) = true) :
    0 ≤ F32.value (effectiveFreq b p) ∧ F32.value (effectiveFreq b p) ≤ 22050 := by
  have hzero : F32.value binary32.zero = 0 := by decide +kernel
  have hmax : F32.value freqMax = 22050 := by decide +kernel
  rw [effectiveFreq, clamp_of_finite h (by decide +kernel) (by decide +kernel), hzero, hmax]
  split_ifs <;> constructor <;> linarith

/-- R78: an `OscParams` runs its note at the effective frequency. -/
theorem frequencyOf_oscParams (w : World) (n : Note) (p : Snapshot) :
    (w.absorb (.oscParams n p)).frequencyOf n = effectiveFreq (w.oscOf n).baseFreq p := by
  simp [World.absorb, World.frequencyOf]

/-- The last frame's gain and `OscDestroy` end the run of their own note alone. -/
theorem running_of_runEnds (w : World) (n : Note) {k : Nat} (g : F32) (hk : k + 1 = w.frames.toNat) :
    (w.absorb (.gain n k g)).running = afterRun n w.running := if_pos hk

theorem running_of_runGoesOn (w : World) (n : Note) {k : Nat} (g : F32) (hk : k + 1 ≠ w.frames.toNat) :
    (w.absorb (.gain n k g)).running = w.running := if_neg hk

theorem frequencyOf_oscDestroy (w : World) (n : Note) :
    (w.absorb (.oscDestroy n)).frequencyOf n = (w.oscOf n).baseFreq := by
  have hosc : (w.absorb (.oscDestroy n)).oscOf n = { w.oscOf n with live := false } := w.setOsc_self n _
  rw [World.frequencyOf_afterRun (w := w) rfl, hosc]

/-- No run outlives the trace of a block, and note events begin none. -/
theorem step_running {s t : State} (hrun : s.world.running = none) (hstep : step s = .next t) :
    t.world.running = none := by
  obtain ⟨-, rfl⟩ | ⟨w, rest, u, hhost, -, -⟩ | ⟨rest, -, rfl⟩ | ⟨w, k, rest, u, -, -, rfl⟩ := step_cases hstep
  · exact hrun
  · obtain ⟨frames, offset, es, -, hworld, -⟩ | ⟨es, hworld, hes⟩ := step_world hhost hstep <;> rw [hworld]
    · rw [World.absorbAll_append]
      rfl
    · exact World.absorbAll_keeps (P := fun v => v.running = none)
        (fun e he v hv => World.absorb_running hv fun n p h => by simpa [h, IsNoteEvent] using hes e he) hrun
  · exact hrun
  · exact World.abandonRun_running _

/-- Settles O53: each event's effect by its equation; a run ends with `afterRun`, and the maps are R206's. -/
theorem oscillatorParameters : Obligations.OscillatorParameters := by
  have hzero : binary32.zero = 0#32 := by decide +kernel
  have hmax : freqMax = 0x46AC4400#32 := by decide +kernel
  refine ⟨fun w n p => ?_, fun w n vel => ?_, fun w n vel p frames offset k g => ?_, fun s t hrun hstep => ?_,
    maps_exact, fun n => isPitch_bound (isPitch_baseFreq n), fun v => isAmplitude_bound (isAmplitude_amplitude v)⟩
  · rw [← hzero, ← hmax]
    exact ⟨rfl, frequencyOf_oscParams w n p, value_effectiveFreq_bounds⟩
  · refine ⟨w.setOsc_self n _, rfl, w.setOsc_self n _, w.setOsc_self n _, rfl, rfl, ?_⟩
    simp only [List.forall_mem_cons]
    exact ⟨fun m => w.setOsc_other _, fun m => w.setOsc_other _, fun m => w.setOsc_other _, List.forall_mem_nil _⟩
  · refine ⟨rfl, rfl, running_of_runGoesOn w n g, fun hk => World.frequencyOf_afterRun (running_of_runEnds w n g hk),
      frequencyOf_oscDestroy w n, World.frequencyOf_none rfl n, fun r hr hn => ?_, fun r hr hn => ?_, rfl, ?_, ?_⟩
    · have hafter : afterRun n w.running = none := by rw [hr, afterRun_some, if_pos hn]
      exact ⟨hafter, fun hk => (running_of_runEnds w n g hk).trans hafter⟩
    · have hafter : afterRun n w.running = some r := by rw [hr, afterRun_some, if_neg hn]
      refine ⟨?_, hafter⟩
      by_cases hk : k + 1 = w.frames.toNat
      · exact (running_of_runEnds w n g hk).trans hafter
      · exact (running_of_runGoesOn w n g hk).trans hr
    · simp only [List.forall_mem_cons]
      exact ⟨rfl, rfl, rfl, rfl, List.forall_mem_nil _⟩
    · simp only [List.forall_mem_cons]
      exact ⟨rfl, rfl, rfl, rfl, rfl, List.forall_mem_nil _⟩
  · have hnone := step_running hrun hstep
    exact ⟨hnone, World.frequencyOf_none hnone⟩

end Sys2Proof.Machine
end
